-- ==== Sys2Proof/Word.lean ====
section
/-! DEFINITION. Word.lean: the bit strings the spec names (00_scope.md R6, R7). -/

namespace Sys2Proof

/-- One byte of memory: a tensor element before sign extension (20_memory.md R53). -/
abbrev Byte := BitVec 8

/-- One 16-bit element of scratch B (20_memory.md R53). -/
abbrev Half := BitVec 16

/-- A 32-bit register value, bus address or command word (10_state.md R22, 30_encoding.md R80). -/
abbrev Word := BitVec 32

end Sys2Proof
end

