-- ==== Sys2Proof/Config.lean ====
section
/-! DEFINITION. Config.lean: what the platform or the implementation fixes (00_scope.md R5) and the free values
that the spec leaves unspecified. -/

namespace Sys2Proof

namespace Config

/-- A byte the spec calls unspecified (any value): draw number, then byte address. It has no body, so no proof can
learn its value. Used for scratch A (20_memory.md R62), OUT, SCRA and SCRB after a bus error (60_exceptions.md R165),
an abort (70_reset_and_hazards.md R192) or a race, and a host read inside a race (20_memory.md R72). -/
opaque freeByte : Nat → Nat → BitVec 8

/-- A status bit the spec calls unspecified: ACC_OVF after a bus error or a race (60_exceptions.md R165). -/
opaque freeBit : Nat → Bool

/-- Which failing byte a bus error reports (60_exceptions.md R165, a draw among the failing bytes). -/
opaque freeIndex : Nat → Nat

/-- What the host temporary holds after a load that the bus answered with an error (10_state.md R38 states none). -/
opaque freeWord : Nat → BitVec 32

/-- `ID_VALUE` (00_scope.md R5, 10_state.md R23). -/
def idValue : Word := 0x434E4E07#32

end Config

/-- A run of byte addresses `base .. base+len-1`. -/
structure AddrRange where
  base : Nat
  len : Nat
deriving DecidableEq, Repr

/-- A run of byte addresses at which the memory system answers engine accesses with an error. -/
structure BusFault where
  range : AddrRange
  /-- engine reads of the range fail -/
  onRead : Bool
  /-- engine writes of the range fail -/
  onWrite : Bool
deriving DecidableEq, Repr

/-- One value of the parameter `FAST_W_ORDER` (43_pointwise.md R144) for one pair of channel counts: entry
`ci*cout + co` of `offsets` is the byte offset of logical weight `w[ci][co]`. -/
structure FastRow where
  cin : Nat
  cout : Nat
  offsets : List Nat
deriving DecidableEq, Repr

/-- The platform and implementation parameters of 00_scope.md R5. They are plain data: no step ever writes them, and a
statement about every state is a statement about every platform (DESIGN CHOICE, notes/assumptions/4.md). -/
structure Params where
  /-- bits 31..8 of `ENGINE_BASE`, which is 256-byte aligned (92_eei_decisions.md D2) -/
  enginePage : BitVec 24
  /-- `ACC_ROUND` (40_fixed_point.md R103) -/
  accRound : Bool
  /-- `POOL_ROUND = 1` (40_fixed_point.md R106) -/
  poolRound : Bool
  /-- `FAST_W_ORDER`: the channel counts for which it is not `rho_spec` -/
  fastOrder : List FastRow
  /-- `BUS_OK`, as the addresses at which it is false (60_exceptions.md R165) -/
  busFaults : List BusFault
  /-- addresses that are not normal memory: devices with side effects (20_memory.md R57) -/
  devices : List AddrRange
deriving DecidableEq, Repr

/-- The parameters at the defaults of 00_scope.md R5. The two OPEN ones have no default in the spec: the base address
and an error-free bus without devices are DESIGN CHOICE (notes/assumptions/3.md). -/
def Params.default : Params where
  enginePage := 0x400000#24
  accRound := false
  poolRound := true
  fastOrder := []
  busFaults := []
  devices := []

end Sys2Proof
end

