-- ==== Sys2Proof/Syntax.lean ====
section
/-! DEFINITION. Syntax.lean: the five commands of spec/opcode_table.json, one constructor per row.
A command word has no operand field (30_encoding.md R80): every operand is a configuration register. -/

namespace Sys2Proof

/-- The commands of the CNN-CORE command set, version 1 (30_encoding.md R81). -/
inductive Instr where
  /-- `conv2d` (CONV2D): full 2D convolution, 41_conv2d.md R121. -/
  | conv2d
  /-- `dwconv` (DWCONV): depthwise convolution, 42_depthwise.md R131. -/
  | dwconv
  /-- `pwconv` (PWCONV): pointwise 1x1 convolution, 43_pointwise.md R141. -/
  | pwconv
  /-- `pwconv.fast` (PWCONV_FAST): pointwise with reordered weights, 43_pointwise.md R145. -/
  | pwconvFast
  /-- `avgpool2x2` (AVGPOOL2X2): 2x2 stride-2 average pooling, 44_avgpool.md R151. -/
  | avgpool2x2
deriving DecidableEq, Repr

end Sys2Proof
end

