-- ==== Sys2Proof/WellFormed.lean ====
section
/-! DEFINITION. WellFormed.lean: what makes a command word and a parameter value legal.
An `Instr` has no operand, so every term of it is well formed; what can be ill formed is the word it is read from
(30_encoding.md R80, R83) and a `FAST_W_ORDER` that is no bijection (43_pointwise.md R144). -/

namespace Sys2Proof

/-- The reserved field RSV, bits 31:4, is zero (30_encoding.md R80). -/
def wordReservedZero (w : Word) : Bool := w.toNat / 16 == 0

/-- The opcode field OP, bits 3:0, is one of 0x1 to 0x5 (30_encoding.md R81, R83). -/
def wordOpcodeKnown (w : Word) : Bool := 1 ≤ w.toNat % 16 && w.toNat % 16 ≤ 5

/-- A command word the decoder accepts (30_encoding.md R82). -/
def wordWellFormed (w : Word) : Bool := wordReservedZero w && wordOpcodeKnown w

/-- A `FAST_W_ORDER` value is a bijection from `[0,Cin) x [0,Cout)` onto `[0, Cin*Cout)` (00_scope.md R5): every offset
occurs exactly once. -/
def FastRow.wellFormed (r : FastRow) : Bool :=
  r.offsets.length == r.cin * r.cout && r.offsets.all (· < r.cin * r.cout) && decide r.offsets.Nodup

/-- An address range lies in the 32-bit space (20_memory.md R50). -/
def AddrRange.wellFormed (r : AddrRange) : Bool := r.base + r.len ≤ 2 ^ 32

/-- The parameters are a legal platform (00_scope.md R5). -/
def Params.wellFormed (p : Params) : Bool :=
  p.fastOrder.all (·.wellFormed) && p.busFaults.all (·.range.wellFormed) && p.devices.all (·.wellFormed)

end Sys2Proof
end

