-- ==== Sys2Proof/Decode.lean ====
section
/-! DEFINITION. Decode.lean: from a command word to a command, total and rejecting by name (30_encoding.md R82, R83),
and the encoder (30_encoding.md R81). -/

namespace Sys2Proof

/-- Why a word is illegal (30_encoding.md R83). -/
inductive DecodeError where
  /-- a bit of RSV, bits 31:4, is set -/
  | reservedBits
  /-- OP is 0x0 or 0x6 to 0xF -/
  | reservedOpcode
deriving DecidableEq, Repr

/-- The field OP of a command word (30_encoding.md R80). -/
def opField (w : Word) : BitVec 4 := w.extractLsb' 0 4

/-- The field RSV of a command word (30_encoding.md R80). -/
def rsvField (w : Word) : BitVec 28 := w.extractLsb' 4 28

/-- The opcode map on the four bits of OP (30_encoding.md R81). -/
def decodeOp (op : BitVec 4) : Except DecodeError Instr :=
  match op.toNat with
  | 1 => .ok .conv2d
  | 2 => .ok .dwconv
  | 3 => .ok .pwconv
  | 4 => .ok .pwconvFast
  | 5 => .ok .avgpool2x2
  | _ => .error .reservedOpcode

/-- Decoding a command word, total on all words (30_encoding.md R82). -/
def decode (w : Word) : Except DecodeError Instr :=
  if rsvField w = 0#28 then decodeOp (opField w) else .error .reservedBits

/-- The command word of a command (30_encoding.md R81). -/
def encode (i : Instr) : Word :=
  match i with
  | .conv2d => 0x00000001#32
  | .dwconv => 0x00000002#32
  | .pwconv => 0x00000003#32
  | .pwconvFast => 0x00000004#32
  | .avgpool2x2 => 0x00000005#32

/-- The 32-bit word of a table row's first `nbits` bits; bits above them are zero. -/
def tableWord (nbits w : Nat) : Word := BitVec.ofNat 32 (w % 2 ^ nbits)

/-- The command the decoder reads from an opcode-table word. The word is delivered by one 32-bit register write
(30_encoding.md R84), so no byte order enters. -/
def decodeTableWord (nbits w : Nat) : Option Instr :=
  match decode (tableWord nbits w) with
  | .ok i => some i
  | .error _ => none

end Sys2Proof
end

