-- ==== Sys2Proof/Machine/State.lean ====
section
/-! DEFINITION. Machine/State.lean: the machine's whole state as plain data (10_state.md R46), the reasons a step can
stop, and the state after reset (10_state.md R44). -/

namespace Sys2Proof.Machine

/-- The registers of the block, by name (10_state.md R22). -/
inductive Reg where
  | id | ctrl | status | cmd | errCode | errInfo
  | dim | cin | cout | ksize | pad | biasShift | outShift
  | inAddr | wAddr | biasAddr | outAddr | scraAddr | scrbAddr
deriving DecidableEq, Repr

/-- The width of a host access to the register block (10_state.md R38). -/
inductive AccessWidth where
  | byte | half | word | double
deriving DecidableEq, Repr

/-- One access of the host, or one poll loop (30_encoding.md R87, 60_exceptions.md R172). -/
inductive HostOp where
  /-- `wr REG, v`: a 32-bit store to the register -/
  | wr (r : Reg) (v : Word)
  /-- `rd REG`: a 32-bit load of the register into the host temporary `t` -/
  | rd (r : Reg)
  /-- `poll REG, mask, v`: one step per iteration, until `(t AND mask) = v` -/
  | poll (r : Reg) (mask v : Word)
  /-- one byte store to memory (`mem.b` is a list of them) -/
  | storeByte (a : Word) (b : Byte)
  /-- one byte load from memory into `t` (20_memory.md R70, collect) -/
  | loadByte (a : Word)
  /-- any store to the register block, of any width and at any offset (10_state.md R37, R38) -/
  | regStore (off : BitVec 8) (width : AccessWidth) (v : Word)
  /-- any load from the register block, of any width and at any offset -/
  | regLoad (off : BitVec 8) (width : AccessWidth)
deriving DecidableEq, Repr

/-- Who moves next: the two agents of 60_exceptions.md R172, the reset input (70_reset_and_hazards.md R190), or another
bus master (20_memory.md R72). The list of turns is the model's own (DESIGN CHOICE, notes/assumptions/5.md). -/
inductive Turn where
  /-- the host's next access -/
  | host
  /-- the engine's completion step, enabled while BUSY = 1 -/
  | engine
  /-- the hardware reset input -/
  | hwReset
  /-- a byte store of another bus master -/
  | busMaster (a : Word) (b : Byte)
deriving DecidableEq, Repr

/-- Byte memory: the listed cells in rising address order; an unlisted address reads as `Memory.unlisted`. -/
abbrev Memory := List Host.Cell

/-- The configuration registers 0x18 to 0x48 (10_state.md R29 to R36). -/
structure CfgRegs where
  dim : BitVec 16
  cin : BitVec 16
  cout : BitVec 16
  ksize : BitVec 16
  pad : BitVec 16
  biasShift : BitVec 8
  outShift : BitVec 8
  inAddr : Word
  wAddr : Word
  biasAddr : Word
  outAddr : Word
  scraAddr : Word
  scrbAddr : Word
deriving DecidableEq, Repr

/-- The configuration registers after reset: all zero (10_state.md R44). -/
def CfgRegs.reset : CfgRegs where
  dim := 0
  cin := 0
  cout := 0
  ksize := 0
  pad := 0
  biasShift := 0
  outShift := 0
  inAddr := 0
  wAddr := 0
  biasAddr := 0
  outAddr := 0
  scraAddr := 0
  scrbAddr := 0

/-- Why the machine stops. Both reasons are of states no run from reset reaches; stopping is safe. -/
inductive Fault where
  /-- Raised by the engine's completion step when BUSY = 1 and no command is pending. 60_exceptions.md R160 and R167
  set and clear the two together, so this cannot happen in a run (notes/assumptions/11.md). Safe. -/
  | busyWithoutCommand
  /-- Raised by a host load of ERR_CODE when it holds 10 to 15. 93_implementation_defined.md K-23: a model that reads
  one is stuck, it cannot happen (notes/assumptions/10.md). Safe. -/
  | reservedErrorCode
deriving DecidableEq, Repr

/-- Why a step has no meaning. -/
inductive Refusal where
  /-- Raised by `exec` for a command without a meaning (there is none). Safe. -/
  | notModelled (mnemonic : String)
  /-- Raised by a host byte access to an address that `Params.devices` gives to a device, when no used region of a running
  command holds the address: the spec does not say what a device does (20_memory.md R57, notes/assumptions/13.md). An access
  that is a race goes on (20_memory.md R72). No command raises it. Safe. -/
  | deviceAccess
deriving DecidableEq, Repr

/-- The machine's state: the record of 10_state.md R46, the shared memory, the host's side of the interface
(30_encoding.md R87), the platform's parameters (00_scope.md R5), and the model's own fields for the order of the agents'
steps and for free values. `irq` is not stored (10_state.md R43). -/
structure State where
  /-- configuration registers 0x18 to 0x48 -/
  cfg : CfgRegs
  /-- CTRL.IRQ_EN (10_state.md R24) -/
  ctrlIrqEn : Bool
  /-- STATUS.BUSY (10_state.md R25): the engine phase -/
  busy : Bool
  /-- STATUS.DONE -/
  done : Bool
  /-- STATUS.ERR -/
  err : Bool
  /-- STATUS.ACC_OVF -/
  accOvf : Bool
  /-- STATUS.WR_BUSY -/
  wrBusy : Bool
  /-- ERR_CODE (10_state.md R27) -/
  errCode : BitVec 4
  /-- ERR_INFO (10_state.md R28) -/
  errInfo : Word
  /-- the command word while BUSY (60_exceptions.md R160) -/
  pending : Option Word
  /-- the host-fault mark, never cleared (10_state.md R38, 20_memory.md R57, R72) -/
  faulted : Bool
  /-- the MODEL's part of the hidden command record (10_state.md R40): the running command's results are unspecified,
  because of a race (20_memory.md R72) or a region outside normal memory (20_memory.md R57) -/
  spoiled : Bool
  /-- the memory space shared by host and engine (20_memory.md R50) -/
  mem : Memory
  /-- the host temporary `t` (30_encoding.md R87) -/
  hostT : Word
  /-- the bus answered the host's last register access with an error (10_state.md R38) -/
  hostBusErr : Bool
  /-- the host accesses still to come, in program order (30_encoding.md R89) -/
  program : List HostOp
  /-- the MODEL's own: the order in which the agents' next steps are taken (60_exceptions.md R172) -/
  schedule : List Turn
  /-- platform and implementation parameters (00_scope.md R5); no step writes them -/
  params : Params
  /-- the MODEL's own: the number of free values drawn so far -/
  freeCount : Nat
deriving DecidableEq, Repr

/-- The machine right after reset (10_state.md R44), with the parameters' defaults, no host access waiting, and the host
temporary and the model's own fields at DESIGN CHOICE values (notes/assumptions/2.md). -/
def State.reset : State where
  cfg := CfgRegs.reset
  ctrlIrqEn := false
  busy := false
  done := false
  err := false
  accOvf := false
  wrBusy := false
  errCode := 0
  errInfo := 0
  pending := none
  faulted := false
  spoiled := false
  mem := []
  hostT := 0
  hostBusErr := false
  program := []
  schedule := []
  params := Params.default
  freeCount := 0

end Sys2Proof.Machine
end

