-- ==== Sys2Proof/Machine/Regions.lean ====
section
/-! DEFINITION. Machine/Regions.lean: the byte regions a command uses (20_memory.md R58) and the checks on its registers
and regions (60_exceptions.md R161 to R165). -/

namespace Sys2Proof.Machine

/-- The error codes of 60_exceptions.md R161. -/
inductive ErrCode where
  | none | illegalOp | badDim | badChannel | badKernel | badShift | badAddr | align | overlap | busError
deriving DecidableEq, Repr

/-- The value of an error code in ERR_CODE[3:0] (60_exceptions.md R161). -/
def ErrCode.bits (c : ErrCode) : BitVec 4 :=
  match c with
  | .none => 0
  | .illegalOp => 1
  | .badDim => 2
  | .badChannel => 3
  | .badKernel => 4
  | .badShift => 5
  | .badAddr => 6
  | .align => 7
  | .overlap => 8
  | .busError => 9

/-- The byte offset of a register in the block (10_state.md R22). -/
def Reg.offset (r : Reg) : BitVec 8 :=
  match r with
  | .id => 0x00
  | .ctrl => 0x04
  | .status => 0x08
  | .cmd => 0x0C
  | .errCode => 0x10
  | .errInfo => 0x14
  | .dim => 0x18
  | .cin => 0x1C
  | .cout => 0x20
  | .ksize => 0x24
  | .pad => 0x28
  | .biasShift => 0x2C
  | .outShift => 0x30
  | .inAddr => 0x34
  | .wAddr => 0x38
  | .biasAddr => 0x3C
  | .outAddr => 0x40
  | .scraAddr => 0x44
  | .scrbAddr => 0x48

/-- The register at a byte offset; none at a reserved or misaligned offset (10_state.md R22, R37). -/
def Reg.ofOffset (off : BitVec 8) : Option Reg :=
  [Reg.id, .ctrl, .status, .cmd, .errCode, .errInfo, .dim, .cin, .cout, .ksize, .pad, .biasShift, .outShift, .inAddr,
    .wAddr, .biasAddr, .outAddr, .scraAddr, .scrbAddr].find? (fun r => r.offset == off)

/-- The regions of 20_memory.md R58. -/
inductive RegionId where
  | inp | w | bias | out | scra | scrb
deriving DecidableEq, Repr

/-- The region's id in ERR_INFO (20_memory.md R58). -/
def RegionId.number (r : RegionId) : Nat :=
  match r with
  | .inp => 1
  | .w => 2
  | .bias => 3
  | .out => 4
  | .scra => 5
  | .scrb => 6

/-- The write regions OUT, SCRA and SCRB (20_memory.md R58, R59). -/
def RegionId.isWritten (r : RegionId) : Bool :=
  match r with
  | .inp | .w | .bias => false
  | .out | .scra | .scrb => true

/-- The region's base register (20_memory.md R58). -/
def regionBase (c : CfgRegs) (r : RegionId) : Word :=
  match r with
  | .inp => c.inAddr
  | .w => c.wAddr
  | .bias => c.biasAddr
  | .out => c.outAddr
  | .scra => c.scraAddr
  | .scrb => c.scrbAddr

/-- `D`, zero-extended (30_encoding.md R85). -/
def CfgRegs.d (c : CfgRegs) : Nat := c.dim.toNat
/-- `Cin`, and `C` of the one-count commands (30_encoding.md R85, 10_state.md R45). -/
def CfgRegs.ci (c : CfgRegs) : Nat := c.cin.toNat
/-- `Cout` (30_encoding.md R85). -/
def CfgRegs.co (c : CfgRegs) : Nat := c.cout.toNat
/-- `K` (30_encoding.md R85). -/
def CfgRegs.k (c : CfgRegs) : Nat := c.ksize.toNat
/-- `P` (30_encoding.md R85). -/
def CfgRegs.p (c : CfgRegs) : Nat := c.pad.toNat
/-- `bs` (30_encoding.md R85). -/
def CfgRegs.bs (c : CfgRegs) : Nat := c.biasShift.toNat
/-- `os` (30_encoding.md R85). -/
def CfgRegs.os (c : CfgRegs) : Nat := c.outShift.toNat

/-- The region's length in bytes, on unbounded integers; none where the command does not use it (20_memory.md R58). The OUT
length of AVGPOOL2X2 with an odd DIM, which fails BAD_DIM if it completes, rounds `D/2` down (DESIGN CHOICE,
notes/assumptions/9.md). -/
def regionLen (i : Instr) (c : CfgRegs) (r : RegionId) : Option Nat :=
  match i, r with
  | .conv2d, .inp => some (c.d * c.d * c.ci)
  | .conv2d, .w => some (c.k * c.k * c.ci * c.co)
  | .conv2d, .bias => some c.co
  | .conv2d, .out => some (c.d * c.d * c.co)
  | .conv2d, .scra => some (2 * c.k * (c.k - 1 + c.d) * c.ci)
  | .conv2d, .scrb => some (2 * c.k * c.k * c.ci * c.co)
  | .dwconv, .inp => some (c.d * c.d * c.ci)
  | .dwconv, .w => some (c.k * c.k * c.ci)
  | .dwconv, .bias => none
  | .dwconv, .out => some (c.d * c.d * c.ci)
  | .dwconv, .scra => some (c.k * (c.k - 1 + c.d) * c.ci)
  | .dwconv, .scrb => none
  | .pwconv, .inp => some (c.d * c.d * c.ci)
  | .pwconv, .w => some (c.ci * c.co)
  | .pwconv, .bias => some c.co
  | .pwconv, .out => some (c.d * c.d * c.co)
  | .pwconv, .scra => some (4 * c.ci)
  | .pwconv, .scrb => none
  | .pwconvFast, .inp => some (c.d * c.d * c.ci)
  | .pwconvFast, .w => some (c.ci * c.co)
  | .pwconvFast, .bias => some c.co
  | .pwconvFast, .out => some (c.d * c.d * c.co)
  | .pwconvFast, .scra => some (4 * c.ci)
  | .pwconvFast, .scrb => none
  | .avgpool2x2, .inp => some (c.d * c.d * c.ci)
  | .avgpool2x2, .w => none
  | .avgpool2x2, .bias => none
  | .avgpool2x2, .out => some (c.d / 2 * (c.d / 2) * c.ci)
  | .avgpool2x2, .scra => none
  | .avgpool2x2, .scrb => none

/-- The halfword regions of a command (20_memory.md R55, 60_exceptions.md R164). -/
def halfwordRegion (i : Instr) (r : RegionId) : Bool :=
  match i, r with
  | .conv2d, .scra => true
  | .conv2d, .scrb => true
  | .pwconv, .scra => true
  | .pwconvFast, .scra => true
  | _, _ => false

/-- A used region: the bytes `base .. base+len-1` (20_memory.md R58). -/
structure Region where
  id : RegionId
  base : Nat
  len : Nat
deriving DecidableEq, Repr

/-- The used regions of a command, by ascending id (20_memory.md R58). -/
def usedRegions (i : Instr) (c : CfgRegs) : List Region :=
  [RegionId.inp, .w, .bias, .out, .scra, .scrb].filterMap fun r =>
    (regionLen i c r).map fun n => ⟨r, (regionBase c r).toNat, n⟩

/-- The address is a byte of the region. -/
def Region.contains (r : Region) (a : Nat) : Bool := decide (r.base ≤ a) && decide (a < r.base + r.len)

/-- The address is a byte of one of the regions. -/
def inRegions (rs : List Region) (a : Nat) : Bool := rs.any (·.contains a)

/-- Two ranges meet (60_exceptions.md R164). -/
def Region.meets (r q : Region) : Bool := decide (r.base < q.base + q.len) && decide (q.base < r.base + r.len)

/-- The region shares a byte with a range of addresses. -/
def Region.touches (r : Region) (q : AddrRange) : Bool :=
  decide (0 < r.len) && decide (0 < q.len) && decide (r.base < q.base + q.len) && decide (q.base < r.base + r.len)

/-- One row of a command's constraint table (60_exceptions.md R163). -/
structure ParamRow where
  reg : Reg
  ok : Bool
  code : ErrCode
deriving DecidableEq, Repr

/-- The parameter checks: the first row whose predicate is false gives its code and its register's offset
(60_exceptions.md R163, R166). -/
def paramError (rows : List ParamRow) : Option (ErrCode × Word) :=
  (rows.find? fun r => !r.ok).map fun r => (r.code, r.reg.offset.setWidth 32)

/-- The pairs of a list's elements, first before second, in lexicographic order. -/
def pairsOf {α : Type} : List α → List (α × α)
  | [] => []
  | x :: rest => rest.map (fun y => (x, y)) ++ pairsOf rest

/-- BAD_ADDR: the first region that runs past the top of memory (60_exceptions.md R164, R166). -/
def addrError (rs : List Region) : Option (ErrCode × Word) :=
  (rs.find? fun r => decide (2 ^ 32 < r.base + r.len)).map fun r => (.badAddr, BitVec.ofNat 32 r.id.number)

/-- ALIGN: the first halfword region at an odd address (60_exceptions.md R164, R166). -/
def alignError (i : Instr) (rs : List Region) : Option (ErrCode × Word) :=
  (rs.find? fun r => halfwordRegion i r.id && r.base % 2 != 0).map fun r => (.align, BitVec.ofNat 32 r.id.number)

/-- OVERLAP: the first pair of regions that meet, one of them written (60_exceptions.md R164, R166). -/
def overlapError (rs : List Region) : Option (ErrCode × Word) :=
  ((pairsOf rs).find? fun q => (q.1.id.isWritten || q.2.id.isWritten) && q.1.meets q.2).map fun q =>
    (.overlap, (BitVec.ofNat 32 q.1.id.number <<< 8) ||| BitVec.ofNat 32 q.2.id.number)

/-- The region checks, in the order BAD_ADDR, ALIGN, OVERLAP (60_exceptions.md R162, R164). -/
def regionError (i : Instr) (rs : List Region) : Option (ErrCode × Word) :=
  match addrError rs with
  | some e => some e
  | none =>
    match alignError i rs with
    | some e => some e
    | none => overlapError rs

/-- A listed bus fault answers the access at an address with an error. -/
def busFaultHits (f : BusFault) (write : Bool) (a : Nat) : Bool :=
  (if write then f.onWrite else f.onRead) && decide (f.range.base ≤ a) && decide (a < f.range.base + f.range.len)

/-- `BUS_OK(addr, kind)` (00_scope.md R5); `write` is the kind. -/
def busOk (p : Params) (write : Bool) (a : Nat) : Bool := !p.busFaults.any fun f => busFaultHits f write a

/-- A byte of a region fails (60_exceptions.md R165): IN, W and BIAS when read, OUT when written, scratch either way. -/
def byteFails (p : Params) (r : RegionId) (a : Nat) : Bool :=
  match r with
  | .inp | .w | .bias => !busOk p false a
  | .out => !busOk p true a
  | .scra | .scrb => !busOk p true a || !busOk p false a

/-- The addresses of the failing bytes of a command's regions (60_exceptions.md R165). -/
def failingBytes (p : Params) (rs : List Region) : List Nat :=
  rs.flatMap fun r => (List.range' r.base r.len).filter fun a => byteFails p r.id a

end Sys2Proof.Machine
end

