-- ==== Sys2Proof/Machine/Flags.lean ====
section
/-! DEFINITION. Machine/Flags.lean: the STATUS register and the interrupt output (10_state.md R25, R43). -/

namespace Sys2Proof.Machine

/-- The value `STATUS` reads as (10_state.md R25). -/
def statusWord (s : State) : Word :=
  (0#27 ++ BitVec.ofBool s.wrBusy ++ BitVec.ofBool s.accOvf ++ BitVec.ofBool s.err ++ BitVec.ofBool s.done
    ++ BitVec.ofBool s.busy).setWidth 32

/-- The value `CTRL` reads as: IRQ_EN, with SRST and the reserved bits zero (10_state.md R24). -/
def ctrlWord (s : State) : Word := (BitVec.ofBool s.ctrlIrqEn).setWidth 32

/-- A W1C write of STATUS: a bit written 1 clears, BUSY and the reserved bits are untouched (10_state.md R25). -/
def State.clearStatus (v : Word) (s : State) : State :=
  { s with
    done := s.done && !v.getLsbD 1
    err := s.err && !v.getLsbD 2
    accOvf := s.accOvf && !v.getLsbD 3
    wrBusy := s.wrBusy && !v.getLsbD 4 }

/-- The interrupt output `irq = CTRL.IRQ_EN AND STATUS.DONE` (10_state.md R43, 60_exceptions.md R170). -/
def State.irq (s : State) : Bool := s.ctrlIrqEn && s.done

/-- A host write ignored because the engine was BUSY sets WR_BUSY (10_state.md R39). -/
def State.noteWriteBusy (s : State) : State := { s with wrBusy := true }

end Sys2Proof.Machine
end

