-- ==== Sys2Proof/Machine/FixedPoint.lean ====
section
/-! DEFINITION. Machine/FixedPoint.lean: the arithmetic shared by the commands (00_scope.md R7, 40_fixed_point.md).
Values are exact integers until a function narrows them (00_scope.md R6). -/

namespace Sys2Proof.Machine

/-- `sext_8` (00_scope.md R7): a tensor element as a signed integer. -/
def sext8 (b : Byte) : Int := b.toInt

/-- `trunc_8` (00_scope.md R7). -/
def trunc8 (v : Int) : Byte := BitVec.ofInt 8 v

/-- `trunc_16(sext_8(b))`: the widened weight of scratch B (20_memory.md R62). -/
def widen (b : Byte) : Half := BitVec.ofInt 16 (sext8 b)

/-- `wrap32` (00_scope.md R7). -/
def wrap32 (v : Int) : Int := (BitVec.ofInt 32 v).toInt

/-- `asr(v, s) = floor(v / 2^s)` (00_scope.md R7). -/
def asr (v : Int) (s : Nat) : Int := v / ((2 ^ s : Nat) : Int)

/-- `sat8` (00_scope.md R7), the `q7_saturate` sub-block. -/
def sat8 (v : Int) : Int := min 127 (max (-128) v)

/-- `rnd(os)` (40_fixed_point.md R103). -/
def rnd (accRound : Bool) (os : Nat) : Int := if accRound then (((1 <<< os) >>> 1 : Nat) : Int) else 0

/-- `requant(e, os)` (40_fixed_point.md R103). -/
def requant (accRound : Bool) (e : Int) (os : Nat) : Int := sat8 (asr (wrap32 (e + rnd accRound os)) os)

/-- The ACC_OVF condition of one output element: `e + rnd(os)` is outside int32 (40_fixed_point.md R104). -/
def overflows (accRound : Bool) (e : Int) (os : Nat) : Bool :=
  !(decide (-2147483648 ≤ e + rnd accRound os) && decide (e + rnd accRound os ≤ 2147483647))

/-- `POOL_ROUND` as the constant added in each halving add (00_scope.md R5). -/
def poolConst (poolRound : Bool) : Int := if poolRound then 1 else 0

/-- `hadd(a, b)` (40_fixed_point.md R106). -/
def hadd (poolRound : Bool) (a b : Int) : Int := asr (a + b + poolConst poolRound) 1

/-- The exact sum of `f 0 .. f (n-1)`. -/
def sumTo : Nat → (Nat → Int) → Int
  | 0, _ => 0
  | n + 1, f => sumTo n f + f n

/-- Some `k < n` has `f k`. -/
def anyBelow : Nat → (Nat → Bool) → Bool
  | 0, _ => false
  | n + 1, f => anyBelow n f || f n

/-- `sigma`: the slot of member `k` of a group of four inside its word (43_pointwise.md R144). -/
def fastSlot (k : Nat) : Nat :=
  match k with
  | 1 => 2
  | 2 => 1
  | k => k

/-- `rho_spec(ci, co)` for `cin` input channels (43_pointwise.md R144). -/
def rhoSpec (cin ci co : Nat) : Nat := ((co / 2 * (cin / 4) + ci / 4) * 2 + co % 2) * 4 + fastSlot (ci % 4)

end Sys2Proof.Machine
end

