-- ==== Sys2Proof/Machine/Memory.lean ====
section
/-! DEFINITION. Machine/Memory.lean: the operations on byte memory (00_scope.md R8, 20_memory.md R50, R52). -/

namespace Sys2Proof.Machine

/-- What an address no cell lists reads as. DESIGN CHOICE (notes/assumptions/1.md): zero. -/
def Memory.unlisted : Byte := 0#8

/-- The canonical form: addresses strictly rising and inside the 32-bit space, no cell equal to what an unlisted address
reads as. -/
abbrev Memory.wf (m : Memory) : Prop :=
  m.Pairwise (fun c d => c.1 < d.1) ∧ ∀ c ∈ m, c.1 < 2 ^ 32 ∧ c.2 ≠ Memory.unlisted

/-- `MemRead(a, 1)` (00_scope.md R8). -/
def Memory.read : Memory → Nat → Byte
  | [], _ => Memory.unlisted
  | (b, v) :: rest, a => if a = b then v else Memory.read rest a

/-- Puts a cell before the first cell of a higher address. -/
def Memory.insertCell : Memory → Nat → Byte → Memory
  | [], a, v => [(a, v)]
  | (b, w) :: rest, a, v => if a < b then (a, v) :: (b, w) :: rest else (b, w) :: Memory.insertCell rest a v

/-- `MemWrite(a, 1, v)` (00_scope.md R8), keeping the canonical form. -/
def Memory.write (m : Memory) (a : Nat) (v : Byte) : Memory :=
  if v = Memory.unlisted then m.filter (fun c => c.1 != a) else Memory.insertCell (m.filter (fun c => c.1 != a)) a v

/-- `MemRead(a, 2)`, little-endian (20_memory.md R52). -/
def Memory.readHalf (m : Memory) (a : Nat) : Half := m.read (a + 1) ++ m.read a

/-- `MemWrite(a, 2, v)`, little-endian (20_memory.md R52). -/
def Memory.writeHalf (m : Memory) (a : Nat) (v : Half) : Memory :=
  (m.write a (v.extractLsb' 0 8)).write (a + 1) (v.extractLsb' 8 8)

/-- Writes byte `f k` at `base + k` for every `k < n`. -/
def Memory.fill (m : Memory) (base : Nat) : Nat → (Nat → Byte) → Memory
  | 0, _ => m
  | n + 1, f => (Memory.fill m base n f).write (base + n) (f n)

/-- Writes halfword `f k` at `base + 2k` for every `k < n`. -/
def Memory.fillHalf (m : Memory) (base : Nat) : Nat → (Nat → Half) → Memory
  | 0, _ => m
  | n + 1, f => (Memory.fillHalf m base n f).writeHalf (base + 2 * n) (f n)

end Sys2Proof.Machine
end

