-- ==== Sys2Proof/Machine/Operands.lean ====
section
/-! DEFINITION. Machine/Operands.lean: how a command reads its operands: tensor elements, the zero-padded input, the bias
term and the fast weight order (20_memory.md R53, 40_fixed_point.md R105, R107, 43_pointwise.md R144). -/

namespace Sys2Proof.Machine

/-- Element of the weight tensor at a byte offset from W_ADDR (20_memory.md R53). -/
def weightAt (s : State) (off : Nat) : Int := sext8 (s.mem.read (s.cfg.wAddr.toNat + off))

/-- Element of the input tensor at a byte offset from IN_ADDR (20_memory.md R53). -/
def inputByte (s : State) (off : Nat) : Int := sext8 (s.mem.read (s.cfg.inAddr.toNat + off))

/-- `X(r, c, ch)`: the zero-padded input with `cx` channels (40_fixed_point.md R105). -/
def paddedInput (s : State) (cx : Nat) (r c : Int) (ch : Nat) : Int :=
  if 0 ≤ r ∧ r < s.cfg.d ∧ 0 ≤ c ∧ c < s.cfg.d then
    inputByte s ((r.toNat * s.cfg.d + c.toNat) * cx + ch)
  else 0

/-- `bias_term(co)` (40_fixed_point.md R107). -/
def biasTerm (s : State) (co : Nat) : Int :=
  sext8 (s.mem.read (s.cfg.biasAddr.toNat + co)) * ((2 ^ s.cfg.bs : Nat) : Int)

/-- `FAST_W_ORDER(ci, co)`: the platform's bijection for these channel counts, else `rho_spec` (43_pointwise.md R144,
notes/assumptions/4.md). -/
def fastOffset (p : Params) (cin cout ci co : Nat) : Nat :=
  match p.fastOrder.find? (fun r => r.cin == cin && r.cout == cout && r.wellFormed) with
  | some r => r.offsets.getD (ci * cout + co) 0
  | none => rhoSpec cin ci co

/-- The stored output byte of an accumulator value (40_fixed_point.md R103). -/
def outputByte (s : State) (e : Int) : Byte := trunc8 (requant s.params.accRound e s.cfg.os)

/-- The accumulator value leaves int32 before the output shift (40_fixed_point.md R104). -/
def accOverflows (s : State) (e : Int) : Bool := overflows s.params.accRound e s.cfg.os

end Sys2Proof.Machine
end

