-- ==== Sys2Proof/Machine/Ops.lean ====
section
/-! DEFINITION. Machine/Ops.lean: the shared operations: register access, launch, completion and errors
(60_exceptions.md), reset and abort (70_reset_and_hazards.md), and running a command through its checks. -/

namespace Sys2Proof.Machine

/-- A write of a configuration register keeps only the field's bits (10_state.md R22); other registers are none. -/
def CfgRegs.set (c : CfgRegs) (r : Reg) (v : Word) : CfgRegs :=
  match r with
  | .id | .ctrl | .status | .cmd | .errCode | .errInfo => c
  | .dim => { c with dim := v.setWidth 16 }
  | .cin => { c with cin := v.setWidth 16 }
  | .cout => { c with cout := v.setWidth 16 }
  | .ksize => { c with ksize := v.setWidth 16 }
  | .pad => { c with pad := v.setWidth 16 }
  | .biasShift => { c with biasShift := v.setWidth 8 }
  | .outShift => { c with outShift := v.setWidth 8 }
  | .inAddr => { c with inAddr := v }
  | .wAddr => { c with wAddr := v }
  | .biasAddr => { c with biasAddr := v }
  | .outAddr => { c with outAddr := v }
  | .scraAddr => { c with scraAddr := v }
  | .scrbAddr => { c with scrbAddr := v }

/-- What a host read of a register returns (10_state.md R22 to R36). -/
def State.regRead (r : Reg) (s : State) : Word :=
  match r with
  | .id => Config.idValue
  | .ctrl => ctrlWord s
  | .status => statusWord s
  | .cmd => 0#32
  | .errCode => s.errCode.setWidth 32
  | .errInfo => s.errInfo
  | .dim => s.cfg.dim.setWidth 32
  | .cin => s.cfg.cin.setWidth 32
  | .cout => s.cfg.cout.setWidth 32
  | .ksize => s.cfg.ksize.setWidth 32
  | .pad => s.cfg.pad.setWidth 32
  | .biasShift => s.cfg.biasShift.setWidth 32
  | .outShift => s.cfg.outShift.setWidth 32
  | .inAddr => s.cfg.inAddr
  | .wAddr => s.cfg.wAddr
  | .biasAddr => s.cfg.biasAddr
  | .outAddr => s.cfg.outAddr
  | .scraAddr => s.cfg.scraAddr
  | .scrbAddr => s.cfg.scrbAddr

/-- The register block as an address range (20_memory.md R51). -/
def registerBlock (p : Params) : AddrRange := ⟨(p.enginePage ++ 0#8).toNat, 256⟩

/-- The address lies in the register block `ENGINE_BASE .. ENGINE_BASE+0xFF` (20_memory.md R51). -/
def inRegisterBlock (p : Params) (a : Word) : Bool := a.extractLsb' 8 24 == p.enginePage

/-- The address belongs to a device (20_memory.md R57). -/
def isDevice (p : Params) (a : Word) : Bool :=
  p.devices.any fun r => decide (r.base ≤ a.toNat) && decide (a.toNat < r.base + r.len)

/-- A used region overlaps the register block or a device (20_memory.md R57). -/
def regionsNotNormal (p : Params) (rs : List Region) : Bool :=
  rs.any fun r => r.touches (registerBlock p) || p.devices.any fun q => r.touches q

/-- The used regions of a command word; an illegal word uses none (30_encoding.md R83, 20_memory.md R58). -/
def wordRegions (w : Word) (c : CfgRegs) : List Region :=
  match decode w with
  | .ok i => usedRegions i c
  | .error _ => []

/-- The used regions of the command in progress (20_memory.md R58, R72); none while IDLE. -/
def State.liveRegions (s : State) : List Region :=
  if s.busy then
    match s.pending with
    | some w => wordRegions w s.cfg
    | none => []
  else []

/-- Launch: the effect of an accepted CMD write (60_exceptions.md R160). A used region outside normal memory marks the
launch faulted (20_memory.md R57). -/
def State.launch (w : Word) (s : State) : State :=
  { s with
    busy := true
    done := false
    err := false
    accOvf := false
    errCode := 0
    errInfo := 0
    pending := some w
    faulted := s.faulted || regionsNotNormal s.params (wordRegions w s.cfg)
    spoiled := regionsNotNormal s.params (wordRegions w s.cfg) }

/-- Completion: the flags and registers every completion writes (60_exceptions.md R167). -/
def State.complete (code : ErrCode) (info : Word) (ovf : Bool) (s : State) : State :=
  { s with
    busy := false
    done := true
    err := code != .none
    accOvf := ovf
    errCode := code.bits
    errInfo := info
    pending := none
    spoiled := false }

/-- `raise Error(code, info)` for the codes 1 to 8, which touch no memory (60_exceptions.md R166 to R169): this hardware's
one exception entry. There is no return instruction (60_exceptions.md R173); the host acknowledges with
`State.clearStatus` or the next launch. -/
def State.raiseError (code : ErrCode) (info : Word) (s : State) : State := s.complete code info false

/-- The bytes of a region below the top of memory (DEDUCED, notes/assumptions/9.md). -/
def Region.clippedLen (r : Region) : Nat := min r.len (2 ^ 32 - r.base)

/-- Every byte of the picked regions becomes a free value, but for the bytes of the read regions IN, W and BIAS among
`rs`, which no command changes (20_memory.md R62, 70_reset_and_hazards.md R192; DEDUCED, notes/assumptions/9.md). `n` is
the draw's number. -/
def havocMemory (m : Memory) (n : Nat) (rs : List Region) (pick : RegionId → Bool) : Memory :=
  (rs.filter fun r => pick r.id).foldl
    (fun acc r => acc.fill r.base r.clippedLen fun k =>
      if inRegions (rs.filter fun q => !q.id.isWritten) (r.base + k) then m.read (r.base + k)
      else Config.freeByte n (r.base + k))
    m

/-- Draws free values for every byte of the picked regions (notes/assumptions/7.md). -/
def State.havoc (rs : List Region) (pick : RegionId → Bool) (s : State) : State :=
  { s with mem := havocMemory s.mem s.freeCount rs pick, freeCount := s.freeCount + 1 }

/-- What a command's rule leaves: the memory but for scratch A, and the value of ACC_OVF. -/
structure CommandResult where
  mem : Memory
  ovf : Bool
deriving DecidableEq, Repr

/-- Completion without error: the command's result, with scratch A unspecified (20_memory.md R62). The results of a
spoiled launch are unspecified (20_memory.md R57, R72; DEDUCED, notes/assumptions/8.md). -/
def State.succeed (rs : List Region) (result : CommandResult) (s : State) : State :=
  if s.spoiled then (s.havoc rs RegionId.isWritten).complete .none 0#32 (Config.freeBit s.freeCount)
  else (State.havoc rs (fun r => r == RegionId.scra) { s with mem := result.mem }).complete .none 0#32 result.ovf

/-- Completion with BUS_ERROR: one of the failing bytes, and OUT, SCRA, SCRB and ACC_OVF unspecified
(60_exceptions.md R165, notes/assumptions/19.md). -/
def State.busError (rs : List Region) (failing : List Nat) (s : State) : State :=
  (s.havoc rs RegionId.isWritten).complete .busError
    (BitVec.ofNat 32 (failing.getD (Config.freeIndex s.freeCount % failing.length) 0)) (Config.freeBit s.freeCount)

/-- The completion step of a decoded command: parameter checks, region checks, bus errors, then the command's result
(60_exceptions.md R162, R167). -/
def runCommand (i : Instr) (rows : List ParamRow) (result : CommandResult) (s : State) :
    Host.Outcome State Fault Refusal :=
  match paramError rows with
  | some e => .next (s.raiseError e.1 e.2)
  | none =>
    match regionError i (usedRegions i s.cfg) with
    | some e => .next (s.raiseError e.1 e.2)
    | none =>
      match failingBytes s.params (usedRegions i s.cfg) with
      | [] => .next (s.succeed (usedRegions i s.cfg) result)
      | b :: bs => .next (s.busError (usedRegions i s.cfg) (b :: bs))

/-- The completion step of an illegal command word (30_encoding.md R83, 60_exceptions.md R167). -/
def completeIllegal (w : Word) (s : State) : State := s.raiseError .illegalOp w

/-- Abort of the command in progress: OUT, SCRA and SCRB are unspecified (70_reset_and_hazards.md R192). -/
def State.abort (s : State) : State :=
  if s.busy then s.havoc s.liveRegions RegionId.isWritten else s

/-- The reset values of the block's registers and phase (10_state.md R44). Memory, the host-fault mark, the host's side
and the parameters are not the block's registers (DEDUCED, notes/assumptions/15.md). -/
def State.resetBlock (s : State) : State :=
  { s with
    cfg := CfgRegs.reset
    ctrlIrqEn := false
    busy := false
    done := false
    err := false
    accOvf := false
    wrBusy := false
    errCode := 0
    errInfo := 0
    pending := none
    spoiled := false }

/-- Hardware reset and soft reset: abort, then the reset values (70_reset_and_hazards.md R190, R191). -/
def State.blockReset (s : State) : State := s.abort.resetBlock

/-- What a host 32-bit write of a register does (10_state.md R22 to R39). -/
def State.regWrite (r : Reg) (v : Word) (s : State) : State :=
  match r with
  | .id | .errCode | .errInfo => s
  | .ctrl => if v.getLsbD 1 then s.blockReset else { s with ctrlIrqEn := v.getLsbD 0 }
  | .status => s.clearStatus v
  | .cmd => if s.busy then s.noteWriteBusy else s.launch v
  | r => if s.busy then s.noteWriteBusy else { s with cfg := s.cfg.set r v }

/-- An access the block answers: 32 bits wide at a 4-byte aligned offset (10_state.md R38). -/
def goodAccess (off : BitVec 8) (width : AccessWidth) : Bool := width == .word && off.toNat % 4 == 0

/-- The bus answered the host's access. -/
def State.answered (s : State) : State := { s with hostBusErr := false }

/-- The bus answered the host's load with a value, which goes to `t` (30_encoding.md R87). -/
def State.loaded (v : Word) (s : State) : State := { s with hostT := v, hostBusErr := false }

/-- The bus answered the host's access with an error: no engine state changes, the run is marked faulted
(10_state.md R38). -/
def State.busErrored (s : State) : State := { s with faulted := true, hostBusErr := true }

/-- A load takes a free value for `t` (notes/assumptions/12.md). -/
def State.loadedFree (v : Word) (s : State) : State := { s with hostT := v, freeCount := s.freeCount + 1 }

/-- A host store to the register block (10_state.md R22, R37, R38). -/
def State.regStore (off : BitVec 8) (width : AccessWidth) (v : Word) (s : State) : State :=
  if goodAccess off width then
    match Reg.ofOffset off with
    | some r => (s.regWrite r v).answered
    | none => s.answered
  else s.busErrored

/-- A host load from the register block into `t` (10_state.md R22, R37, R38); a reserved ERR_CODE is stuck
(93_implementation_defined.md K-23). An address of the block is none of a used region's bytes, so this is no race (DEDUCED,
notes/assumptions/8.md). -/
def State.regLoad (off : BitVec 8) (width : AccessWidth) (s : State) : Host.Outcome State Fault Refusal :=
  if goodAccess off width then
    match Reg.ofOffset off with
    | some r =>
      if r = .errCode ∧ 9#4 < s.errCode then .fault .reservedErrorCode
      else .next (s.loaded (s.regRead r))
    | none => .next (s.loaded 0#32)
  else .next (s.busErrored.loadedFree (Config.freeWord s.freeCount))

/-- A store to a byte of a used region while BUSY marks the launch faulted and its results unspecified (20_memory.md R72).
A store to another byte marks nothing. -/
def State.raceMark (a : Word) (s : State) : State :=
  { s with
    faulted := s.faulted || inRegions s.liveRegions a.toNat
    spoiled := s.spoiled || inRegions s.liveRegions a.toNat }

/-- A byte store to memory by the host or another master: the byte itself is stored, in a race too (DEDUCED,
notes/assumptions/8.md), and a race is marked (20_memory.md R72). -/
def State.raceStore (a : Word) (b : Byte) (s : State) : State := { s.raceMark a with mem := s.mem.write a.toNat b }

/-- A host byte store (30_encoding.md R87 `mem.b`). A byte access to the register block is a narrow access
(10_state.md R38; DEDUCED, notes/assumptions/12.md). A store to a device is refused, but in a race it is marked
(20_memory.md R72) and changes nothing else of the state (DESIGN CHOICE, notes/assumptions/13.md). An address that `BUS_OK`
says fails for the engine is normal memory to the host (DESIGN CHOICE, notes/assumptions/23.md). -/
def State.storeByte (a : Word) (b : Byte) (s : State) : Host.Outcome State Fault Refusal :=
  if inRegisterBlock s.params a then .next (s.regStore (a.extractLsb' 0 8) .byte (b.setWidth 32))
  else if !isDevice s.params a then .next (s.raceStore a b).answered
  else if inRegions s.liveRegions a.toNat then .next (s.raceMark a).answered
  else .refused .deviceAccess

/-- A host byte load into `t` (20_memory.md R70). A load from a used region while BUSY returns any value
(20_memory.md R72), whatever stands at the address; a load from a device is refused elsewhere (DESIGN CHOICE,
notes/assumptions/13.md). It is zero-extended (DESIGN CHOICE, notes/assumptions/12.md). An address that `BUS_OK` says
fails for the engine is normal memory to the host (DESIGN CHOICE, notes/assumptions/23.md). -/
def State.loadByte (a : Word) (s : State) : Host.Outcome State Fault Refusal :=
  if inRegisterBlock s.params a then s.regLoad (a.extractLsb' 0 8) .byte
  else if inRegions s.liveRegions a.toNat then
    .next (s.answered.loadedFree ((Config.freeByte s.freeCount a.toNat).setWidth 32))
  else if isDevice s.params a then .refused .deviceAccess
  else .next (s.loaded ((s.mem.read a.toNat).setWidth 32))

/-- A byte store of another bus master; in a race it is marked (20_memory.md R72). It does not reach the register block
(20_memory.md R51), and a device is no part of the state (DESIGN CHOICE, notes/assumptions/13.md). An address that `BUS_OK`
says fails for the engine is normal memory to another master (DESIGN CHOICE, notes/assumptions/23.md). -/
def State.busMasterStore (a : Word) (b : Byte) (s : State) : State :=
  if inRegisterBlock s.params a || isDevice s.params a then s.raceMark a else s.raceStore a b

end Sys2Proof.Machine
end

