-- ==== Sys2Proof/Machine/AvgPool.lean ====
section
/-! DEFINITION. Machine/AvgPool.lean: AVGPOOL2X2, 2x2 stride-2 average pooling (44_avgpool.md). -/

namespace Sys2Proof.Machine

/-- The constraint table of AVGPOOL2X2 (44_avgpool.md R150). -/
def avgpoolRows (c : CfgRegs) : List ParamRow :=
  [⟨.dim, decide (2 ≤ c.d) && decide (c.d % 2 = 0), .badDim⟩,
    ⟨.cin, decide (4 ≤ c.ci) && decide (c.ci % 4 = 0), .badChannel⟩]

/-- `t(r, q)`: input element `(r, q, c)` (44_avgpool.md R151). -/
def poolInput (s : State) (r q c : Nat) : Int := inputByte s ((r * s.cfg.d + q) * s.cfg.ci + c)

/-- The pooled value of output element `(oy, ox, c)`: the cascade of halving adds (44_avgpool.md R151). -/
def poolValue (s : State) (oy ox c : Nat) : Int :=
  hadd s.params.poolRound
    (hadd s.params.poolRound (poolInput s (2 * oy) (2 * ox) c) (poolInput s (2 * oy) (2 * ox + 1) c))
    (hadd s.params.poolRound (poolInput s (2 * oy + 1) (2 * ox) c) (poolInput s (2 * oy + 1) (2 * ox + 1) c))

/-- The output byte at offset `n` of OUT: `n = (oy*H + ox)*C + c` with `H = D/2` (00_scope.md R9). -/
def poolByteAt (s : State) (n : Nat) : Byte :=
  trunc8 (poolValue s (n / s.cfg.ci / (s.cfg.d / 2)) (n / s.cfg.ci % (s.cfg.d / 2)) (n % s.cfg.ci))

/-- The result of AVGPOOL2X2: ACC_OVF stays 0 (44_avgpool.md R151). -/
def avgpoolResult (s : State) : CommandResult where
  mem := s.mem.fill s.cfg.outAddr.toNat (s.cfg.d / 2 * (s.cfg.d / 2) * s.cfg.ci) (poolByteAt s)
  ovf := false

/-- AVGPOOL2X2, command word 0x00000005 (44_avgpool.md R151). -/
def execAvgpool (s : State) : Host.Outcome State Fault Refusal :=
  runCommand .avgpool2x2 (avgpoolRows s.cfg) (avgpoolResult s) s

end Sys2Proof.Machine
end

