-- ==== Sys2Proof/Machine/Conv2d.lean ====
section
/-! DEFINITION. Machine/Conv2d.lean: CONV2D, full 2D convolution (41_conv2d.md). -/

namespace Sys2Proof.Machine

/-- The constraint table of CONV2D (41_conv2d.md R120). -/
def conv2dRows (c : CfgRegs) : List ParamRow :=
  [⟨.dim, decide (2 ≤ c.d) && decide (c.d % 2 = 0), .badDim⟩,
    ⟨.cin, decide (2 ≤ c.ci) && decide (c.ci % 2 = 0), .badChannel⟩,
    ⟨.cout, decide (2 ≤ c.co) && decide (c.co % 2 = 0), .badChannel⟩,
    ⟨.ksize, decide (1 ≤ c.k) && decide (c.k % 2 = 1), .badKernel⟩,
    ⟨.pad, decide (c.p = (c.k - 1) / 2), .badKernel⟩,
    ⟨.biasShift, decide (c.bs ≤ 31), .badShift⟩,
    ⟨.outShift, decide (c.os ≤ 31), .badShift⟩]

/-- The exact accumulator value of output element `(y, x, co)` (41_conv2d.md R121). -/
def conv2dAcc (s : State) (y x co : Nat) : Int :=
  biasTerm s co +
    sumTo s.cfg.k fun ky => sumTo s.cfg.k fun kx => sumTo s.cfg.ci fun ci =>
      paddedInput s s.cfg.ci ((y : Int) + ky - s.cfg.p) ((x : Int) + kx - s.cfg.p) ci
        * weightAt s (((ky * s.cfg.k + kx) * s.cfg.ci + ci) * s.cfg.co + co)

/-- The accumulator value of the output byte at offset `n` of OUT: `n = (y*D + x)*Cout + co` (00_scope.md R9). -/
def conv2dAccAt (s : State) (n : Nat) : Int :=
  conv2dAcc s (n / s.cfg.co / s.cfg.d) (n / s.cfg.co % s.cfg.d) (n % s.cfg.co)

/-- The result of CONV2D: SCRB holds the widened weights, OUT the requantised accumulators (41_conv2d.md R121). -/
def conv2dResult (s : State) : CommandResult where
  mem := (s.mem.fillHalf s.cfg.scrbAddr.toNat (s.cfg.k * s.cfg.k * s.cfg.ci * s.cfg.co)
      fun n => widen (s.mem.read (s.cfg.wAddr.toNat + n))).fill
    s.cfg.outAddr.toNat (s.cfg.d * s.cfg.d * s.cfg.co) fun n => outputByte s (conv2dAccAt s n)
  ovf := anyBelow (s.cfg.d * s.cfg.d * s.cfg.co) fun n => accOverflows s (conv2dAccAt s n)

/-- CONV2D, command word 0x00000001 (41_conv2d.md R121). -/
def execConv2d (s : State) : Host.Outcome State Fault Refusal :=
  runCommand .conv2d (conv2dRows s.cfg) (conv2dResult s) s

end Sys2Proof.Machine
end

