-- ==== Sys2Proof/Machine/Depthwise.lean ====
section
/-! DEFINITION. Machine/Depthwise.lean: DWCONV, depthwise convolution (42_depthwise.md). -/

namespace Sys2Proof.Machine

/-- The constraint table of DWCONV (42_depthwise.md R130). -/
def dwconvRows (c : CfgRegs) : List ParamRow :=
  [⟨.dim, decide (1 ≤ c.d), .badDim⟩,
    ⟨.cin, decide (1 ≤ c.ci), .badChannel⟩,
    ⟨.ksize, decide (1 ≤ c.k) && decide (c.k % 2 = 1), .badKernel⟩,
    ⟨.pad, decide (c.p = (c.k - 1) / 2), .badKernel⟩,
    ⟨.outShift, decide (c.os ≤ 31), .badShift⟩]

/-- The exact accumulator value of output element `(y, x, c)`: no bias term, no sum over channels
(42_depthwise.md R131). -/
def dwconvAcc (s : State) (y x c : Nat) : Int :=
  sumTo s.cfg.k fun ky => sumTo s.cfg.k fun kx =>
    paddedInput s s.cfg.ci ((y : Int) + ky - s.cfg.p) ((x : Int) + kx - s.cfg.p) c
      * weightAt s ((ky * s.cfg.k + kx) * s.cfg.ci + c)

/-- The accumulator value of the output byte at offset `n` of OUT: `n = (y*D + x)*C + c` (00_scope.md R9). -/
def dwconvAccAt (s : State) (n : Nat) : Int :=
  dwconvAcc s (n / s.cfg.ci / s.cfg.d) (n / s.cfg.ci % s.cfg.d) (n % s.cfg.ci)

/-- The result of DWCONV (42_depthwise.md R131). -/
def dwconvResult (s : State) : CommandResult where
  mem := s.mem.fill s.cfg.outAddr.toNat (s.cfg.d * s.cfg.d * s.cfg.ci) fun n => outputByte s (dwconvAccAt s n)
  ovf := anyBelow (s.cfg.d * s.cfg.d * s.cfg.ci) fun n => accOverflows s (dwconvAccAt s n)

/-- DWCONV, command word 0x00000002 (42_depthwise.md R131). -/
def execDwconv (s : State) : Host.Outcome State Fault Refusal :=
  runCommand .dwconv (dwconvRows s.cfg) (dwconvResult s) s

end Sys2Proof.Machine
end

