-- ==== Sys2Proof/Machine/Pointwise.lean ====
section
/-! DEFINITION. Machine/Pointwise.lean: PWCONV and PWCONV_FAST, pointwise 1x1 convolution (43_pointwise.md). -/

namespace Sys2Proof.Machine

/-- The constraint table of PWCONV (43_pointwise.md R140). -/
def pwconvRows (c : CfgRegs) : List ParamRow :=
  [⟨.dim, decide (1 ≤ c.d), .badDim⟩,
    ⟨.cin, decide (1 ≤ c.ci), .badChannel⟩,
    ⟨.cout, decide (1 ≤ c.co), .badChannel⟩,
    ⟨.biasShift, decide (c.bs ≤ 31), .badShift⟩,
    ⟨.outShift, decide (c.os ≤ 31), .badShift⟩]

/-- The constraint table of PWCONV_FAST (43_pointwise.md R143). -/
def pwconvFastRows (c : CfgRegs) : List ParamRow :=
  [⟨.dim, decide (1 ≤ c.d), .badDim⟩,
    ⟨.cin, decide (4 ≤ c.ci) && decide (c.ci % 4 = 0), .badChannel⟩,
    ⟨.cout, decide (2 ≤ c.co) && decide (c.co % 2 = 0), .badChannel⟩,
    ⟨.biasShift, decide (c.bs ≤ 31), .badShift⟩,
    ⟨.outShift, decide (c.os ≤ 31), .badShift⟩]

/-- The exact accumulator value of pixel `p`, output channel `co`, with weight element `(ci, co)` at byte offset
`order ci co` (43_pointwise.md R141, R145). -/
def pointwiseAcc (s : State) (order : Nat → Nat → Nat) (p co : Nat) : Int :=
  biasTerm s co + sumTo s.cfg.ci fun ci => inputByte s (p * s.cfg.ci + ci) * weightAt s (order ci co)

/-- The byte offset of weight element `(ci, co)` in the basic layout (43_pointwise.md R141). -/
def pwconvOrder (s : State) (ci co : Nat) : Nat := ci * s.cfg.co + co

/-- The byte offset of weight element `(ci, co)` in the reordered layout (43_pointwise.md R144, R145). -/
def pwconvFastOrder (s : State) (ci co : Nat) : Nat := fastOffset s.params s.cfg.ci s.cfg.co ci co

/-- The accumulator value of PWCONV's output byte at offset `n` of OUT: `n = p*Cout + co`. -/
def pwconvAccAt (s : State) (n : Nat) : Int := pointwiseAcc s (pwconvOrder s) (n / s.cfg.co) (n % s.cfg.co)

/-- The accumulator value of PWCONV_FAST's output byte at offset `n` of OUT: `n = p*Cout + co`. -/
def pwconvFastAccAt (s : State) (n : Nat) : Int := pointwiseAcc s (pwconvFastOrder s) (n / s.cfg.co) (n % s.cfg.co)

/-- The result of PWCONV (43_pointwise.md R141). -/
def pwconvResult (s : State) : CommandResult where
  mem := s.mem.fill s.cfg.outAddr.toNat (s.cfg.d * s.cfg.d * s.cfg.co) fun n => outputByte s (pwconvAccAt s n)
  ovf := anyBelow (s.cfg.d * s.cfg.d * s.cfg.co) fun n => accOverflows s (pwconvAccAt s n)

/-- The result of PWCONV_FAST (43_pointwise.md R145). -/
def pwconvFastResult (s : State) : CommandResult where
  mem := s.mem.fill s.cfg.outAddr.toNat (s.cfg.d * s.cfg.d * s.cfg.co) fun n => outputByte s (pwconvFastAccAt s n)
  ovf := anyBelow (s.cfg.d * s.cfg.d * s.cfg.co) fun n => accOverflows s (pwconvFastAccAt s n)

/-- PWCONV, command word 0x00000003 (43_pointwise.md R141). -/
def execPwconv (s : State) : Host.Outcome State Fault Refusal :=
  runCommand .pwconv (pwconvRows s.cfg) (pwconvResult s) s

/-- PWCONV_FAST, command word 0x00000004 (43_pointwise.md R145). -/
def execPwconvFast (s : State) : Host.Outcome State Fault Refusal :=
  runCommand .pwconvFast (pwconvFastRows s.cfg) (pwconvFastResult s) s

end Sys2Proof.Machine
end

