-- ==== Sys2Proof/Machine/Dispatch.lean ====
section
/-! DEFINITION. Machine/Dispatch.lean: one arm per command, each one call of its meaning: the command's completion step
(60_exceptions.md R167). -/

namespace Sys2Proof.Machine

def exec (i : Instr) (s : State) : Host.Outcome State Fault Refusal :=
  match i with
  | .conv2d => Sys2Proof.Machine.execConv2d s
  | .dwconv => Sys2Proof.Machine.execDwconv s
  | .pwconv => Sys2Proof.Machine.execPwconv s
  | .pwconvFast => Sys2Proof.Machine.execPwconvFast s
  | .avgpool2x2 => Sys2Proof.Machine.execAvgpool s

end Sys2Proof.Machine
end

