-- ==== Sys2Proof/Machine/Agents.lean ====
section
/-! DEFINITION. Machine/Agents.lean: the steps of the two agents, and of the world around them (60_exceptions.md R172). -/

namespace Sys2Proof.Machine

/-- The engine's one step, the completion step of the pending command (60_exceptions.md R167). -/
def engineStep (s : State) : Host.Outcome State Fault Refusal :=
  match s.pending with
  | none => .fault .busyWithoutCommand
  | some w =>
    match decode w with
    | .ok i => exec i s
    | .error _ => .next (completeIllegal w s)

/-- After a poll's load: leave the loop, or stay in it (30_encoding.md R87). -/
def pollNext (mask v : Word) (rest : List HostOp) (s : State) : State :=
  if s.hostT &&& mask = v then { s with program := rest } else s

/-- One host access; `rest` is the host program after it (30_encoding.md R87, 60_exceptions.md R172). -/
def hostAccess (op : HostOp) (rest : List HostOp) (s : State) : Host.Outcome State Fault Refusal :=
  match op with
  | .wr r v => .next (State.regStore r.offset .word v { s with program := rest })
  | .rd r => State.regLoad r.offset .word { s with program := rest }
  | .poll r mask v =>
    match s.regLoad r.offset .word with
    | .next t => .next (pollNext mask v rest t)
    | .fault f => .fault f
    | .refused f => .refused f
  | .storeByte a b => State.storeByte a b { s with program := rest }
  | .loadByte a => State.loadByte a { s with program := rest }
  | .regStore off width v => .next (State.regStore off width v { s with program := rest })
  | .regLoad off width => State.regLoad off width { s with program := rest }

/-- The host's next step; a host with nothing left to do changes nothing (DESIGN CHOICE, notes/assumptions/17.md). -/
def hostStep (s : State) : Host.Outcome State Fault Refusal :=
  match s.program with
  | [] => .next s
  | op :: rest => hostAccess op rest s

/-- The step of the agent whose turn it is. The engine's step is enabled exactly while BUSY = 1 (60_exceptions.md R172);
a turn of the idle engine changes nothing (DESIGN CHOICE, notes/assumptions/17.md). -/
def takeTurn (t : Turn) (s : State) : Host.Outcome State Fault Refusal :=
  match t with
  | .host => hostStep s
  | .engine => if s.busy then engineStep s else .next s
  | .hwReset => .next s.blockReset
  | .busMaster a b => .next (s.busMasterStore a b)

/-- The turn taken when the schedule names none: the engine's while BUSY = 1, so that every completion comes after
finitely many other steps (70_reset_and_hazards.md R200), else the host's (DESIGN CHOICE, notes/assumptions/5.md). -/
def defaultTurn (s : State) : Turn := if s.busy then .engine else .host

/-- One step of the machine: the schedule's next turn, or the default turn. -/
def machineStep (s : State) : Host.Outcome State Fault Refusal :=
  match s.schedule with
  | [] => takeTurn (defaultTurn s) s
  | t :: rest => takeTurn t { s with schedule := rest }

/-- The state in which the very next step completes the command of an opcode-table word: the word is launched
(60_exceptions.md R160) and the engine moves next (DESIGN CHOICE, notes/assumptions/6.md). -/
def State.launchNow (w : Word) (s : State) : State := { s.launch w with schedule := [] }

end Sys2Proof.Machine
end

