-- ==== Sys2Proof/Machine/Step.lean ====
section
/-! DEFINITION. Machine/Step.lean: one step of the whole machine, and the placing of a command word where the next step
runs it. -/

namespace Sys2Proof.Machine

/-- One step of one agent (60_exceptions.md R172). -/
def step (s : State) : Host.Outcome State Fault Refusal := machineStep s

/-- `s` with the command word of an opcode-table row launched, so that the very next step is its completion step. The
machine fetches no instructions (10_state.md R21): the launch is the host's CMD write. -/
def State.withFetchWord (s : State) (nbits w : Nat) : State := s.launchNow (tableWord nbits w)

end Sys2Proof.Machine
end

