-- ==== Sys2Proof/Machine/Assembler.lean ====
section
/-! DEFINITION. Machine/Assembler.lean: the assembler syntax of a host program and its expansion into bus accesses
(30_encoding.md R86 to R89). A text is a list of characters. -/

namespace Sys2Proof.Machine

/-- The named operands of the command mnemonics (30_encoding.md R86). -/
inductive Operand where
  | d | cin | c | cout | k | pad | bs | os | inp | w | bias | out | scra | scrb
deriving DecidableEq, Repr

/-- The register an operand sets (30_encoding.md R86). -/
def Operand.reg (o : Operand) : Reg :=
  match o with
  | .d => .dim
  | .cin => .cin
  | .c => .cin
  | .cout => .cout
  | .k => .ksize
  | .pad => .pad
  | .bs => .biasShift
  | .os => .outShift
  | .inp => .inAddr
  | .w => .wAddr
  | .bias => .biasAddr
  | .out => .outAddr
  | .scra => .scraAddr
  | .scrb => .scrbAddr

/-- The width of the operand's field: 16 bits for dimensions, 8 for shifts, 32 for addresses (30_encoding.md R86). -/
def Operand.bits (o : Operand) : Nat :=
  match o with
  | .d | .cin | .c | .cout | .k | .pad => 16
  | .bs | .os => 8
  | .inp | .w | .bias | .out | .scra | .scrb => 32

/-- The operand's name in the text (30_encoding.md R86). -/
def Operand.name (o : Operand) : List Char :=
  match o with
  | .d => ['d']
  | .cin => ['c', 'i', 'n']
  | .c => ['c']
  | .cout => ['c', 'o', 'u', 't']
  | .k => ['k']
  | .pad => ['p', 'a', 'd']
  | .bs => ['b', 's']
  | .os => ['o', 's']
  | .inp => ['i', 'n']
  | .w => ['w']
  | .bias => ['b', 'i', 'a', 's']
  | .out => ['o', 'u', 't']
  | .scra => ['s', 'c', 'r', 'a']
  | .scrb => ['s', 'c', 'r', 'b']

/-- The operands a mnemonic takes, all required, in ascending register offset order (30_encoding.md R86, R88). -/
def operandsOf (i : Instr) : List Operand :=
  match i with
  | .conv2d => [.d, .cin, .cout, .k, .pad, .bs, .os, .inp, .w, .bias, .out, .scra, .scrb]
  | .dwconv => [.d, .c, .k, .pad, .os, .inp, .w, .out, .scra]
  | .pwconv => [.d, .cin, .cout, .bs, .os, .inp, .w, .bias, .out, .scra]
  | .pwconvFast => [.d, .cin, .cout, .bs, .os, .inp, .w, .bias, .out, .scra]
  | .avgpool2x2 => [.d, .c, .inp, .out]

/-- The mnemonic in the text (30_encoding.md R81). -/
def mnemonicText (i : Instr) : List Char :=
  match i with
  | .conv2d => ['c', 'o', 'n', 'v', '2', 'd']
  | .dwconv => ['d', 'w', 'c', 'o', 'n', 'v']
  | .pwconv => ['p', 'w', 'c', 'o', 'n', 'v']
  | .pwconvFast => ['p', 'w', 'c', 'o', 'n', 'v', '.', 'f', 'a', 's', 't']
  | .avgpool2x2 => ['a', 'v', 'g', 'p', 'o', 'o', 'l', '2', 'x', '2']

/-- What the assembler refuses (30_encoding.md R86). -/
inductive AsmError where
  /-- a required operand is missing -/
  | missingOperand (o : Operand)
  /-- an operand the mnemonic does not take -/
  | unexpectedOperand (o : Operand)
  /-- a name that is no operand -/
  | unknownOperand (name : List Char)
  /-- a value that does not fit its field -/
  | valueTooWide (o : Operand) (v : Nat)
  /-- an operand given twice (DESIGN CHOICE, notes/assumptions/14.md) -/
  | repeatedOperand (o : Operand)
  /-- byte stores that run past the top of memory -/
  | bytesPastTop
  /-- a word that is no mnemonic -/
  | unknownMnemonic (name : List Char)
  /-- a word that is no register -/
  | unknownRegister (name : List Char)
  /-- a text that is none of the forms of its statement -/
  | badText (text : List Char)
deriving DecidableEq, Repr

/-- One statement of a host program (30_encoding.md R86, R87). -/
inductive Stmt where
  | wr (r : Reg) (v : Word)
  | rd (r : Reg)
  | poll (r : Reg) (mask v : Word)
  /-- `poll STATUS, 0x1, 0x0` -/
  | wait
  /-- `wr CMD, w` with the command word of the mnemonic -/
  | launch (i : Instr)
  | memB (a : Word) (bytes : List Byte)
  /-- a statement about memory after the program, not an access -/
  | expectB (a : Word) (bytes : List Byte)
  /-- a command mnemonic with its named operands -/
  | command (i : Instr) (ops : List (Operand × Nat))
deriving DecidableEq, Repr

/-- The first operand the assembler refuses, in text order (30_encoding.md R86). -/
def operandError (i : Instr) : List (Operand × Nat) → Option AsmError
  | [] => none
  | (o, v) :: rest =>
    if !(operandsOf i).contains o then some (.unexpectedOperand o)
    else if 2 ^ o.bits ≤ v then some (.valueTooWide o v)
    else if rest.any (fun q => q.1 == o) then some (.repeatedOperand o)
    else operandError i rest

/-- One register write per operand of the list, each looked up by name (30_encoding.md R88). -/
def operandWrites (ops : List (Operand × Nat)) : List Operand → Except AsmError (List HostOp)
  | [] => .ok []
  | o :: rest =>
    match ops.find? (fun q => q.1 == o) with
    | none => .error (.missingOperand o)
    | some q =>
      match operandWrites ops rest with
      | .ok l => .ok (HostOp.wr o.reg (BitVec.ofNat 32 q.2) :: l)
      | .error e => .error e

/-- The expansion of a command mnemonic: its register writes in ascending offset order, then the launch
(30_encoding.md R88). -/
def assembleCommand (i : Instr) (ops : List (Operand × Nat)) : Except AsmError (List HostOp) :=
  match operandError i ops with
  | some e => .error e
  | none =>
    match operandWrites ops (operandsOf i) with
    | .ok l => .ok (l ++ [HostOp.wr .cmd (encode i)])
    | .error e => .error e

/-- The byte stores of `mem.b` (30_encoding.md R87). -/
def byteStores : Nat → List Byte → List HostOp
  | _, [] => []
  | a, b :: rest => HostOp.storeByte (BitVec.ofNat 32 a) b :: byteStores (a + 1) rest

/-- The bus accesses of one statement (30_encoding.md R87, R89). A `mem.b` is accepted anywhere in a program, also after its
last launch, and its stores stand at its place in program order (DESIGN CHOICE, notes/assumptions/14.md). -/
def assembleStmt (st : Stmt) : Except AsmError (List HostOp) :=
  match st with
  | .wr r v => .ok [.wr r v]
  | .rd r => .ok [.rd r]
  | .poll r mask v => .ok [.poll r mask v]
  | .wait => .ok [.poll .status 1#32 0#32]
  | .launch i => .ok [.wr .cmd (encode i)]
  | .memB a bytes => if a.toNat + bytes.length ≤ 2 ^ 32 then .ok (byteStores a.toNat bytes) else .error .bytesPastTop
  | .expectB _ _ => .ok []
  | .command i ops => assembleCommand i ops

/-- The bus accesses of a program, in order (30_encoding.md R89). -/
def assemble : List Stmt → Except AsmError (List HostOp)
  | [] => .ok []
  | st :: rest =>
    match assembleStmt st, assemble rest with
    | .ok l, .ok m => .ok (l ++ m)
    | .error e, _ => .error e
    | .ok _, .error e => .error e

/-- The bytes listed at an address are what memory holds there. A list that runs past the top of memory compares those
addresses with what an unlisted address reads as, while `mem.b` refuses it (DESIGN CHOICE, notes/assumptions/14.md). -/
def bytesHold (m : Memory) : Nat → List Byte → Bool
  | _, [] => true
  | a, b :: rest => m.read a == b && bytesHold m (a + 1) rest

/-- Every `expect.b` of the program holds of memory (30_encoding.md R87). -/
def expectationsHold (m : Memory) (sts : List Stmt) : Bool :=
  sts.all fun st =>
    match st with
    | .expectB a bytes => bytesHold m a.toNat bytes
    | _ => true

/-- The `(offset, value)` pairs of a program's register writes (30_encoding.md R89). -/
def writePairs : List HostOp → List (BitVec 8 × Word)
  | [] => []
  | .wr r v :: rest => (r.offset, v) :: writePairs rest
  | _ :: rest => writePairs rest

/-- Splits a text at every separator. -/
def splitAt (sep : Char) : List Char → List (List Char)
  | [] => [[]]
  | c :: rest =>
    if c = sep then [] :: splitAt sep rest
    else
      match splitAt sep rest with
      | [] => [[c]]
      | h :: t => (c :: h) :: t

/-- Drops the spaces at both ends of a text. The space character is the only white space: a tab or a carriage return is
refused with its line (DESIGN CHOICE, notes/assumptions/14.md). -/
def trimSpaces (l : List Char) : List Char :=
  ((l.dropWhile (fun c => c == ' ')).reverse.dropWhile (fun c => c == ' ')).reverse

/-- The value of a digit below the base. -/
def digitValue (base : Nat) (c : Char) : Option Nat :=
  let n := c.toNat
  let v := if 48 ≤ n ∧ n ≤ 57 then n - 48
    else if 97 ≤ n ∧ n ≤ 102 then n - 87
    else if 65 ≤ n ∧ n ≤ 70 then n - 55
    else base
  if v < base then some v else none

/-- The number a digit string writes, on top of what is read so far. -/
def digitsValue (base : Nat) : List Char → Nat → Option Nat
  | [], acc => some acc
  | c :: rest, acc =>
    match digitValue base c with
    | some v => digitsValue base rest (acc * base + v)
    | none => none

/-- A number, decimal or `0x` hexadecimal (30_encoding.md R86). -/
def parseNumber (l : List Char) : Option Nat :=
  match l with
  | [] => none
  | '0' :: 'x' :: rest => if rest = [] then none else digitsValue 16 rest 0
  | l => digitsValue 10 l 0

/-- The operand of a name. -/
def operandOfName (l : List Char) : Option Operand :=
  [Operand.d, .cin, .c, .cout, .k, .pad, .bs, .os, .inp, .w, .bias, .out, .scra, .scrb].find? (fun o => o.name == l)

/-- One `name=number` of a command line (30_encoding.md R86). -/
def parseOperand (l : List Char) : Except AsmError (Operand × Nat) :=
  match splitAt '=' l with
  | [name, value] =>
    match operandOfName (trimSpaces name), parseNumber (trimSpaces value) with
    | some o, some v => .ok (o, v)
    | none, _ => .error (.unknownOperand (trimSpaces name))
    | some _, none => .error (.badText l)
  | _ => .error (.badText l)

/-- The operands of a command line, separated by commas (30_encoding.md R86). -/
def parseOperands : List (List Char) → Except AsmError (List (Operand × Nat))
  | [] => .ok []
  | l :: rest =>
    match parseOperand l, parseOperands rest with
    | .ok o, .ok os => .ok (o :: os)
    | .error e, _ => .error e
    | .ok _, .error e => .error e

/-- A command line: mnemonic, a space, the operands (30_encoding.md R86). -/
def parseCommand (line : List Char) : Except AsmError Stmt :=
  let text := trimSpaces line
  let name := text.takeWhile (fun c => c != ' ')
  match [Instr.conv2d, .dwconv, .pwconv, .pwconvFast, .avgpool2x2].find? (fun i => mnemonicText i == name) with
  | none => .error (.unknownMnemonic name)
  | some i =>
    match parseOperands (splitAt ',' (text.drop name.length)) with
    | .ok os => .ok (.command i os)
    | .error e => .error e

/-- The register's name in the text (10_state.md R22, 30_encoding.md R87). -/
def registerText (r : Reg) : List Char :=
  match r with
  | .id => ['I', 'D']
  | .ctrl => ['C', 'T', 'R', 'L']
  | .status => ['S', 'T', 'A', 'T', 'U', 'S']
  | .cmd => ['C', 'M', 'D']
  | .errCode => ['E', 'R', 'R', '_', 'C', 'O', 'D', 'E']
  | .errInfo => ['E', 'R', 'R', '_', 'I', 'N', 'F', 'O']
  | .dim => ['D', 'I', 'M']
  | .cin => ['C', 'I', 'N']
  | .cout => ['C', 'O', 'U', 'T']
  | .ksize => ['K', 'S', 'I', 'Z', 'E']
  | .pad => ['P', 'A', 'D']
  | .biasShift => ['B', 'I', 'A', 'S', '_', 'S', 'H', 'I', 'F', 'T']
  | .outShift => ['O', 'U', 'T', '_', 'S', 'H', 'I', 'F', 'T']
  | .inAddr => ['I', 'N', '_', 'A', 'D', 'D', 'R']
  | .wAddr => ['W', '_', 'A', 'D', 'D', 'R']
  | .biasAddr => ['B', 'I', 'A', 'S', '_', 'A', 'D', 'D', 'R']
  | .outAddr => ['O', 'U', 'T', '_', 'A', 'D', 'D', 'R']
  | .scraAddr => ['S', 'C', 'R', 'A', '_', 'A', 'D', 'D', 'R']
  | .scrbAddr => ['S', 'C', 'R', 'B', '_', 'A', 'D', 'D', 'R']

/-- The register of a name. -/
def regOfName (l : List Char) : Option Reg :=
  [Reg.id, .ctrl, .status, .cmd, .errCode, .errInfo, .dim, .cin, .cout, .ksize, .pad, .biasShift,
    .outShift, .inAddr, .wAddr, .biasAddr, .outAddr, .scraAddr, .scrbAddr].find? (fun r => registerText r == l)

/-- A register name. -/
def parseReg (l : List Char) : Except AsmError Reg :=
  match regOfName l with
  | some r => .ok r
  | none => .error (.unknownRegister l)

/-- A number of at most 32 bits. -/
def parseWord (l : List Char) : Except AsmError Word :=
  match parseNumber l with
  | some n => if n < 2 ^ 32 then .ok (BitVec.ofNat 32 n) else .error (.badText l)
  | none => .error (.badText l)

/-- A byte: a number up to 255, or a negative decimal down to -128 (95_test_vectors.md writes tensor bytes so). -/
def parseByte (l : List Char) : Except AsmError Byte :=
  match l with
  | '-' :: rest =>
    match digitsValue 10 rest 0 with
    | some n => if rest ≠ [] ∧ n ≤ 128 then .ok (BitVec.ofInt 8 (-(n : Int))) else .error (.badText l)
    | none => .error (.badText l)
  | l =>
    match parseNumber l with
    | some n => if n < 256 then .ok (BitVec.ofNat 8 n) else .error (.badText l)
    | none => .error (.badText l)

/-- The bytes of `mem.b` or `expect.b` (30_encoding.md R87). -/
def parseBytes : List (List Char) → Except AsmError (List Byte)
  | [] => .ok []
  | l :: rest =>
    match parseByte l, parseBytes rest with
    | .ok b, .ok bs => .ok (b :: bs)
    | .error e, _ => .error e
    | .ok _, .error e => .error e

/-- The address and the bytes of `mem.b` or `expect.b`. An address without a byte is accepted and stands for no access and
no claim (DESIGN CHOICE, notes/assumptions/14.md). -/
def parseAddrBytes (args : List (List Char)) : Except AsmError (Word × List Byte) :=
  match args with
  | [] => .error (.badText [])
  | a :: rest =>
    match parseWord a, parseBytes rest with
    | .ok a, .ok bs => .ok (a, bs)
    | .error e, _ => .error e
    | .ok _, .error e => .error e

/-- One host pseudo-operation, by its name and its arguments; none where the name is not one (30_encoding.md R87). -/
def parsePseudo (name : List Char) (args : List (List Char)) : Option (Except AsmError Stmt) :=
  if name = ['w', 'r'] then
    some (match args with
      | [r, v] => do return .wr (← parseReg r) (← parseWord v)
      | _ => .error (.badText name))
  else if name = ['r', 'd'] then
    some (match args with
      | [r] => do return .rd (← parseReg r)
      | _ => .error (.badText name))
  else if name = ['p', 'o', 'l', 'l'] then
    some (match args with
      | [r, m, v] => do return .poll (← parseReg r) (← parseWord m) (← parseWord v)
      | _ => .error (.badText name))
  else if name = ['w', 'a', 'i', 't'] then
    some (if args = [[]] then .ok .wait else .error (.badText name))
  else if name = ['l', 'a', 'u', 'n', 'c', 'h'] then
    some (match args with
      | [m] =>
        match [Instr.conv2d, .dwconv, .pwconv, .pwconvFast, .avgpool2x2].find? (fun i => mnemonicText i == m) with
        | some i => .ok (.launch i)
        | none => .error (.unknownMnemonic m)
      | _ => .error (.badText name))
  else if name = ['m', 'e', 'm', '.', 'b'] then
    some (do let p ← parseAddrBytes args; return .memB p.1 p.2)
  else if name = ['e', 'x', 'p', 'e', 'c', 't', '.', 'b'] then
    some (do let p ← parseAddrBytes args; return .expectB p.1 p.2)
  else none

/-- One line: what stands after `;` is a comment; an empty line is no statement; else a host pseudo-operation or a command
mnemonic (30_encoding.md R86, R87). -/
def parseLine (line : List Char) : Except AsmError (List Stmt) :=
  let text := trimSpaces (line.takeWhile (fun c => c != ';'))
  if text = [] then .ok []
  else
    let name := text.takeWhile (fun c => c != ' ')
    match parsePseudo name ((splitAt ',' (text.drop name.length)).map trimSpaces) with
    | some (.ok st) => .ok [st]
    | some (.error e) => .error e
    | none =>
      match parseCommand text with
      | .ok st => .ok [st]
      | .error e => .error e

/-- The statements of a program's lines, in order. -/
def parseLines : List (List Char) → Except AsmError (List Stmt)
  | [] => .ok []
  | l :: rest =>
    match parseLine l, parseLines rest with
    | .ok a, .ok b => .ok (a ++ b)
    | .error e, _ => .error e
    | .ok _, .error e => .error e

/-- The text of a host program (30_encoding.md R86 to R89). -/
def parseProgram (text : List Char) : Except AsmError (List Stmt) := parseLines (splitAt '\n' text)

end Sys2Proof.Machine
end

