-- ==== Sys2Proof/Machine/Lanes.lean ====
section
/-! DEFINITION. Machine/Lanes.lean: the packed-lane helpers (40_fixed_point.md R108). They describe the datapath; no
result depends on them (40_fixed_point.md R100). -/

namespace Sys2Proof.Machine

/-- Byte lane `i` of a 32-bit word, bits `8i+7 .. 8i`. -/
def byteLane (w : Word) (i : Nat) : Byte := w.extractLsb' (8 * i) 8

/-- Halfword lane `i` of a 32-bit word, bits `16i+15 .. 16i`. -/
def halfLane (w : Word) (i : Nat) : Half := w.extractLsb' (16 * i) 16

/-- A word of four byte lanes, lane 0 in the low bits. -/
def packBytes (f : Nat → Byte) : Word := f 3 ++ f 2 ++ f 1 ++ f 0

/-- A word of two halfword lanes, lane 0 in the low bits. -/
def packHalves (f : Nat → Half) : Word := f 1 ++ f 0

/-- `widen_bytes_to_halfwords`: lanes 0 and 1 in the first word, 2 and 3 in the second. -/
def widenBytesToHalfwords (w : Word) : Word × Word :=
  (packHalves fun i => widen (byteLane w i), packHalves fun i => widen (byteLane w (i + 2)))

/-- `packed_multiply_accumulate4` on the four 16-bit lanes of two pairs of words. -/
def packedMultiplyAccumulate4 (acc : Int) (x y : Word × Word) : Int :=
  wrap32 (acc + (halfLane x.1 0).toInt * (halfLane y.1 0).toInt + (halfLane x.1 1).toInt * (halfLane y.1 1).toInt
    + (halfLane x.2 0).toInt * (halfLane y.2 0).toInt + (halfLane x.2 1).toInt * (halfLane y.2 1).toInt)

/-- `sat_L`: clamps to the signed range of `l` bits. -/
def satTo (l : Nat) (v : Int) : Int := min (2 ^ (l - 1) - 1) (max (-(2 ^ (l - 1))) v)

/-- `packed_add_saturating` on four byte lanes. -/
def packedAddSaturating8 (u v : Word) : Word :=
  packBytes fun i => BitVec.ofInt 8 (satTo 8 ((byteLane u i).toInt + (byteLane v i).toInt))

/-- `packed_add_saturating` on two halfword lanes. -/
def packedAddSaturating16 (u v : Word) : Word :=
  packHalves fun i => BitVec.ofInt 16 (satTo 16 ((halfLane u i).toInt + (halfLane v i).toInt))

/-- `halving_add_round` on four byte lanes. -/
def halvingAddRound (poolRound : Bool) (u v : Word) : Word :=
  packBytes fun i => trunc8 (hadd poolRound (sext8 (byteLane u i)) (sext8 (byteLane v i)))

end Sys2Proof.Machine
end

