-- ==== Sys2Proof/Safety.lean ====
section
/-! DEFINITION. Safety.lean: the terms the statements use: the invariant of every state a run reaches, what a legal command
is, and what a completion changes and leaves. -/

namespace Sys2Proof.Machine

/-- What holds at reset and is kept by every step. -/
structure State.Inv (s : State) : Prop where
  /-- memory is in its canonical form (20_memory.md R50) -/
  memWf : s.mem.wf
  /-- a command is pending exactly while BUSY (10_state.md R46, 60_exceptions.md R160, R167) -/
  phase : s.busy = s.pending.isSome
  /-- while BUSY the launch's cleared flags stay clear (60_exceptions.md R160) -/
  busyClear : s.busy = true → s.done = false ∧ s.err = false ∧ s.accOvf = false ∧ s.errCode = 0#4 ∧ s.errInfo = 0#32
  /-- error codes 10 to 15 are never produced (60_exceptions.md R161) -/
  codeLegal : s.errCode.toNat ≤ 9
  /-- STATUS.ERR is set only with an error code other than NONE (10_state.md R25) -/
  errHasCode : s.err = true → s.errCode ≠ 0#4
  /-- with code NONE, ERR_INFO is 0 (60_exceptions.md R166) -/
  infoOfNone : s.errCode = 0#4 → s.errInfo = 0#32
  /-- only a running, faulted command can be spoiled -/
  spoiledFaulted : s.spoiled = true → s.busy = true ∧ s.faulted = true
  /-- a running command with a used region outside normal memory is spoiled (20_memory.md R57) -/
  abnormalSpoiled : regionsNotNormal s.params s.liveRegions = true → s.spoiled = true

/-- The registers meet every predicate of the command's constraint table (41_conv2d.md R120, 42_depthwise.md R130,
43_pointwise.md R140, R143, 44_avgpool.md R150). -/
abbrev ParamsLegal (i : Instr) (c : CfgRegs) : Prop :=
  match i with
  | .conv2d => (2 ≤ c.d ∧ c.d % 2 = 0) ∧ (2 ≤ c.ci ∧ c.ci % 2 = 0) ∧ (2 ≤ c.co ∧ c.co % 2 = 0)
      ∧ (1 ≤ c.k ∧ c.k % 2 = 1) ∧ c.p = (c.k - 1) / 2 ∧ c.bs ≤ 31 ∧ c.os ≤ 31
  | .dwconv => 1 ≤ c.d ∧ 1 ≤ c.ci ∧ (1 ≤ c.k ∧ c.k % 2 = 1) ∧ c.p = (c.k - 1) / 2 ∧ c.os ≤ 31
  | .pwconv => 1 ≤ c.d ∧ 1 ≤ c.ci ∧ 1 ≤ c.co ∧ c.bs ≤ 31 ∧ c.os ≤ 31
  | .pwconvFast => 1 ≤ c.d ∧ (4 ≤ c.ci ∧ c.ci % 4 = 0) ∧ (2 ≤ c.co ∧ c.co % 2 = 0) ∧ c.bs ≤ 31 ∧ c.os ≤ 31
  | .avgpool2x2 => (2 ≤ c.d ∧ c.d % 2 = 0) ∧ (4 ≤ c.ci ∧ c.ci % 4 = 0)

/-- No used region runs past the top of memory (20_memory.md R56). -/
abbrev RegionsFit (i : Instr) (c : CfgRegs) : Prop := ∀ r ∈ usedRegions i c, r.base + r.len ≤ 2 ^ 32

/-- Halfword regions start at even addresses (20_memory.md R55). -/
abbrev RegionsAligned (i : Instr) (c : CfgRegs) : Prop :=
  ∀ r ∈ usedRegions i c, halfwordRegion i r.id = true → r.base % 2 = 0

/-- Two used regions that may not share a byte, in ascending id order, do share one (20_memory.md R59,
60_exceptions.md R164). -/
abbrev RegionsClash (r q : Region) : Prop :=
  r.id.number < q.id.number ∧ (r.id.isWritten = true ∨ q.id.isWritten = true)
    ∧ r.base < q.base + q.len ∧ q.base < r.base + r.len

/-- A written region shares no byte with another used region (20_memory.md R59). -/
abbrev RegionsDisjoint (i : Instr) (c : CfgRegs) : Prop :=
  ∀ r ∈ usedRegions i c, ∀ q ∈ usedRegions i c, ¬ RegionsClash r q

/-- The memory system answers every access to the used regions (60_exceptions.md R165). -/
abbrev BusAnswers (i : Instr) (s : State) : Prop :=
  ∀ r ∈ usedRegions i s.cfg, ∀ a ∈ List.range' r.base r.len, byteFails s.params r.id a = false

/-- The command in `s` passes every check of 60_exceptions.md R162, and no race or abnormal memory makes its results
unspecified (20_memory.md R57, R72). -/
abbrev RunsNormally (i : Instr) (s : State) : Prop :=
  ParamsLegal i s.cfg ∧ RegionsFit i s.cfg ∧ RegionsAligned i s.cfg ∧ RegionsDisjoint i s.cfg ∧ BusAnswers i s
    ∧ s.spoiled = false

/-- The address is a byte of a region the command writes: OUT, SCRA or SCRB (20_memory.md R58). -/
abbrev WrittenByte (i : Instr) (c : CfgRegs) (a : Nat) : Prop :=
  ∃ r ∈ usedRegions i c, r.id.isWritten = true ∧ r.base ≤ a ∧ a < r.base + r.len

/-- The completion flags and registers (60_exceptions.md R167). -/
abbrev Completed (code : BitVec 4) (info : Word) (ovf : Bool) (t : State) : Prop :=
  t.busy = false ∧ t.done = true ∧ t.err = decide (code ≠ 0#4) ∧ t.accOvf = ovf ∧ t.errCode = code ∧ t.errInfo = info
    ∧ t.pending = none ∧ t.spoiled = false

/-- What no completion changes: the configuration registers, CTRL, WR_BUSY, the host-fault mark, the host's side, the
parameters and the schedule. -/
abbrev SameBesidesCompletion (s t : State) : Prop :=
  t.cfg = s.cfg ∧ t.ctrlIrqEn = s.ctrlIrqEn ∧ t.wrBusy = s.wrBusy ∧ t.faulted = s.faulted ∧ t.hostT = s.hostT
    ∧ t.hostBusErr = s.hostBusErr ∧ t.program = s.program ∧ t.schedule = s.schedule ∧ t.params = s.params

/-- The state after a completion with one of the error codes 1 to 8: only STATUS, ERR_CODE and ERR_INFO change, and the
command is no longer pending (60_exceptions.md R167, R168). -/
def ErrorCompletion (code : BitVec 4) (info : Word) (s : State) : State :=
  { s with
    busy := false, done := true, err := true, accOvf := false, errCode := code, errInfo := info, pending := none
    spoiled := false }

/-- The zero-padded input `X(r, c, ch)` of 40_fixed_point.md R105, read from memory `m`. -/
def exactInput (m : Memory) (c : CfgRegs) (cx : Nat) (row col : Int) (ch : Nat) : Int :=
  if 0 ≤ row ∧ row < c.d ∧ 0 ≤ col ∧ col < c.d then
    (m.read (c.inAddr.toNat + ((row * c.d + col) * cx + ch).toNat)).toInt
  else 0

/-- The bias term of 40_fixed_point.md R107, read from memory `m`. -/
def exactBias (m : Memory) (c : CfgRegs) (co : Nat) : Int :=
  (m.read (c.biasAddr.toNat + co)).toInt * 2 ^ c.bs

/-- The exact accumulator of CONV2D's output element `(y, x, co)` (41_conv2d.md R121). -/
def exactConv2d (m : Memory) (c : CfgRegs) (y x co : Nat) : Int :=
  exactBias m c co + ∑ ky ∈ Finset.range c.k, ∑ kx ∈ Finset.range c.k, ∑ ci ∈ Finset.range c.ci,
    exactInput m c c.ci (y + ky - c.p) (x + kx - c.p) ci
      * (m.read (c.wAddr.toNat + (((ky * c.k + kx) * c.ci + ci) * c.co + co))).toInt

/-- The exact accumulator of DWCONV's output element `(y, x, ch)` (42_depthwise.md R131). -/
def exactDwconv (m : Memory) (c : CfgRegs) (y x ch : Nat) : Int :=
  ∑ ky ∈ Finset.range c.k, ∑ kx ∈ Finset.range c.k,
    exactInput m c c.ci (y + ky - c.p) (x + kx - c.p) ch
      * (m.read (c.wAddr.toNat + ((ky * c.k + kx) * c.ci + ch))).toInt

/-- The exact accumulator of a pointwise output element: pixel `p`, output channel `co`, weight element `(ci, co)` at byte
offset `order ci co` of W (43_pointwise.md R141, R145). -/
def exactPointwise (m : Memory) (c : CfgRegs) (order : Nat → Nat → Nat) (p co : Nat) : Int :=
  exactBias m c co + ∑ ci ∈ Finset.range c.ci,
    (m.read (c.inAddr.toNat + (p * c.ci + ci))).toInt * (m.read (c.wAddr.toNat + order ci co)).toInt

/-- The pooled value of output element `(oy, ox, ch)` (44_avgpool.md R151). -/
def exactPool (m : Memory) (c : CfgRegs) (poolRound : Bool) (oy ox ch : Nat) : Int :=
  hadd poolRound
    (hadd poolRound (m.read (c.inAddr.toNat + ((2 * oy * c.d + 2 * ox) * c.ci + ch))).toInt
      (m.read (c.inAddr.toNat + ((2 * oy * c.d + (2 * ox + 1)) * c.ci + ch))).toInt)
    (hadd poolRound (m.read (c.inAddr.toNat + (((2 * oy + 1) * c.d + 2 * ox) * c.ci + ch))).toInt
      (m.read (c.inAddr.toNat + (((2 * oy + 1) * c.d + (2 * ox + 1)) * c.ci + ch))).toInt)

/-- The products of CONV2D's output element `(y, x, co)`, one for each tap and input channel (41_conv2d.md R121). -/
def conv2dProducts (m : Memory) (c : CfgRegs) (y x co : Nat) : List Int :=
  (List.range c.k).flatMap fun ky : Nat => (List.range c.k).flatMap fun kx : Nat => (List.range c.ci).map fun ci : Nat =>
    exactInput m c c.ci (y + ky - c.p) (x + kx - c.p) ci
      * (m.read (c.wAddr.toNat + (((ky * c.k + kx) * c.ci + ci) * c.co + co))).toInt

/-- The products of DWCONV's output element `(y, x, ch)`, one for each tap (42_depthwise.md R131). -/
def dwconvProducts (m : Memory) (c : CfgRegs) (y x ch : Nat) : List Int :=
  (List.range c.k).flatMap fun ky : Nat => (List.range c.k).map fun kx : Nat =>
    exactInput m c c.ci (y + ky - c.p) (x + kx - c.p) ch
      * (m.read (c.wAddr.toNat + ((ky * c.k + kx) * c.ci + ch))).toInt

/-- The products of a pointwise output element, one for each input channel (43_pointwise.md R141, R145). -/
def pointwiseProducts (m : Memory) (c : CfgRegs) (order : Nat → Nat → Nat) (p co : Nat) : List Int :=
  (List.range c.ci).map fun ci =>
    (m.read (c.inAddr.toNat + (p * c.ci + ci))).toInt * (m.read (c.wAddr.toNat + order ci co)).toInt

/-- A 32-bit accumulator that starts at `init` and wraps at every addition (40_fixed_point.md R104). -/
def accumulate (init : Int) (terms : List Int) : Int := terms.foldl (fun acc v => wrap32 (acc + v)) (wrap32 init)

/-- A sum that leaves int32 (40_fixed_point.md R104). -/
abbrev OutsideInt32 (v : Int) : Prop := ¬ (-(2 ^ 31) ≤ v ∧ v ≤ 2 ^ 31 - 1)

/-- The registers a command reads hold the same values (10_state.md R45). -/
abbrev SameOperands (i : Instr) (c e : CfgRegs) : Prop :=
  match i with
  | .conv2d => c = e
  | .dwconv => c.dim = e.dim ∧ c.cin = e.cin ∧ c.ksize = e.ksize ∧ c.pad = e.pad ∧ c.outShift = e.outShift
      ∧ c.inAddr = e.inAddr ∧ c.wAddr = e.wAddr ∧ c.outAddr = e.outAddr ∧ c.scraAddr = e.scraAddr
  | .pwconv | .pwconvFast => c.dim = e.dim ∧ c.cin = e.cin ∧ c.cout = e.cout ∧ c.biasShift = e.biasShift
      ∧ c.outShift = e.outShift ∧ c.inAddr = e.inAddr ∧ c.wAddr = e.wAddr ∧ c.biasAddr = e.biasAddr
      ∧ c.outAddr = e.outAddr ∧ c.scraAddr = e.scraAddr
  | .avgpool2x2 => c.dim = e.dim ∧ c.cin = e.cin ∧ c.inAddr = e.inAddr ∧ c.outAddr = e.outAddr

/-- The configuration registers 0x18 to 0x48 (10_state.md R22). -/
def Reg.isConfig (r : Reg) : Bool :=
  match r with
  | .id | .ctrl | .status | .cmd | .errCode | .errInfo => false
  | _ => true

/-- The number of bits a configuration register implements (10_state.md R22). -/
def Reg.bitsUsed (r : Reg) : Nat :=
  match r with
  | .dim | .cin | .cout | .ksize | .pad => 16
  | .biasShift | .outShift => 8
  | _ => 32

/-- The block's registers and phase hold their reset values (10_state.md R44). -/
abbrev BlockAtReset (t : State) : Prop :=
  t.cfg = CfgRegs.reset ∧ t.ctrlIrqEn = false ∧ t.busy = false ∧ t.done = false ∧ t.err = false ∧ t.accOvf = false
    ∧ t.wrBusy = false ∧ t.errCode = 0#4 ∧ t.errInfo = 0#32 ∧ t.pending = none ∧ t.irq = false

/-- The address is one of the 256 bytes of the register block (20_memory.md R51). -/
abbrev BlockAddress (p : Params) (a : Word) : Prop :=
  p.enginePage.toNat * 256 ≤ a.toNat ∧ a.toNat < p.enginePage.toNat * 256 + 256

/-- The address belongs to a device (20_memory.md R57). -/
abbrev DeviceAddress (p : Params) (a : Word) : Prop := ∃ r ∈ p.devices, r.base ≤ a.toNat ∧ a.toNat < r.base + r.len

/-- Memory `m'` is `m` with the byte `b` at `a`. -/
def StoresByte (m : Memory) (a : Word) (b : Byte) (m' : Memory) : Prop :=
  m'.read a.toNat = b ∧ ∀ n, n ≠ a.toNat → m'.read n = m.read n

/-- What a reset of `s` leaves of memory (70_reset_and_hazards.md R190, R192): all of it while IDLE or with an illegal word
pending, else every byte outside OUT, SCRA and SCRB, and every byte of IN, W and BIAS. -/
def AbortedMemory (s t : State) : Prop :=
  (s.busy = false → t.mem = s.mem) ∧
  (∀ (w : Word) (i : Instr), s.busy = true → s.pending = some w → decode w = .ok i →
    ∀ a, (¬ WrittenByte i s.cfg a ∨ ∃ r ∈ usedRegions i s.cfg, r.id.isWritten = false ∧ r.contains a = true) →
      t.mem.read a = s.mem.read a) ∧
  (∀ (w : Word) (e : DecodeError), s.pending = some w → decode w = .error e → t.mem = s.mem)

end Sys2Proof.Machine
end

