-- ==== Sys2Proof/Certificates/Slice0/Obligations.lean ====
section
/-! DEFINITION. Certificates/Slice0/Obligations.lean: the statements for the provers. Each docstring names the rules of
spec/ it comes from. -/

open Sys2Proof Sys2Proof.Machine

/-! ## Command words -/

/-- Every command's word decodes to that command (30_encoding.md R80, R81): no bit of an encoding is dropped. -/
def Obligations.EncodedCommandDecodesBack : Prop :=
  ∀ i : Instr, decode (encode i) = .ok i

/-- Decode is total: a word with a bit of [31:4] set is illegal, else its low four bits select (30_encoding.md R82). -/
def Obligations.DecodeFollowsTheOpcodeMap : Prop :=
  ∀ w : Word,
    (w.toNat / 16 ≠ 0 → ∃ e, decode w = .error e) ∧
    (w.toNat / 16 = 0 →
      if w.toNat % 16 = 1 then decode w = .ok .conv2d
      else if w.toNat % 16 = 2 then decode w = .ok .dwconv
      else if w.toNat % 16 = 3 then decode w = .ok .pwconv
      else if w.toNat % 16 = 4 then decode w = .ok .pwconvFast
      else if w.toNat % 16 = 5 then decode w = .ok .avgpool2x2
      else ∃ e, decode w = .error e)

/-- The words of the opcode map, written out, and three reserved ones (30_encoding.md R81, 95_test_vectors.md E-1 to
E-3). -/
def Obligations.TableWordsDecode : Prop :=
  decode 0x00000001#32 = .ok .conv2d ∧ decode 0x00000002#32 = .ok .dwconv ∧ decode 0x00000003#32 = .ok .pwconv ∧
    decode 0x00000004#32 = .ok .pwconvFast ∧ decode 0x00000005#32 = .ok .avgpool2x2 ∧
    decode 0x00000000#32 = .error .reservedOpcode ∧ decode 0x00000006#32 = .error .reservedOpcode ∧
    decode 0x00000011#32 = .error .reservedBits

/-! ## Steps of the machine -/

/-- A step of the engine is the meaning of the pending command, and for an illegal word it is the completion with
ILLEGAL_OP and the word: with no scheduled turn, or with the engine's turn next, which the step takes off the schedule
(30_encoding.md R83, 60_exceptions.md R167, R172). The order when no turn is scheduled is the model's
(notes/assumptions/5.md). -/
def Obligations.StepRunsTheDecodedCommand : Prop :=
  ∀ (s : State) (w : Word), s.busy = true → s.pending = some w →
    (∀ i : Instr, decode w = .ok i →
      (s.schedule = [] → step s = exec i s) ∧
      (∀ rest, s.schedule = .engine :: rest → step s = exec i { s with schedule := rest })) ∧
    (∀ e : DecodeError, decode w = .error e →
      (s.schedule = [] → step s = .next (ErrorCompletion 1#4 w s)) ∧
      (∀ rest, s.schedule = .engine :: rest → step s = .next (ErrorCompletion 1#4 w { s with schedule := rest })))

/-- A step on the host's turn is the host's next access (60_exceptions.md R172). With no scheduled turn it is the host's
while the engine is IDLE, the model's choice (notes/assumptions/5.md). -/
def Obligations.StepRunsTheHostsNextAccess : Prop :=
  ∀ (s : State) (op : HostOp) (ops : List HostOp), s.program = op :: ops →
    (s.schedule = [] → s.busy = false → step s = hostAccess op ops s) ∧
    (∀ rest, s.schedule = .host :: rest → step s = hostAccess op ops { s with schedule := rest })

/-- A placed table word is completed by the very next step. That the placing is a launch is the model's reading of
10_state.md R21 (notes/assumptions/6.md). -/
def Obligations.PlacedWordRunsNext : Prop :=
  ∀ (s : State) (i : Instr),
    step (s.withFetchWord 32 (encode i).toNat) = exec i (s.withFetchWord 32 (encode i).toNat)

/-- An illegal word is a launch, and completes with ILLEGAL_OP and the word, memory untouched (30_encoding.md R83). -/
def Obligations.IllegalWordLaunchesAndFails : Prop :=
  ∀ (s : State) (w : Word) (ops : List HostOp) (rest : List Turn),
    (w.toNat / 16 ≠ 0 ∨ w.toNat % 16 = 0 ∨ 6 ≤ w.toNat % 16) → s.busy = false → s.program = .wr .cmd w :: ops →
    s.schedule = .host :: .engine :: rest →
    ∃ u t, step s = .next u ∧ u.busy = true ∧ u.pending = some w ∧ u.mem = s.mem ∧
      step u = .next t ∧ Completed 1#4 w false t ∧ t.mem = s.mem ∧ t.cfg = s.cfg ∧ t.ctrlIrqEn = s.ctrlIrqEn ∧
      t.wrBusy = s.wrBusy ∧ t.faulted = s.faulted ∧ t.program = ops ∧ t.schedule = rest ∧ t.params = s.params ∧
      t.hostT = s.hostT

/-! ## The commands' results -/

/-- CONV2D completes with the result of its rule: OUT, SCRB, ACC_OVF, the completion flags, and everything else unchanged
(41_conv2d.md R121, 20_memory.md R62, 60_exceptions.md R167). Scratch A is unconstrained. -/
def Obligations.Conv2dCompletesWithItsResult : Prop :=
  ∀ s : State, RunsNormally .conv2d s →
    ∃ t, exec .conv2d s = .next t ∧ SameBesidesCompletion s t ∧ Completed 0#4 0#32 t.accOvf t ∧
      (t.accOvf = true ↔ ∃ y x co, y < s.cfg.d ∧ x < s.cfg.d ∧ co < s.cfg.co ∧
        OutsideInt32 (exactConv2d s.mem s.cfg y x co + rnd s.params.accRound s.cfg.os)) ∧
      (∀ y x co, y < s.cfg.d → x < s.cfg.d → co < s.cfg.co →
        t.mem.read (s.cfg.outAddr.toNat + ((y * s.cfg.d + x) * s.cfg.co + co)) =
          BitVec.ofInt 8 (requant s.params.accRound (exactConv2d s.mem s.cfg y x co) s.cfg.os)) ∧
      (∀ n, n < s.cfg.k * s.cfg.k * s.cfg.ci * s.cfg.co →
        t.mem.readHalf (s.cfg.scrbAddr.toNat + 2 * n) = (s.mem.read (s.cfg.wAddr.toNat + n)).signExtend 16) ∧
      (∀ a, ¬ WrittenByte .conv2d s.cfg a → t.mem.read a = s.mem.read a)

/-- DWCONV completes with the result of its rule (42_depthwise.md R131, 60_exceptions.md R167). Scratch A is
unconstrained. -/
def Obligations.DwconvCompletesWithItsResult : Prop :=
  ∀ s : State, RunsNormally .dwconv s →
    ∃ t, exec .dwconv s = .next t ∧ SameBesidesCompletion s t ∧ Completed 0#4 0#32 t.accOvf t ∧
      (t.accOvf = true ↔ ∃ y x ch, y < s.cfg.d ∧ x < s.cfg.d ∧ ch < s.cfg.ci ∧
        OutsideInt32 (exactDwconv s.mem s.cfg y x ch + rnd s.params.accRound s.cfg.os)) ∧
      (∀ y x ch, y < s.cfg.d → x < s.cfg.d → ch < s.cfg.ci →
        t.mem.read (s.cfg.outAddr.toNat + ((y * s.cfg.d + x) * s.cfg.ci + ch)) =
          BitVec.ofInt 8 (requant s.params.accRound (exactDwconv s.mem s.cfg y x ch) s.cfg.os)) ∧
      (∀ a, ¬ WrittenByte .dwconv s.cfg a → t.mem.read a = s.mem.read a)

/-- PWCONV completes with the result of its rule (43_pointwise.md R141, 60_exceptions.md R167). Scratch A is
unconstrained. -/
def Obligations.PwconvCompletesWithItsResult : Prop :=
  ∀ s : State, RunsNormally .pwconv s →
    ∃ t, exec .pwconv s = .next t ∧ SameBesidesCompletion s t ∧ Completed 0#4 0#32 t.accOvf t ∧
      (t.accOvf = true ↔ ∃ p co, p < s.cfg.d * s.cfg.d ∧ co < s.cfg.co ∧
        OutsideInt32 (exactPointwise s.mem s.cfg (fun ci co => ci * s.cfg.co + co) p co
          + rnd s.params.accRound s.cfg.os)) ∧
      (∀ p co, p < s.cfg.d * s.cfg.d → co < s.cfg.co →
        t.mem.read (s.cfg.outAddr.toNat + (p * s.cfg.co + co)) =
          BitVec.ofInt 8 (requant s.params.accRound
            (exactPointwise s.mem s.cfg (fun ci co => ci * s.cfg.co + co) p co) s.cfg.os)) ∧
      (∀ a, ¬ WrittenByte .pwconv s.cfg a → t.mem.read a = s.mem.read a)

/-- PWCONV_FAST completes with the result of its rule, its weights read through FAST_W_ORDER (43_pointwise.md R144, R145,
60_exceptions.md R167). Scratch A is unconstrained. -/
def Obligations.PwconvFastCompletesWithItsResult : Prop :=
  ∀ s : State, RunsNormally .pwconvFast s →
    ∃ t, exec .pwconvFast s = .next t ∧ SameBesidesCompletion s t ∧ Completed 0#4 0#32 t.accOvf t ∧
      (t.accOvf = true ↔ ∃ p co, p < s.cfg.d * s.cfg.d ∧ co < s.cfg.co ∧
        OutsideInt32 (exactPointwise s.mem s.cfg (fastOffset s.params s.cfg.ci s.cfg.co) p co
          + rnd s.params.accRound s.cfg.os)) ∧
      (∀ p co, p < s.cfg.d * s.cfg.d → co < s.cfg.co →
        t.mem.read (s.cfg.outAddr.toNat + (p * s.cfg.co + co)) =
          BitVec.ofInt 8 (requant s.params.accRound
            (exactPointwise s.mem s.cfg (fastOffset s.params s.cfg.ci s.cfg.co) p co) s.cfg.os)) ∧
      (∀ a, ¬ WrittenByte .pwconvFast s.cfg a → t.mem.read a = s.mem.read a)

/-- AVGPOOL2X2 completes with the cascaded halving adds of its rule, ACC_OVF 0 (44_avgpool.md R151,
60_exceptions.md R167). -/
def Obligations.AvgpoolCompletesWithItsResult : Prop :=
  ∀ s : State, RunsNormally .avgpool2x2 s →
    ∃ t, exec .avgpool2x2 s = .next t ∧ SameBesidesCompletion s t ∧ Completed 0#4 0#32 false t ∧
      (∀ oy ox ch, oy < s.cfg.d / 2 → ox < s.cfg.d / 2 → ch < s.cfg.ci →
        t.mem.read (s.cfg.outAddr.toNat + ((oy * (s.cfg.d / 2) + ox) * s.cfg.ci + ch)) =
          BitVec.ofInt 8 (exactPool s.mem s.cfg s.params.poolRound oy ox ch)) ∧
      (∀ a, ¬ WrittenByte .avgpool2x2 s.cfg a → t.mem.read a = s.mem.read a)

/-- PWCONV_FAST on reordered weights leaves what PWCONV leaves on the weights in natural order (43_pointwise.md R145). -/
def Obligations.FastPointwiseEqualsBasic : Prop :=
  ∀ (s : State) (m : Memory), RunsNormally .pwconvFast s →
    (∀ ci co, ci < s.cfg.ci → co < s.cfg.co →
      m.read (s.cfg.wAddr.toNat + (ci * s.cfg.co + co)) =
        s.mem.read (s.cfg.wAddr.toNat + fastOffset s.params s.cfg.ci s.cfg.co ci co)) →
    (∀ a, ¬ (s.cfg.wAddr.toNat ≤ a ∧ a < s.cfg.wAddr.toNat + s.cfg.ci * s.cfg.co) → m.read a = s.mem.read a) →
    (∀ a, s.cfg.wAddr.toNat ≤ a → a < s.cfg.wAddr.toNat + s.cfg.ci * s.cfg.co →
      ¬ (s.cfg.inAddr.toNat ≤ a ∧ a < s.cfg.inAddr.toNat + s.cfg.d * s.cfg.d * s.cfg.ci) ∧
      ¬ (s.cfg.biasAddr.toNat ≤ a ∧ a < s.cfg.biasAddr.toNat + s.cfg.co)) →
    ∃ t u, exec .pwconvFast s = .next t ∧ exec .pwconv { s with mem := m } = .next u ∧ u.accOvf = t.accOvf ∧
      u.errCode = t.errCode ∧
      ∀ p co, p < s.cfg.d * s.cfg.d → co < s.cfg.co →
        u.mem.read (s.cfg.outAddr.toNat + (p * s.cfg.co + co)) = t.mem.read (s.cfg.outAddr.toNat + (p * s.cfg.co + co))

/-- Changing the weights of other channels leaves a depthwise output channel as it was (42_depthwise.md R132). -/
def Obligations.DepthwiseChannelsAreIndependent : Prop :=
  ∀ (s : State) (m : Memory) (ch : Nat), RunsNormally .dwconv s → ch < s.cfg.ci →
    (∀ a, m.read a ≠ s.mem.read a →
      ¬ (s.cfg.inAddr.toNat ≤ a ∧ a < s.cfg.inAddr.toNat + s.cfg.d * s.cfg.d * s.cfg.ci) ∧
      ∃ tap other, tap < s.cfg.k * s.cfg.k ∧ other < s.cfg.ci ∧ other ≠ ch ∧
        a = s.cfg.wAddr.toNat + (tap * s.cfg.ci + other)) →
    ∃ t u, exec .dwconv s = .next t ∧ exec .dwconv { s with mem := m } = .next u ∧
      ∀ y x, y < s.cfg.d → x < s.cfg.d →
        u.mem.read (s.cfg.outAddr.toNat + ((y * s.cfg.d + x) * s.cfg.ci + ch)) =
          t.mem.read (s.cfg.outAddr.toNat + ((y * s.cfg.d + x) * s.cfg.ci + ch))

/-- `rho_spec` is a bijection onto the weight bytes, with the inverse the rule gives and with `sigma = [0, 2, 1, 3]`
(43_pointwise.md R144). -/
def Obligations.FastWeightOrderHasItsInverse : Prop :=
  (fastSlot 0 = 0 ∧ fastSlot 1 = 2 ∧ fastSlot 2 = 1 ∧ fastSlot 3 = 3) ∧
  ∀ cin cout : Nat, cin % 4 = 0 → cout % 2 = 0 →
    (∀ ci co, ci < cin → co < cout →
      rhoSpec cin ci co < cin * cout ∧
      4 * (rhoSpec cin ci co / 8 % (cin / 4)) + fastSlot (rhoSpec cin ci co % 4) = ci ∧
      2 * (rhoSpec cin ci co / 8 / (cin / 4)) + rhoSpec cin ci co / 4 % 2 = co) ∧
    (∀ o, o < cin * cout →
      4 * (o / 8 % (cin / 4)) + fastSlot (o % 4) < cin ∧ 2 * (o / 8 / (cin / 4)) + o / 4 % 2 < cout ∧
      rhoSpec cin (4 * (o / 8 % (cin / 4)) + fastSlot (o % 4)) (2 * (o / 8 / (cin / 4)) + o / 4 % 2) = o)

/-- FAST_W_ORDER: distinct weights stand at distinct bytes of the W region, whatever rows the platform lists; it is
`rho_spec` for channel counts without a row, and the row where the first row for them is a bijection (00_scope.md R5,
43_pointwise.md R144). The list of rows is the model's form, and so is that a row which is no bijection is ignored
(notes/assumptions/4.md). -/
def Obligations.FastWeightOrderIsInjective : Prop :=
  ∀ (p : Params) (cin cout : Nat), cin % 4 = 0 → cout % 2 = 0 →
    (∀ ci co, ci < cin → co < cout → fastOffset p cin cout ci co < cin * cout) ∧
    (∀ ci co ci' co', ci < cin → co < cout → ci' < cin → co' < cout →
      fastOffset p cin cout ci co = fastOffset p cin cout ci' co' → ci = ci' ∧ co = co') ∧
    ((∀ r ∈ p.fastOrder, r.cin ≠ cin ∨ r.cout ≠ cout) →
      ∀ ci co, fastOffset p cin cout ci co = rhoSpec cin ci co) ∧
    (∀ r before after, p.fastOrder = before ++ r :: after → (∀ q ∈ before, q.cin ≠ cin ∨ q.cout ≠ cout) →
      r.cin = cin → r.cout = cout → r.wellFormed = true →
      ∀ ci co, ci < cin → co < cout → r.offsets[ci * cout + co]? = some (fastOffset p cin cout ci co))

/-! ## Checks and errors -/

/-- CONV2D reports the first register, by ascending offset, whose predicate fails; only the completion's own registers
change (41_conv2d.md R120). -/
def Obligations.Conv2dReportsTheFirstBadRegister : Prop :=
  ∀ s : State, ¬ ParamsLegal .conv2d s.cfg →
    exec .conv2d s = .next
      (if ¬ (2 ≤ s.cfg.d ∧ s.cfg.d % 2 = 0) then ErrorCompletion 2#4 0x18#32 s
      else if ¬ (2 ≤ s.cfg.ci ∧ s.cfg.ci % 2 = 0) then ErrorCompletion 3#4 0x1C#32 s
      else if ¬ (2 ≤ s.cfg.co ∧ s.cfg.co % 2 = 0) then ErrorCompletion 3#4 0x20#32 s
      else if ¬ (1 ≤ s.cfg.k ∧ s.cfg.k % 2 = 1) then ErrorCompletion 4#4 0x24#32 s
      else if s.cfg.p ≠ (s.cfg.k - 1) / 2 then ErrorCompletion 4#4 0x28#32 s
      else if 31 < s.cfg.bs then ErrorCompletion 5#4 0x2C#32 s
      else ErrorCompletion 5#4 0x30#32 s)

/-- DWCONV reports the first register, by ascending offset, whose predicate fails (42_depthwise.md R130). -/
def Obligations.DwconvReportsTheFirstBadRegister : Prop :=
  ∀ s : State, ¬ ParamsLegal .dwconv s.cfg →
    exec .dwconv s = .next
      (if s.cfg.d = 0 then ErrorCompletion 2#4 0x18#32 s
      else if s.cfg.ci = 0 then ErrorCompletion 3#4 0x1C#32 s
      else if ¬ (1 ≤ s.cfg.k ∧ s.cfg.k % 2 = 1) then ErrorCompletion 4#4 0x24#32 s
      else if s.cfg.p ≠ (s.cfg.k - 1) / 2 then ErrorCompletion 4#4 0x28#32 s
      else ErrorCompletion 5#4 0x30#32 s)

/-- PWCONV reports the first register, by ascending offset, whose predicate fails (43_pointwise.md R140). -/
def Obligations.PwconvReportsTheFirstBadRegister : Prop :=
  ∀ s : State, ¬ ParamsLegal .pwconv s.cfg →
    exec .pwconv s = .next
      (if s.cfg.d = 0 then ErrorCompletion 2#4 0x18#32 s
      else if s.cfg.ci = 0 then ErrorCompletion 3#4 0x1C#32 s
      else if s.cfg.co = 0 then ErrorCompletion 3#4 0x20#32 s
      else if 31 < s.cfg.bs then ErrorCompletion 5#4 0x2C#32 s
      else ErrorCompletion 5#4 0x30#32 s)

/-- PWCONV_FAST reports the first register, by ascending offset, whose predicate fails (43_pointwise.md R143). -/
def Obligations.PwconvFastReportsTheFirstBadRegister : Prop :=
  ∀ s : State, ¬ ParamsLegal .pwconvFast s.cfg →
    exec .pwconvFast s = .next
      (if s.cfg.d = 0 then ErrorCompletion 2#4 0x18#32 s
      else if ¬ (4 ≤ s.cfg.ci ∧ s.cfg.ci % 4 = 0) then ErrorCompletion 3#4 0x1C#32 s
      else if ¬ (2 ≤ s.cfg.co ∧ s.cfg.co % 2 = 0) then ErrorCompletion 3#4 0x20#32 s
      else if 31 < s.cfg.bs then ErrorCompletion 5#4 0x2C#32 s
      else ErrorCompletion 5#4 0x30#32 s)

/-- AVGPOOL2X2 reports the first register, by ascending offset, whose predicate fails (44_avgpool.md R150). -/
def Obligations.AvgpoolReportsTheFirstBadRegister : Prop :=
  ∀ s : State, ¬ ParamsLegal .avgpool2x2 s.cfg →
    exec .avgpool2x2 s = .next
      (if ¬ (2 ≤ s.cfg.d ∧ s.cfg.d % 2 = 0) then ErrorCompletion 2#4 0x18#32 s
      else ErrorCompletion 3#4 0x1C#32 s)

/-- BAD_ADDR reports the lowest region that runs past the top of memory (60_exceptions.md R164, R166). -/
def Obligations.WrappingRegionFails : Prop :=
  ∀ (i : Instr) (s : State) (r : Region), ParamsLegal i s.cfg → r ∈ usedRegions i s.cfg →
    2 ^ 32 < r.base + r.len →
    (∀ q ∈ usedRegions i s.cfg, q.id.number < r.id.number → q.base + q.len ≤ 2 ^ 32) →
    exec i s = .next (ErrorCompletion 6#4 (BitVec.ofNat 32 r.id.number) s)

/-- ALIGN, checked after BAD_ADDR, reports the lowest halfword region at an odd address
(60_exceptions.md R162, R164, R166). -/
def Obligations.OddHalfwordRegionFails : Prop :=
  ∀ (i : Instr) (s : State) (r : Region), ParamsLegal i s.cfg → RegionsFit i s.cfg → r ∈ usedRegions i s.cfg →
    halfwordRegion i r.id = true → r.base % 2 = 1 →
    (∀ q ∈ usedRegions i s.cfg, q.id.number < r.id.number → halfwordRegion i q.id = true → q.base % 2 = 0) →
    exec i s = .next (ErrorCompletion 7#4 (BitVec.ofNat 32 r.id.number) s)

/-- OVERLAP, checked after ALIGN, reports the first pair, in lexicographic order of ids, that shares a byte with one of
the two written (60_exceptions.md R162, R164, R166). -/
def Obligations.OverlappingRegionsFail : Prop :=
  ∀ (i : Instr) (s : State) (r q : Region), ParamsLegal i s.cfg → RegionsFit i s.cfg → RegionsAligned i s.cfg →
    r ∈ usedRegions i s.cfg → q ∈ usedRegions i s.cfg → RegionsClash r q →
    (∀ r' ∈ usedRegions i s.cfg, ∀ q' ∈ usedRegions i s.cfg, RegionsClash r' q' →
      r.id.number < r'.id.number ∨ (r.id.number = r'.id.number ∧ q.id.number ≤ q'.id.number)) →
    exec i s = .next (ErrorCompletion 8#4 (BitVec.ofNat 32 (r.id.number * 256 + q.id.number)) s)

/-- A command that passes the register checks ends with BUS_ERROR exactly when some byte of a used region fails. Then
ERR_INFO is a failing byte's address, and bytes outside OUT, SCRA and SCRB are unchanged (60_exceptions.md R165). -/
def Obligations.BusErrorReportsAFailingByte : Prop :=
  ∀ (i : Instr) (s : State), ParamsLegal i s.cfg → RegionsFit i s.cfg → RegionsAligned i s.cfg →
    RegionsDisjoint i s.cfg →
    (¬ BusAnswers i s → ∃ t r b, exec i s = .next t ∧ SameBesidesCompletion s t ∧
      Completed 9#4 (BitVec.ofNat 32 b) t.accOvf t ∧ r ∈ usedRegions i s.cfg ∧ r.base ≤ b ∧ b < r.base + r.len ∧
      byteFails s.params r.id b = true ∧ ∀ a, ¬ WrittenByte i s.cfg a → t.mem.read a = s.mem.read a) ∧
    (BusAnswers i s → ∃ t, exec i s = .next t ∧ t.errCode = 0#4 ∧ t.err = false)

/-- Errors 1 to 8 are precise: memory is exactly as at launch, and nothing but STATUS, ERR_CODE, ERR_INFO and the pending
command changes, for an illegal word's completion as for a command's (60_exceptions.md R168). -/
def Obligations.ErrorsBelowBusErrorArePrecise : Prop :=
  (∀ (s : State) (w : Word), completeIllegal w s = ErrorCompletion 1#4 w s) ∧
  ∀ (i : Instr) (s t : State), exec i s = .next t → 1 ≤ t.errCode.toNat → t.errCode.toNat ≤ 8 →
    t = ErrorCompletion t.errCode t.errInfo s

/-! ## Frames and whole-machine rules -/

/-- Memory outside OUT, SCRA and SCRB of its command is unchanged by every completion, and by the abort of a reset
(20_memory.md R60, 70_reset_and_hazards.md R192). -/
def Obligations.CommandsLeaveOtherMemory : Prop :=
  (∀ (i : Instr) (s t : State) (a : Nat), exec i s = .next t → ¬ WrittenByte i s.cfg a →
    t.mem.read a = s.mem.read a) ∧
  (∀ (i : Instr) (s : State) (w : Word) (a : Nat), s.busy = true → s.pending = some w → decode w = .ok i →
    ¬ WrittenByte i s.cfg a → s.blockReset.mem.read a = s.mem.read a)

/-- Every command completes from every state: a next state, BUSY and the pending command gone, DONE set, ERR exactly with
an error code, and nothing changed but the completion's registers and memory (60_exceptions.md R167). -/
def Obligations.EveryCommandCompletes : Prop :=
  ∀ (i : Instr) (s : State), ∃ t, exec i s = .next t ∧ SameBesidesCompletion s t ∧
    Completed t.errCode t.errInfo t.accOvf t ∧ t.errCode ≠ 1#4 ∧ t.errCode.toNat ≤ 9

/-- A register a command does not read has no effect on it (10_state.md R45). Values the spec leaves unspecified are not
compared: scratch A, all but the code after a BUS_ERROR, and every command that a race or abnormal memory spoils
(notes/assumptions/8.md). -/
def Obligations.UnreadRegistersHaveNoEffect : Prop :=
  ∀ (i : Instr) (s : State) (c : CfgRegs) (t : State), SameOperands i s.cfg c → s.spoiled = false →
    exec i s = .next t →
    ∃ u, exec i { s with cfg := c } = .next u ∧ u.errCode = t.errCode ∧
      (t.errCode ≠ 9#4 → u.errInfo = t.errInfo ∧ u.accOvf = t.accOvf ∧
        ∀ a, (∀ r ∈ usedRegions i s.cfg, r.id = .scra → ¬ (r.base ≤ a ∧ a < r.base + r.len)) →
          u.mem.read a = t.mem.read a)

/-- The invariant of the machine is kept by every step of every agent: memory in canonical form, a pending command exactly
while BUSY, the launch's cleared flags clear while BUSY, no reserved error code, ERR only with a code, ERR_INFO 0 without
one, a spoiled command only while BUSY and faulted, and spoiled while a used region of it meets the register block or a
device. The canonical form and the spoiled mark are the model's own
(notes/assumptions/1.md, notes/assumptions/8.md). -/
def Obligations.EveryStepKeepsTheInvariant : Prop :=
  ∀ s t : State, s.Inv → step s = .next t → t.Inv

/-- The invariant holds right after reset, whose values for the model's own fields notes/assumptions/2.md names. -/
def Obligations.ResetMeetsTheInvariant : Prop :=
  State.reset.Inv

/-- The host-fault mark is never cleared, not even by reset, and no step changes the platform's parameters
(10_state.md R38, 92_eei_decisions.md D38). That the parameters stand in the state is the model's form
(notes/assumptions/4.md). -/
def Obligations.FaultMarkIsNeverCleared : Prop :=
  ∀ s t : State, step s = .next t → (s.faulted = true → t.faulted = true) ∧ t.params = s.params

/-- BUSY falls only by completion, which sets DONE, or by reset (10_state.md R25). -/
def Obligations.BusyFallsOnlyByCompletionOrReset : Prop :=
  ∀ s t : State, s.busy = true → step s = .next t → t.busy = false →
    (t.done = true ∧ t.pending = none ∧ t.cfg = s.cfg) ∨ BlockAtReset t

/-- DONE, ERR and ACC_OVF rise only in the completion step of a command (10_state.md R25, R42). -/
def Obligations.CompletionFlagsRiseOnlyAtCompletion : Prop :=
  ∀ s t : State, step s = .next t →
    ((s.done = false ∧ t.done = true) ∨ (s.err = false ∧ t.err = true) ∨ (s.accOvf = false ∧ t.accOvf = true)) →
    s.busy = true ∧ t.busy = false ∧ t.done = true

/-- While a command runs, the configuration registers and the command word hold their launch-time values
(10_state.md R39). -/
def Obligations.ConfigurationHoldsWhileBusy : Prop :=
  ∀ s t : State, s.busy = true → step s = .next t → t.busy = true → t.cfg = s.cfg ∧ t.pending = s.pending

/-- A host that only reads and polls sees its command complete: after `n` turns of the host the engine's step comes
(70_reset_and_hazards.md R200). That a schedule of `n` host turns ends is the model's form of weak fairness
(notes/assumptions/5.md). -/
def Obligations.PollingHostSeesCompletion : Prop :=
  ∀ (n : Nat) (s : State) (w : Word), s.busy = true → s.pending = some w → s.errCode.toNat ≤ 9 →
    s.schedule = List.replicate n .host →
    (∀ op ∈ s.program, (∃ r, op = .rd r) ∨ ∃ r mask v, op = .poll r mask v) →
    ∃ t, Host.Core.run Sys2Proof.core (n + 1) s = .next t ∧ t.busy = false ∧ t.done = true

/-! ## Registers -/

/-- The block after reset: every register 0 but ID, phase IDLE, nothing pending, irq low (10_state.md R44). -/
def Obligations.ResetValuesAreTheSpecs : Prop :=
  BlockAtReset State.reset ∧ State.reset.regRead .id = 0x434E4E07#32 ∧
    ∀ r : Reg, r ≠ .id → State.reset.regRead r = 0#32

/-- A host write of a configuration register while IDLE stores the field's bits and changes nothing else
(10_state.md R22). -/
def Obligations.ConfigWriteStoresTheField : Prop :=
  ∀ (s : State) (r : Reg) (v : Word) (ops : List HostOp), r.isConfig = true → s.busy = false →
    ∃ c : CfgRegs, hostAccess (.wr r v) ops s = .next { s with cfg := c, program := ops, hostBusErr := false } ∧
      (State.regRead r { s with cfg := c }).toNat = v.toNat % 2 ^ r.bitsUsed ∧
      ∀ q : Reg, q ≠ r → State.regRead q { s with cfg := c } = s.regRead q

/-- A host write of a configuration register or CMD while BUSY is ignored and sets WR_BUSY; nothing else changes
(10_state.md R39). -/
def Obligations.WriteWhileBusyIsDropped : Prop :=
  ∀ (s : State) (r : Reg) (v : Word) (ops : List HostOp), (r.isConfig = true ∨ r = .cmd) → s.busy = true →
    hostAccess (.wr r v) ops s = .next { s with program := ops, wrBusy := true, hostBusErr := false }

/-- Launch: a CMD write while IDLE sets BUSY and the command word and clears DONE, ERR, ACC_OVF, ERR_CODE and ERR_INFO;
WR_BUSY, CTRL, the configuration and memory stay (60_exceptions.md R160). -/
def Obligations.CommandWriteLaunches : Prop :=
  ∀ (s : State) (w : Word) (ops : List HostOp), s.busy = false →
    ∃ t, hostAccess (.wr .cmd w) ops s = .next t ∧ t.busy = true ∧ t.done = false ∧ t.err = false ∧ t.accOvf = false ∧
      t.errCode = 0#4 ∧ t.errInfo = 0#32 ∧ t.pending = some w ∧ t.wrBusy = s.wrBusy ∧ t.ctrlIrqEn = s.ctrlIrqEn ∧
      t.cfg = s.cfg ∧ t.mem = s.mem ∧ t.program = ops ∧ t.params = s.params ∧ t.hostT = s.hostT ∧ t.hostBusErr = false ∧
      (s.faulted = true → t.faulted = true)

/-- A launch whose used regions overlap the register block or a device is marked faulted, and no other launch is
(20_memory.md R57). That devices are a list of address ranges is the model's form (notes/assumptions/4.md). -/
def Obligations.LaunchOutsideNormalMemoryIsFaulted : Prop :=
  ∀ (s : State) (w : Word) (i : Instr), decode w = .ok i → s.faulted = false →
    ((s.launch w).faulted = true ↔ ∃ r ∈ usedRegions i s.cfg, ∃ a, r.base ≤ a ∧ a < r.base + r.len ∧
      ((s.params.enginePage.toNat * 256 ≤ a ∧ a < s.params.enginePage.toNat * 256 + 256) ∨
        ∃ q ∈ s.params.devices, q.base ≤ a ∧ a < q.base + q.len))

/-- A CTRL write with SRST = 0 only writes IRQ_EN. One with SRST = 1 resets the block in its own step, whatever else it
held, and aborts a running command, which leaves every byte but those of its OUT, SCRA and SCRB, and its IN, W and BIAS
bytes in any case; with no command running, or an illegal word pending, memory is untouched (10_state.md R24,
70_reset_and_hazards.md R191, R192). That a byte of both a read and a written region is kept, and that the host's side and
the parameters are untouched, are the model's choices (notes/assumptions/9.md, notes/assumptions/15.md). -/
def Obligations.CtrlWriteEnablesOrResets : Prop :=
  ∀ (s : State) (v : Word) (ops : List HostOp),
    (v.toNat / 2 % 2 = 0 → hostAccess (.wr .ctrl v) ops s =
      .next { s with program := ops, ctrlIrqEn := decide (v.toNat % 2 = 1), hostBusErr := false }) ∧
    (v.toNat / 2 % 2 = 1 → ∃ t, hostAccess (.wr .ctrl v) ops s = .next t ∧ BlockAtReset t ∧
      t.faulted = s.faulted ∧ t.program = ops ∧ t.schedule = s.schedule ∧ t.params = s.params ∧ t.hostT = s.hostT ∧
      t.hostBusErr = false ∧ AbortedMemory s t)

/-- A STATUS write clears each of DONE, ERR, ACC_OVF and WR_BUSY whose bit is 1 and nothing else, in either phase
(10_state.md R25). -/
def Obligations.StatusWriteOneClears : Prop :=
  ∀ (s : State) (v : Word) (ops : List HostOp),
    hostAccess (.wr .status v) ops s = .next { s with
      program := ops
      hostBusErr := false
      done := s.done && decide (v.toNat / 2 % 2 = 0)
      err := s.err && decide (v.toNat / 4 % 2 = 0)
      accOvf := s.accOvf && decide (v.toNat / 8 % 2 = 0)
      wrBusy := s.wrBusy && decide (v.toNat / 16 % 2 = 0) }

/-- Writes of ID, ERR_CODE, ERR_INFO and the reserved offsets 0x4C to 0xFC are ignored in every phase; a reserved offset
reads 0 (10_state.md R23, R37, R39). That the bus answers a write of a read-only register without an error is the model's
reading (notes/assumptions/21.md). -/
def Obligations.ReadOnlyAndReservedIgnoreWrites : Prop :=
  ∀ (s : State) (v : Word) (ops : List HostOp),
    (∀ r : Reg, (r = .id ∨ r = .errCode ∨ r = .errInfo) →
      hostAccess (.wr r v) ops s = .next { s with program := ops, hostBusErr := false }) ∧
    (∀ off : BitVec 8, 0x4C ≤ off.toNat → off.toNat % 4 = 0 →
      hostAccess (.regStore off .word v) ops s = .next { s with program := ops, hostBusErr := false } ∧
      hostAccess (.regLoad off .word) ops s = .next { s with program := ops, hostT := 0#32, hostBusErr := false })

/-- A host access to the block that is not 32 bits wide or not 4-byte aligned gets an error response, changes no engine
state and marks the run faulted (10_state.md R38); so does a host byte store or load at an address of the block, which is
such an access by the model's reading (notes/assumptions/12.md). What an erring load leaves in `t` is not stated; the
counter of free values is the model's own (notes/assumptions/7.md). -/
def Obligations.BadRegisterAccessIsAHostFault : Prop :=
  (∀ (s : State) (off : BitVec 8) (width : AccessWidth) (v : Word) (ops : List HostOp),
    (width ≠ .word ∨ off.toNat % 4 ≠ 0) →
    hostAccess (.regStore off width v) ops s = .next { s with program := ops, faulted := true, hostBusErr := true } ∧
    ∃ x, hostAccess (.regLoad off width) ops s = .next
      { s with program := ops, faulted := true, hostBusErr := true, hostT := x, freeCount := s.freeCount + 1 }) ∧
  (∀ (s : State) (a : Word) (b : Byte) (ops : List HostOp), BlockAddress s.params a →
    hostAccess (.storeByte a b) ops s = .next { s with program := ops, faulted := true, hostBusErr := true } ∧
    ∃ x, hostAccess (.loadByte a) ops s = .next
      { s with program := ops, faulted := true, hostBusErr := true, hostT := x, freeCount := s.freeCount + 1 })

/-- A 32-bit host read of a register returns its value into `t` and changes nothing else. STATUS is BUSY, DONE, ERR,
ACC_OVF and WR_BUSY from bit 0 up, CTRL is IRQ_EN, CMD reads 0, ID reads its constant, and the others read their field
(10_state.md R22 to R36). -/
def Obligations.RegisterReadReturnsItsValue : Prop :=
  ∀ (s : State) (ops : List HostOp), s.errCode.toNat ≤ 9 →
    (∀ r : Reg, hostAccess (.rd r) ops s = .next { s with program := ops, hostT := s.regRead r, hostBusErr := false }) ∧
    s.regRead .id = 0x434E4E07#32 ∧ s.regRead .cmd = 0#32 ∧ (s.regRead .ctrl).toNat = s.ctrlIrqEn.toNat ∧
    (s.regRead .status).toNat =
      s.busy.toNat + 2 * s.done.toNat + 4 * s.err.toNat + 8 * s.accOvf.toNat + 16 * s.wrBusy.toNat ∧
    (s.regRead .errCode).toNat = s.errCode.toNat ∧ s.regRead .errInfo = s.errInfo ∧
    (s.regRead .dim).toNat = s.cfg.dim.toNat ∧ (s.regRead .cin).toNat = s.cfg.cin.toNat ∧
    (s.regRead .cout).toNat = s.cfg.cout.toNat ∧ (s.regRead .ksize).toNat = s.cfg.ksize.toNat ∧
    (s.regRead .pad).toNat = s.cfg.pad.toNat ∧ (s.regRead .biasShift).toNat = s.cfg.biasShift.toNat ∧
    (s.regRead .outShift).toNat = s.cfg.outShift.toNat ∧ s.regRead .inAddr = s.cfg.inAddr ∧
    s.regRead .wAddr = s.cfg.wAddr ∧ s.regRead .biasAddr = s.cfg.biasAddr ∧ s.regRead .outAddr = s.cfg.outAddr ∧
    s.regRead .scraAddr = s.cfg.scraAddr ∧ s.regRead .scrbAddr = s.cfg.scrbAddr

/-- A read of ERR_CODE that holds a code 10 to 15 is stuck, the model's form of 93_implementation_defined.md K-23
(notes/assumptions/10.md). -/
def Obligations.ReservedErrorCodeIsStuck : Prop :=
  ∀ (s : State) (ops : List HostOp), 10 ≤ s.errCode.toNat →
    hostAccess (.rd .errCode) ops s = .fault .reservedErrorCode

/-- A poll iteration loads the register into `t` and leaves the loop exactly when `(t AND mask) = v`
(30_encoding.md R87). -/
def Obligations.PollLoopsUntilTheValue : Prop :=
  ∀ (s : State) (r : Reg) (mask v : Word) (ops : List HostOp), s.errCode.toNat ≤ 9 →
    hostAccess (.poll r mask v) ops s = .next { s with
      hostT := s.regRead r
      hostBusErr := false
      program := if s.regRead r &&& mask = v then ops else s.program }

/-- `irq = IRQ_EN AND DONE`: it follows IRQ_EN from every completion, and falls with a launch, a write of 1 to STATUS bit
1, a reset, and IRQ_EN written 0 (60_exceptions.md R170). -/
def Obligations.InterruptFollowsEnableAndDone : Prop :=
  (∀ s : State, s.irq = true ↔ s.ctrlIrqEn = true ∧ s.done = true) ∧
  (∀ (i : Instr) (s t : State), exec i s = .next t → t.irq = s.ctrlIrqEn) ∧
  (∀ (s : State) (w : Word), (completeIllegal w s).irq = s.ctrlIrqEn ∧ (s.launch w).irq = false) ∧
  (∀ s : State, s.blockReset.irq = false) ∧
  (∀ (s t : State) (v : Word) (ops : List HostOp), v.toNat / 2 % 2 = 1 → hostAccess (.wr .status v) ops s = .next t →
    t.irq = false) ∧
  (∀ (s t : State) (v : Word) (ops : List HostOp), v.toNat % 4 = 0 → hostAccess (.wr .ctrl v) ops s = .next t →
    t.irq = false) ∧
  (∀ (s t : State) (v : Word) (ops : List HostOp), v.toNat % 4 = 1 → hostAccess (.wr .ctrl v) ops s = .next t →
    t.irq = s.done)

/-- Hardware reset: every register and the phase take their reset values, a running command is aborted and leaves every
byte but those of its OUT, SCRA and SCRB, and its IN, W and BIAS bytes in any case; with no command running, or an
illegal word pending, memory is untouched (70_reset_and_hazards.md R190, R192). That a byte of both a read and a written
region is kept, that the host's side is untouched and that reset is one step are the model's choices
(notes/assumptions/9.md, notes/assumptions/15.md). -/
def Obligations.HardwareResetAbortsAndClears : Prop :=
  ∀ (s : State) (rest : List Turn), s.schedule = .hwReset :: rest →
    ∃ t, step s = .next t ∧ BlockAtReset t ∧ t.faulted = s.faulted ∧ t.program = s.program ∧ t.schedule = rest ∧
      t.params = s.params ∧ t.hostT = s.hostT ∧ AbortedMemory s t

/-! ## Memory and races -/

/-- A byte read after a byte write, and the little-endian halfword (00_scope.md R8, 20_memory.md R52). -/
def Obligations.MemoryIsLittleEndian : Prop :=
  (∀ (m : Memory) (a b : Nat) (v : Byte), (m.write a v).read b = if b = a then v else m.read b) ∧
  (∀ (m : Memory) (a : Nat) (v : Half),
    (m.writeHalf a v).read a = v.setWidth 8 ∧ (m.writeHalf a v).read (a + 1) = (v >>> 8).setWidth 8 ∧
    (m.writeHalf a v).readHalf a = v ∧ ∀ b, b ≠ a → b ≠ a + 1 → (m.writeHalf a v).read b = m.read b)

/-- A byte access to memory outside the running command's regions: a host store changes that byte alone, a host load
returns it, and another master's store changes that byte alone (20_memory.md R50, R72, 30_encoding.md R87). Another master's
store to the register block outside those regions changes nothing (20_memory.md R51). The model's choices: a load zero-extends into `t`
(notes/assumptions/12.md), a host access to a device is refused and another master's store to one changes nothing of the
state (notes/assumptions/13.md), and `BUS_OK` does not bear on these accesses (notes/assumptions/23.md). -/
def Obligations.HostAccessesMemoryBytes : Prop :=
  (∀ (s : State) (a : Word) (b : Byte) (ops : List HostOp),
    ¬ BlockAddress s.params a → ¬ DeviceAddress s.params a → inRegions s.liveRegions a.toNat = false →
    (∃ m, hostAccess (.storeByte a b) ops s = .next { s with mem := m, program := ops, hostBusErr := false } ∧
      StoresByte s.mem a b m) ∧
    hostAccess (.loadByte a) ops s = .next
      { s with program := ops, hostT := (s.mem.read a.toNat).setWidth 32, hostBusErr := false } ∧
    (∀ rest, s.schedule = .busMaster a b :: rest →
      ∃ m, step s = .next { s with mem := m, schedule := rest } ∧ StoresByte s.mem a b m)) ∧
  (∀ (s : State) (a : Word) (b : Byte) (ops : List HostOp), ¬ BlockAddress s.params a → DeviceAddress s.params a →
    inRegions s.liveRegions a.toNat = false →
    hostAccess (.storeByte a b) ops s = .refused .deviceAccess ∧
    hostAccess (.loadByte a) ops s = .refused .deviceAccess) ∧
  (∀ (s : State) (a : Word) (b : Byte) (rest : List Turn), BlockAddress s.params a ∨ DeviceAddress s.params a →
    inRegions s.liveRegions a.toNat = false → s.schedule = .busMaster a b :: rest →
    step s = .next { s with schedule := rest })

/-- A race while BUSY, in normal memory and at a device: a host load from a used region returns some byte and changes nothing
but `t` and the counter of free values; a host or other-master store to one marks the launch faulted and its results
unspecified, and changes no register of the engine (20_memory.md R72). At the register block the launch was marked already,
and a host byte store leaves it marked; a host byte access there is the bus error of BadRegisterAccessIsAHostFault. That the
store itself lands in memory, at a device changes nothing, and changes no other byte, that the bus answers, that a load
zero-extends into `t`, and that `BUS_OK` does not bear on these accesses, are the model's choices (notes/assumptions/8.md,
notes/assumptions/12.md, notes/assumptions/13.md, notes/assumptions/23.md). -/
def Obligations.RacesAreMarked : Prop :=
  ∀ (s : State) (a : Word) (b : Byte) (ops : List HostOp) (rest : List Turn),
    inRegions s.liveRegions a.toNat = true →
    (¬ BlockAddress s.params a → ∃ x : Byte, hostAccess (.loadByte a) ops s = .next
      { s with program := ops, hostT := x.setWidth 32, hostBusErr := false, freeCount := s.freeCount + 1 }) ∧
    (¬ BlockAddress s.params a → ¬ DeviceAddress s.params a →
      (∃ m, hostAccess (.storeByte a b) ops s = .next
          { s with mem := m, program := ops, hostBusErr := false, faulted := true, spoiled := true } ∧
        StoresByte s.mem a b m) ∧
      (s.schedule = .busMaster a b :: rest →
        ∃ m, step s = .next { s with mem := m, schedule := rest, faulted := true, spoiled := true } ∧
          StoresByte s.mem a b m)) ∧
    (¬ BlockAddress s.params a → DeviceAddress s.params a →
      hostAccess (.storeByte a b) ops s =
        .next { s with program := ops, hostBusErr := false, faulted := true, spoiled := true }) ∧
    (BlockAddress s.params a ∨ DeviceAddress s.params a → s.schedule = .busMaster a b :: rest →
      step s = .next { s with schedule := rest, faulted := true, spoiled := true }) ∧
    (BlockAddress s.params a → s.Inv →
      s.faulted = true ∧ s.spoiled = true ∧
        ∃ t, hostAccess (.storeByte a b) ops s = .next t ∧ t.faulted = true ∧ t.spoiled = true)

/-! ## Arithmetic -/

/-- Requantisation: monotone inside int32, the identity on int8 at shift 0, clamped outside it, and a function of the
wrapped value (40_fixed_point.md R103, R109). -/
def Obligations.RequantisationLaws : Prop :=
  (∀ (ar : Bool) (e : Int) (os : Nat), requant ar e os =
    min 127 (max (-128) (Int.floor ((wrap32 (e + if ar then 2 ^ os / 2 else 0) : ℚ) / 2 ^ os)))) ∧
  (∀ (ar : Bool) (e e' : Int) (os : Nat), e ≤ e' → ¬ OutsideInt32 (e + rnd ar os) → ¬ OutsideInt32 (e' + rnd ar os) →
    requant ar e os ≤ requant ar e' os) ∧
  (∀ e : Int, -128 ≤ e → e ≤ 127 → requant false e 0 = e) ∧
  (∀ e : Int, 127 < e → e ≤ 2 ^ 31 - 1 → requant false e 0 = 127) ∧
  (∀ e : Int, -(2 ^ 31) ≤ e → e < -128 → requant false e 0 = -128) ∧
  (∀ (e : Int) (os : Nat), requant false e os = requant false (wrap32 e) os)

/-- The halving add on int8: the floor of half the sum plus POOL_ROUND, always in int8, commutative, the identity on equal
lanes, and with POOL_ROUND = 1 the ceiling of the mean (40_fixed_point.md R106, R109). -/
def Obligations.HalvingAddLaws : Prop :=
  ∀ (pr : Bool) (a b : Int), -128 ≤ a → a ≤ 127 → -128 ≤ b → b ≤ 127 →
    hadd pr a b = Int.floor ((a + b + pr.toNat : ℚ) / 2) ∧ -128 ≤ hadd pr a b ∧ hadd pr a b ≤ 127 ∧
      hadd pr a b = hadd pr b a ∧ hadd pr a a = a ∧ hadd true a b = Int.ceil ((a + b : ℚ) / 2)

/-- `wrap32` is the int32 value congruent modulo 2^32, so the accumulator's stored value does not depend on the order of
accumulation or on where partial sums wrap: adding an element's products in any order to its bias term (0 for DWCONV),
wrapping at every addition, leaves `wrap32` of its exact accumulator, for each convolution, and adding the rounding constant then leaves
`wrap32` of the whole (00_scope.md R7, 40_fixed_point.md R100, R104). -/
def Obligations.AccumulationOrderIsNotObservable : Prop :=
  (∀ v : Int, -(2 ^ 31) ≤ wrap32 v ∧ wrap32 v ≤ 2 ^ 31 - 1 ∧ wrap32 v % 2 ^ 32 = v % 2 ^ 32) ∧
  (∀ (s : State) (y x co : Nat) (terms : List Int), terms.Perm (conv2dProducts s.mem s.cfg y x co) →
    accumulate (exactBias s.mem s.cfg co) terms = wrap32 (conv2dAcc s y x co)) ∧
  (∀ (s : State) (y x ch : Nat) (terms : List Int), terms.Perm (dwconvProducts s.mem s.cfg y x ch) →
    accumulate 0 terms = wrap32 (dwconvAcc s y x ch)) ∧
  (∀ (s : State) (order : Nat → Nat → Nat) (p co : Nat) (terms : List Int),
    terms.Perm (pointwiseProducts s.mem s.cfg order p co) →
    accumulate (exactBias s.mem s.cfg co) terms = wrap32 (pointwiseAcc s order p co)) ∧
  (∀ (ar : Bool) (e : Int) (os : Nat), wrap32 (wrap32 e + rnd ar os) = wrap32 (e + rnd ar os))

/-- The packed-lane helpers compute lane by lane: lane `i` is bits `8i+7..8i` of a word of bytes and `16i+15..16i` of a word
of halfwords, widening puts bytes 0 and 1 into the first word and 2 and 3 into the second, the multiply-accumulate takes
any four pairs of 16-bit lanes, and the adds are the scalar ones (40_fixed_point.md R108). -/
def Obligations.PackedLanesMatchScalars : Prop :=
  (∀ (u : Word) (n : Nat), n < 4 → (byteLane u n).toNat = u.toNat / 2 ^ (8 * n) % 2 ^ 8) ∧
  (∀ (u : Word) (n : Nat), n < 2 → (halfLane u n).toNat = u.toNat / 2 ^ (16 * n) % 2 ^ 16) ∧
  (∀ (pr : Bool) (u v : Word) (n : Nat), n < 4 →
    (byteLane (halvingAddRound pr u v) n).toInt = hadd pr (byteLane u n).toInt (byteLane v n).toInt) ∧
  (∀ (u v : Word) (n : Nat), n < 4 → (byteLane (packedAddSaturating8 u v) n).toInt =
    min 127 (max (-128) ((byteLane u n).toInt + (byteLane v n).toInt))) ∧
  (∀ (u v : Word) (n : Nat), n < 2 → (halfLane (packedAddSaturating16 u v) n).toInt =
    min 32767 (max (-32768) ((halfLane u n).toInt + (halfLane v n).toInt))) ∧
  (∀ (u : Word) (n : Nat), n < 2 →
    (halfLane (widenBytesToHalfwords u).1 n).toInt = (byteLane u n).toInt ∧
    (halfLane (widenBytesToHalfwords u).2 n).toInt = (byteLane u (n + 2)).toInt) ∧
  (∀ (acc : Int) (x y : Word × Word), packedMultiplyAccumulate4 acc x y =
    wrap32 (acc + ∑ n ∈ Finset.range 2, (halfLane x.1 n).toInt * (halfLane y.1 n).toInt
      + ∑ n ∈ Finset.range 2, (halfLane x.2 n).toInt * (halfLane y.2 n).toInt))

/-! ## The assembler -/

/-- A command mnemonic, its operands in any order, expands to one write per operand in ascending register offset order and
then the launch (30_encoding.md R88). -/
def Obligations.MnemonicExpandsToItsWrites : Prop :=
  ∀ (i : Instr) (f : Operand → Nat) (ops : List (Operand × Nat)),
    ops.Perm ((operandsOf i).map fun o => (o, f o)) → (∀ o ∈ operandsOf i, f o < 2 ^ o.bits) →
    assembleCommand i ops =
      .ok ((operandsOf i).map (fun o => HostOp.wr o.reg (BitVec.ofNat 32 (f o))) ++ [.wr .cmd (encode i)]) ∧
    ((operandsOf i).map fun o => o.reg.offset.toNat).Pairwise (· < ·)

/-- The assembler refuses a missing operand, an operand the mnemonic does not take and a value that does not fit its field
(30_encoding.md R86). -/
def Obligations.AssemblerRefusesBadOperands : Prop :=
  ∀ (i : Instr) (ops : List (Operand × Nat)),
    ((∃ o ∈ operandsOf i, ∀ q ∈ ops, q.1 ≠ o) ∨ (∃ q ∈ ops, q.1 ∉ operandsOf i) ∨ (∃ q ∈ ops, 2 ^ q.1.bits ≤ q.2)) →
    ∃ e, assembleCommand i ops = .error e

/-- Running an expanded mnemonic from IDLE sets exactly its registers and launches its command
(30_encoding.md R88, 60_exceptions.md R160). That the host takes every turn while IDLE is the model's choice for an empty
schedule (notes/assumptions/5.md). -/
def Obligations.ExpandedMnemonicLaunchesItsCommand : Prop :=
  ∀ (s : State) (i : Instr) (f : Operand → Nat) (ops : List HostOp), s.busy = false → s.schedule = [] →
    (∀ o ∈ operandsOf i, f o < 2 ^ o.bits) →
    s.program = (operandsOf i).map (fun o => HostOp.wr o.reg (BitVec.ofNat 32 (f o))) ++ .wr .cmd (encode i) :: ops →
    ∃ t, Host.Core.run Sys2Proof.core ((operandsOf i).length + 1) s = .next t ∧ t.busy = true ∧
      t.pending = some (encode i) ∧ t.program = ops ∧ t.mem = s.mem ∧ t.wrBusy = s.wrBusy ∧
      (∀ o ∈ operandsOf i, (t.regRead o.reg).toNat = f o) ∧
      (∀ r : Reg, r.isConfig = true → (∀ o ∈ operandsOf i, o.reg ≠ r) → t.regRead r = s.regRead r)
end

