-- ==== Sys2Proof/Laws/FixedPoint.lean ====
section
/-! SUPPORT. Laws/FixedPoint.lean: the small laws of the shared arithmetic (40_fixed_point.md R109). -/

namespace Sys2Proof.Machine

theorem sumTo_eq_sum (n : Nat) (f : Nat → Int) : sumTo n f = ∑ k ∈ Finset.range n, f k := by
  induction n with
  | zero => rfl
  | succ n ih => rw [sumTo, ih, Finset.sum_range_succ]

theorem anyBelow_iff (n : Nat) (f : Nat → Bool) : anyBelow n f = true ↔ ∃ k, k < n ∧ f k = true := by
  induction n with
  | zero => simp [anyBelow]
  | succ n ih =>
    rw [anyBelow, Bool.or_eq_true, ih]
    constructor
    · rintro (⟨k, hk, h⟩ | h)
      · exact ⟨k, by omega, h⟩
      · exact ⟨n, by omega, h⟩
    · rintro ⟨k, hk, h⟩
      by_cases hkn : k = n
      · exact .inr (hkn ▸ h)
      · exact .inl ⟨k, by omega, h⟩

theorem overflows_iff (ar : Bool) (e : Int) (os : Nat) :
    overflows ar e os = true ↔ ¬ (-(2 ^ 31) ≤ e + rnd ar os ∧ e + rnd ar os ≤ 2 ^ 31 - 1) := by
  simp only [overflows, Bool.not_eq_true', Bool.and_eq_false_iff, decide_eq_false_iff_not, not_and_or]
  norm_num

theorem sat8_range (v : Int) : -128 ≤ sat8 v ∧ sat8 v ≤ 127 := by
  unfold sat8
  omega

/-- A value in int8 survives the byte store. -/
theorem sext8_trunc8 {v : Int} (h : -128 ≤ v ∧ v ≤ 127) : sext8 (trunc8 v) = v := by
  unfold sext8 trunc8
  rw [BitVec.toInt_ofInt]
  simp only [Int.bmod]
  norm_num
  omega

theorem wrap32_of_int32 {v : Int} (h : -(2 ^ 31) ≤ v ∧ v ≤ 2 ^ 31 - 1) : wrap32 v = v := by
  unfold wrap32
  rw [BitVec.toInt_ofInt]
  simp only [Int.bmod]
  norm_num at h ⊢
  omega

/-- The wrap of a sum does not depend on where the partial sums wrap (40_fixed_point.md R100, R104). -/
theorem wrap32_add_wrap32 (a b : Int) : wrap32 (wrap32 a + b) = wrap32 (a + b) := by
  unfold wrap32
  simp only [BitVec.toInt_ofInt]
  exact Int.bmod_add_bmod

theorem sext8_range (b : Byte) : -128 ≤ sext8 b ∧ sext8 b ≤ 127 := by
  unfold sext8
  have h1 := b.toInt_lt
  have h2 := b.le_toInt
  norm_num at h1 h2
  omega

theorem hadd_range {pr : Bool} {a b : Int} (ha : -128 ≤ a ∧ a ≤ 127) (hb : -128 ≤ b ∧ b ≤ 127) :
    -128 ≤ hadd pr a b ∧ hadd pr a b ≤ 127 := by
  unfold hadd asr poolConst
  cases pr <;> norm_num <;> omega

/-- Widening a weight loses nothing (20_memory.md R62). -/
theorem widen_toInt (b : Byte) : (widen b).toInt = sext8 b := by
  unfold widen
  have h := sext8_range b
  rw [BitVec.toInt_ofInt]
  simp only [Int.bmod]
  norm_num
  omega

end Sys2Proof.Machine
end

