-- ==== Sys2Proof/Laws/Memory.lean ====
section
/-! SUPPORT. Laws/Memory.lean: what a memory operation can do, and that each keeps the canonical form. -/

namespace Sys2Proof.Machine

@[simp] theorem Memory.read_nil (a : Nat) : Memory.read [] a = Memory.unlisted := rfl

theorem Memory.read_cons (c : Host.Cell) (m : Memory) (a : Nat) :
    Memory.read (c :: m) a = if a = c.1 then c.2 else Memory.read m a := rfl

theorem Memory.read_filter_same (m : Memory) (a : Nat) :
    Memory.read (m.filter fun c => c.1 != a) a = Memory.unlisted := by
  induction m with
  | nil => rfl
  | cons c m ih =>
    by_cases h : c.1 = a
    · simpa [List.filter_cons, h] using ih
    · have h' : a ≠ c.1 := fun e => h e.symm
      simpa [List.filter_cons, h, Memory.read_cons, h'] using ih

theorem Memory.read_filter_ne (m : Memory) {a b : Nat} (hab : b ≠ a) :
    Memory.read (m.filter fun c => c.1 != a) b = Memory.read m b := by
  induction m with
  | nil => rfl
  | cons c m ih =>
    by_cases h : c.1 = a
    · have hb : b ≠ c.1 := fun e => hab (e.trans h)
      simpa [List.filter_cons, h, Memory.read_cons, hb, hab] using ih
    · by_cases hb : b = c.1 <;> simp [h, Memory.read_cons, hb] at ih ⊢
      exact ih

theorem Memory.read_insertCell_same (m : Memory) (a : Nat) (v : Byte) (h : ∀ c ∈ m, c.1 ≠ a) :
    Memory.read (Memory.insertCell m a v) a = v := by
  induction m with
  | nil => simp [Memory.insertCell, Memory.read_cons]
  | cons c m ih =>
    have hc : a ≠ c.1 := fun e => h c (by simp) e.symm
    have ih' := ih fun d hd => h d (by simp [hd])
    by_cases hlt : a < c.1 <;> simp [Memory.insertCell, hlt, Memory.read_cons, hc, ih']

theorem Memory.read_insertCell_ne (m : Memory) {a b : Nat} (v : Byte) (hab : b ≠ a) :
    Memory.read (Memory.insertCell m a v) b = Memory.read m b := by
  induction m with
  | nil => simp [Memory.insertCell, Memory.read_cons, hab]
  | cons c m ih =>
    by_cases hlt : a < c.1 <;> simp [Memory.insertCell, hlt, Memory.read_cons, hab, ih]

/-- A read after a write: the byte written at that address, every other byte as before. -/
theorem Memory.read_write (m : Memory) (a b : Nat) (v : Byte) :
    (m.write a v).read b = if b = a then v else m.read b := by
  unfold Memory.write
  by_cases hab : b = a
  · subst hab
    by_cases hv : v = Memory.unlisted
    · simp [hv, Memory.read_filter_same]
    · rw [if_neg hv, if_pos rfl, Memory.read_insertCell_same]
      intro c hc
      simpa using (List.mem_filter.mp hc).2
  · by_cases hv : v = Memory.unlisted
    · simp [hv, hab, Memory.read_filter_ne m hab]
    · simp [hv, hab, Memory.read_insertCell_ne _ v hab, Memory.read_filter_ne m hab]

@[simp] theorem Memory.read_write_same (m : Memory) (a : Nat) (v : Byte) : (m.write a v).read a = v := by
  simp [Memory.read_write]

theorem Memory.read_write_ne (m : Memory) {a b : Nat} (v : Byte) (h : b ≠ a) : (m.write a v).read b = m.read b := by
  simp [Memory.read_write, h]

theorem Memory.mem_insertCell (m : Memory) (a : Nat) (v : Byte) (c : Host.Cell)
    (h : c ∈ Memory.insertCell m a v) : c = (a, v) ∨ c ∈ m := by
  induction m with
  | nil => simpa [Memory.insertCell] using h
  | cons d m ih =>
    by_cases hlt : a < d.1
    · simpa [Memory.insertCell, hlt] using h
    · simp only [Memory.insertCell, hlt, if_false, List.mem_cons] at h
      rcases h with h | h
      · exact .inr (by simp [h])
      · rcases ih h with h | h
        · exact .inl h
        · exact .inr (by simp [h])

theorem Memory.pairwise_insertCell (m : Memory) (a : Nat) (v : Byte) (hne : ∀ c ∈ m, c.1 ≠ a)
    (h : m.Pairwise fun c d => c.1 < d.1) : (Memory.insertCell m a v).Pairwise fun c d => c.1 < d.1 := by
  induction m with
  | nil => simp [Memory.insertCell]
  | cons d m ih =>
    obtain ⟨hd, hm⟩ := List.pairwise_cons.mp h
    by_cases hlt : a < d.1
    · simp only [Memory.insertCell, hlt, if_true]
      refine List.pairwise_cons.mpr ⟨?_, h⟩
      intro c hc
      rcases List.mem_cons.mp hc with rfl | hc
      · exact hlt
      · exact lt_trans hlt (hd c hc)
    · simp only [Memory.insertCell, hlt, if_false]
      refine List.pairwise_cons.mpr ⟨?_, ih (fun c hc => hne c (by simp [hc])) hm⟩
      intro c hc
      rcases Memory.mem_insertCell m a v c hc with rfl | hc
      · have := hne d (by simp)
        simp only
        omega
      · exact hd c hc

/-- A write inside the 32-bit space keeps the canonical form. -/
theorem Memory.wf_write {m : Memory} (h : m.wf) {a : Nat} (ha : a < 2 ^ 32) (v : Byte) : (m.write a v).wf := by
  obtain ⟨hp, hc⟩ := h
  have hp' := hp.filter (fun c => c.1 != a)
  have hc' : ∀ c ∈ m.filter (fun c => c.1 != a), c.1 < 2 ^ 32 ∧ c.2 ≠ Memory.unlisted :=
    fun c hm => hc c (List.mem_filter.mp hm).1
  unfold Memory.write
  by_cases hv : v = Memory.unlisted
  · simp only [hv, if_true]
    exact ⟨hp', hc'⟩
  · simp only [hv, if_false]
    refine ⟨Memory.pairwise_insertCell _ a v (fun c hm => by simpa using (List.mem_filter.mp hm).2) hp', ?_⟩
    intro c hm
    rcases Memory.mem_insertCell _ a v c hm with rfl | hm
    · exact ⟨ha, hv⟩
    · exact hc' c hm

/-- A fill changes exactly the bytes `base .. base+n-1`. -/
theorem Memory.read_fill (m : Memory) (base n : Nat) (f : Nat → Byte) (a : Nat) :
    (m.fill base n f).read a = if base ≤ a ∧ a < base + n then f (a - base) else m.read a := by
  induction n with
  | zero =>
    simp [Memory.fill]
  | succ n ih =>
    rw [Memory.fill, Memory.read_write, ih]
    by_cases h : a = base + n
    · subst h
      simp
    · by_cases h2 : base ≤ a ∧ a < base + n
      · have h3 : base ≤ a ∧ a < base + (n + 1) := by omega
        simp [h, h2, h3]
      · have h3 : ¬ (base ≤ a ∧ a < base + (n + 1)) := by omega
        simp only [h, h2, h3, if_false]

theorem Memory.read_fill_in (m : Memory) {base n k : Nat} (f : Nat → Byte) (h : k < n) :
    (m.fill base n f).read (base + k) = f k := by
  rw [Memory.read_fill, if_pos (by omega), Nat.add_sub_cancel_left]

theorem Memory.read_fill_out (m : Memory) {base n a : Nat} (f : Nat → Byte) (h : ¬ (base ≤ a ∧ a < base + n)) :
    (m.fill base n f).read a = m.read a := by
  rw [Memory.read_fill, if_neg h]

/-- A fill inside the 32-bit space keeps the canonical form. -/
theorem Memory.wf_fill {m : Memory} (h : m.wf) {base n : Nat} (f : Nat → Byte) (hn : n ≤ 2 ^ 32 - base) :
    (m.fill base n f).wf := by
  induction n with
  | zero => exact h
  | succ n ih => exact Memory.wf_write (ih (by omega)) (by omega) _

theorem Memory.read_writeHalf (m : Memory) (a b : Nat) (v : Half) :
    (m.writeHalf a v).read b =
      if b = a + 1 then v.extractLsb' 8 8 else if b = a then v.extractLsb' 0 8 else m.read b := by
  simp [Memory.writeHalf, Memory.read_write]

/-- The little-endian halfword read of a halfword just written. -/
theorem Memory.readHalf_writeHalf (m : Memory) (a : Nat) (v : Half) : (m.writeHalf a v).readHalf a = v := by
  have h : (a : Nat) ≠ a + 1 := by omega
  simp only [Memory.readHalf, Memory.read_writeHalf, if_true, h, if_false]
  ext i hi
  simp only [BitVec.getElem_append, BitVec.getElem_extractLsb']
  split
  · simp [BitVec.getLsbD_eq_getElem hi]
  · have : 8 + (i - 8) = i := by omega
    simp [this, BitVec.getLsbD_eq_getElem hi]

theorem Memory.read_fillHalf_out (m : Memory) {base n a : Nat} (f : Nat → Half)
    (h : ¬ (base ≤ a ∧ a < base + 2 * n)) : (m.fillHalf base n f).read a = m.read a := by
  induction n with
  | zero => rfl
  | succ n ih =>
    rw [Memory.fillHalf, Memory.read_writeHalf, if_neg (by omega), if_neg (by omega), ih (by omega)]

theorem Memory.readHalf_fillHalf (m : Memory) {base n k : Nat} (f : Nat → Half) (h : k < n) :
    (m.fillHalf base n f).readHalf (base + 2 * k) = f k := by
  induction n with
  | zero => omega
  | succ n ih =>
    rw [Memory.fillHalf]
    by_cases hk : k = n
    · subst hk
      exact Memory.readHalf_writeHalf _ _ _
    · rw [← ih (by omega)]
      have h2 : base + 2 * k + 1 ≠ base + 2 * n := by omega
      have h3 : base + 2 * k ≠ base + 2 * n + 1 := by omega
      simp [Memory.readHalf, Memory.read_writeHalf, h2, h3, hk]

theorem Memory.wf_writeHalf {m : Memory} (h : m.wf) {a : Nat} (ha : a + 1 < 2 ^ 32) (v : Half) : (m.writeHalf a v).wf :=
  Memory.wf_write (Memory.wf_write h (by omega) _) ha _

theorem Memory.wf_fillHalf {m : Memory} (h : m.wf) {base n : Nat} (f : Nat → Half) (hn : base + 2 * n ≤ 2 ^ 32) :
    (m.fillHalf base n f).wf := by
  induction n with
  | zero => exact h
  | succ n ih => exact Memory.wf_writeHalf (ih (by omega)) (by omega) _

end Sys2Proof.Machine
end

