-- ==== Sys2Proof/Laws/Regions.lean ====
section
/-! SUPPORT. Laws/Regions.lean: the checks of 60_exceptions.md R162 to R165 as propositions, and what a draw of free bytes
does to memory. -/

namespace Sys2Proof.Machine

theorem paramError_none_iff (rows : List ParamRow) : paramError rows = none ↔ ∀ r ∈ rows, r.ok = true := by
  simp [paramError]

@[simp] theorem paramError_nil : paramError [] = none := rfl

/-- The parameter checks walk the rows in order (60_exceptions.md R163). -/
theorem paramError_cons (r : ParamRow) (rows : List ParamRow) :
    paramError (r :: rows) = if r.ok then paramError rows else some (r.code, r.reg.offset.setWidth 32) := by
  cases h : r.ok <;> simp [paramError, h]

theorem addrError_none_iff (i : Instr) (c : CfgRegs) : addrError (usedRegions i c) = none ↔ RegionsFit i c := by
  simp [addrError, RegionsFit]

theorem alignError_none_iff (i : Instr) (c : CfgRegs) :
    alignError i (usedRegions i c) = none ↔ RegionsAligned i c := by
  simp [alignError, RegionsAligned]

theorem mem_pairsOf {α : Type} (l : List α) (x y : α) : (x, y) ∈ pairsOf l ↔ List.Sublist [x, y] l := by
  induction l with
  | nil => simp [pairsOf]
  | cons z l ih =>
    simp only [pairsOf, List.mem_append, List.mem_map, Prod.mk.injEq, ih]
    constructor
    · rintro (⟨w, hw, rfl, rfl⟩ | h)
      · exact (List.singleton_sublist.mpr hw).cons_cons z
      · exact h.cons z
    · intro h
      cases h with
      | cons _ h => exact .inr h
      | cons_cons _ h => exact .inl ⟨y, List.singleton_sublist.mp h, rfl, rfl⟩

/-- The used regions stand in strictly ascending id order. -/
theorem usedRegions_ascending (i : Instr) (c : CfgRegs) :
    (usedRegions i c).Pairwise fun r q => r.id.number < q.id.number := by
  cases i <;> simp [usedRegions, regionLen, RegionId.number]

/-- Two members in strict order form a sublist of an ascending list. -/
theorem pair_sublist_of_ascending {l : List Region} {r q : Region}
    (hp : l.Pairwise fun r q => r.id.number < q.id.number) (hr : r ∈ l) (hq : q ∈ l)
    (hlt : r.id.number < q.id.number) : List.Sublist [r, q] l := by
  induction l with
  | nil => simp at hr
  | cons z l ih =>
    obtain ⟨hz, hp⟩ := List.pairwise_cons.mp hp
    rcases List.mem_cons.mp hr with hr | hr
    · rcases List.mem_cons.mp hq with hq | hq
      · rw [hr, hq] at hlt
        omega
      · exact hr ▸ (List.singleton_sublist.mpr hq).cons_cons z
    · rcases List.mem_cons.mp hq with hq | hq
      · have := hz r hr
        rw [hq] at hlt
        omega
      · exact (ih hp hr hq).cons z

theorem mem_pairsOf_usedRegions (i : Instr) (c : CfgRegs) (r q : Region) :
    (r, q) ∈ pairsOf (usedRegions i c) ↔
      r ∈ usedRegions i c ∧ q ∈ usedRegions i c ∧ r.id.number < q.id.number := by
  rw [mem_pairsOf]
  constructor
  · intro h
    exact ⟨h.subset (by simp), h.subset (by simp), by simpa using (usedRegions_ascending i c).sublist h⟩
  · rintro ⟨hr, hq, hlt⟩
    exact pair_sublist_of_ascending (usedRegions_ascending i c) hr hq hlt

theorem overlapError_none_iff (i : Instr) (c : CfgRegs) :
    overlapError (usedRegions i c) = none ↔ RegionsDisjoint i c := by
  simp only [overlapError, Option.map_eq_none_iff, List.find?_eq_none, Prod.forall, mem_pairsOf_usedRegions,
    RegionsDisjoint, RegionsClash, Region.meets, Bool.and_eq_true, Bool.or_eq_true, decide_eq_true_eq]
  constructor
  · rintro h r hr q hq ⟨h1, h2, h3, h4⟩
    exact h r q ⟨hr, hq, h1⟩ ⟨h2, h3, h4⟩
  · rintro h r q ⟨hr, hq, h1⟩ ⟨h2, h3, h4⟩
    exact h r hr q hq ⟨h1, h2, h3, h4⟩

/-- The region checks pass exactly when the regions fit, are aligned and are disjoint (60_exceptions.md R164). -/
theorem regionError_none_iff (i : Instr) (c : CfgRegs) :
    regionError i (usedRegions i c) = none ↔ RegionsFit i c ∧ RegionsAligned i c ∧ RegionsDisjoint i c := by
  rw [← addrError_none_iff, ← alignError_none_iff, ← overlapError_none_iff]
  unfold regionError
  cases addrError (usedRegions i c) <;> cases alignError i (usedRegions i c) <;> simp

theorem mem_failingBytes (p : Params) (rs : List Region) (a : Nat) :
    a ∈ failingBytes p rs ↔ ∃ r ∈ rs, r.base ≤ a ∧ a < r.base + r.len ∧ byteFails p r.id a = true := by
  simp only [failingBytes, List.mem_flatMap, List.mem_filter, List.mem_range'_1, and_assoc]

theorem failingBytes_nil_iff (i : Instr) (s : State) :
    failingBytes s.params (usedRegions i s.cfg) = [] ↔ BusAnswers i s := by
  simp only [List.eq_nil_iff_forall_not_mem, mem_failingBytes, BusAnswers, List.mem_range'_1]
  constructor
  · intro h r hr a ha
    by_contra hb
    exact h a ⟨r, hr, ha.1, ha.2, by simpa using hb⟩
  · rintro h a ⟨r, hr, h1, h2, h3⟩
    simp [h r hr a ⟨h1, h2⟩] at h3

/-- A byte of one of the regions. -/
theorem inRegions_iff (rs : List Region) (a : Nat) :
    inRegions rs a = true ↔ ∃ r ∈ rs, r.base ≤ a ∧ a < r.base + r.len := by
  simp [inRegions, Region.contains]

theorem havocFold_read (m : Memory) (n : Nat) (rs keep : List Region) (acc : Memory) (a : Nat)
    (hacc : acc.read a = m.read a ∨ (inRegions keep a = false ∧ acc.read a = Config.freeByte n a)) :
    (rs.foldl
        (fun acc r => acc.fill r.base r.clippedLen fun k =>
          if inRegions keep (r.base + k) then m.read (r.base + k) else Config.freeByte n (r.base + k))
        acc).read a =
      if (∃ r ∈ rs, r.base ≤ a ∧ a < r.base + r.clippedLen) ∧ inRegions keep a = false then Config.freeByte n a
      else acc.read a := by
  induction rs generalizing acc with
  | nil => simp
  | cons r rs ih =>
    have key : (acc.fill r.base r.clippedLen fun k =>
          if inRegions keep (r.base + k) then m.read (r.base + k) else Config.freeByte n (r.base + k)).read a =
        if r.base ≤ a ∧ a < r.base + r.clippedLen then
          (if inRegions keep a then m.read a else Config.freeByte n a) else acc.read a := by
      rw [Memory.read_fill]
      split
      · rename_i h
        rw [Nat.add_sub_cancel' h.1]
      · rfl
    rw [List.foldl_cons, ih]
    · rw [key]
      by_cases hin : r.base ≤ a ∧ a < r.base + r.clippedLen
      · cases hk : inRegions keep a
        · simp [hin]
        · rcases hacc with h | ⟨h, -⟩
          · simp [hin, h]
          · simp [hk] at h
      · have hex : (∃ q ∈ r :: rs, q.base ≤ a ∧ a < q.base + q.clippedLen) ↔
            ∃ q ∈ rs, q.base ≤ a ∧ a < q.base + q.clippedLen := by
          simp only [List.mem_cons, exists_eq_or_imp]
          exact ⟨fun h => h.resolve_left hin, .inr⟩
        simp only [hex, hin, if_false]
    · rw [key]
      split
      · cases hk : inRegions keep a <;> simp
      · exact hacc

/-- A draw of free bytes: exactly the bytes of the picked regions, but for those of the read regions. -/
theorem havocMemory_read (m : Memory) (n : Nat) (rs : List Region) (pick : RegionId → Bool) (a : Nat) :
    (havocMemory m n rs pick).read a =
      if (∃ r ∈ rs, pick r.id = true ∧ r.base ≤ a ∧ a < r.base + r.clippedLen)
          ∧ inRegions (rs.filter fun q => !q.id.isWritten) a = false then Config.freeByte n a
      else m.read a := by
  rw [havocMemory, havocFold_read m n _ _ m a (.inl rfl)]
  simp only [List.mem_filter, and_assoc]

/-- A draw of free bytes leaves every byte outside the picked regions. -/
theorem havocMemory_read_out {m : Memory} {n : Nat} {rs : List Region} {pick : RegionId → Bool} {a : Nat}
    (h : ∀ r ∈ rs, pick r.id = true → ¬ (r.base ≤ a ∧ a < r.base + r.len)) :
    (havocMemory m n rs pick).read a = m.read a := by
  rw [havocMemory_read, if_neg]
  rintro ⟨⟨r, hr, hp, h1, h2⟩, -⟩
  exact h r hr hp ⟨h1, lt_of_lt_of_le h2 (Nat.add_le_add_left (Nat.min_le_left _ _) _)⟩

theorem havocMemory_wf {m : Memory} (hm : m.wf) (n : Nat) (rs : List Region) (pick : RegionId → Bool) :
    (havocMemory m n rs pick).wf := by
  unfold havocMemory
  generalize rs.filter (fun r => pick r.id) = l
  suffices h : ∀ acc : Memory, acc.wf → (l.foldl (fun acc r => acc.fill r.base r.clippedLen fun k =>
      if inRegions (rs.filter fun q => !q.id.isWritten) (r.base + k) then m.read (r.base + k)
      else Config.freeByte n (r.base + k)) acc).wf from h m hm
  induction l with
  | nil => exact fun acc h => h
  | cons r l ih => exact fun acc h => ih _ (Memory.wf_fill h _ (Nat.min_le_right _ _))

end Sys2Proof.Machine
end

