-- ==== Sys2Proof/Laws/State.lean ====
section
/-! SUPPORT. Laws/State.lean: what each update of the state does to each field. -/

namespace Sys2Proof.Machine

section
variable (s : State)

@[simp] theorem State.clearStatus_cfg (v : Word) : (s.clearStatus v).cfg = s.cfg := rfl
@[simp] theorem State.clearStatus_ctrlIrqEn (v : Word) : (s.clearStatus v).ctrlIrqEn = s.ctrlIrqEn := rfl
@[simp] theorem State.clearStatus_busy (v : Word) : (s.clearStatus v).busy = s.busy := rfl
@[simp] theorem State.clearStatus_done (v : Word) : (s.clearStatus v).done = (s.done && !v.getLsbD 1) := rfl
@[simp] theorem State.clearStatus_err (v : Word) : (s.clearStatus v).err = (s.err && !v.getLsbD 2) := rfl
@[simp] theorem State.clearStatus_accOvf (v : Word) : (s.clearStatus v).accOvf = (s.accOvf && !v.getLsbD 3) := rfl
@[simp] theorem State.clearStatus_wrBusy (v : Word) : (s.clearStatus v).wrBusy = (s.wrBusy && !v.getLsbD 4) := rfl
@[simp] theorem State.clearStatus_errCode (v : Word) : (s.clearStatus v).errCode = s.errCode := rfl
@[simp] theorem State.clearStatus_errInfo (v : Word) : (s.clearStatus v).errInfo = s.errInfo := rfl
@[simp] theorem State.clearStatus_pending (v : Word) : (s.clearStatus v).pending = s.pending := rfl
@[simp] theorem State.clearStatus_faulted (v : Word) : (s.clearStatus v).faulted = s.faulted := rfl
@[simp] theorem State.clearStatus_spoiled (v : Word) : (s.clearStatus v).spoiled = s.spoiled := rfl
@[simp] theorem State.clearStatus_mem (v : Word) : (s.clearStatus v).mem = s.mem := rfl
@[simp] theorem State.clearStatus_hostT (v : Word) : (s.clearStatus v).hostT = s.hostT := rfl
@[simp] theorem State.clearStatus_hostBusErr (v : Word) : (s.clearStatus v).hostBusErr = s.hostBusErr := rfl
@[simp] theorem State.clearStatus_program (v : Word) : (s.clearStatus v).program = s.program := rfl
@[simp] theorem State.clearStatus_schedule (v : Word) : (s.clearStatus v).schedule = s.schedule := rfl
@[simp] theorem State.clearStatus_params (v : Word) : (s.clearStatus v).params = s.params := rfl
@[simp] theorem State.clearStatus_freeCount (v : Word) : (s.clearStatus v).freeCount = s.freeCount := rfl

@[simp] theorem State.noteWriteBusy_cfg : (s.noteWriteBusy).cfg = s.cfg := rfl
@[simp] theorem State.noteWriteBusy_ctrlIrqEn : (s.noteWriteBusy).ctrlIrqEn = s.ctrlIrqEn := rfl
@[simp] theorem State.noteWriteBusy_busy : (s.noteWriteBusy).busy = s.busy := rfl
@[simp] theorem State.noteWriteBusy_done : (s.noteWriteBusy).done = s.done := rfl
@[simp] theorem State.noteWriteBusy_err : (s.noteWriteBusy).err = s.err := rfl
@[simp] theorem State.noteWriteBusy_accOvf : (s.noteWriteBusy).accOvf = s.accOvf := rfl
@[simp] theorem State.noteWriteBusy_wrBusy : (s.noteWriteBusy).wrBusy = true := rfl
@[simp] theorem State.noteWriteBusy_errCode : (s.noteWriteBusy).errCode = s.errCode := rfl
@[simp] theorem State.noteWriteBusy_errInfo : (s.noteWriteBusy).errInfo = s.errInfo := rfl
@[simp] theorem State.noteWriteBusy_pending : (s.noteWriteBusy).pending = s.pending := rfl
@[simp] theorem State.noteWriteBusy_faulted : (s.noteWriteBusy).faulted = s.faulted := rfl
@[simp] theorem State.noteWriteBusy_spoiled : (s.noteWriteBusy).spoiled = s.spoiled := rfl
@[simp] theorem State.noteWriteBusy_mem : (s.noteWriteBusy).mem = s.mem := rfl
@[simp] theorem State.noteWriteBusy_hostT : (s.noteWriteBusy).hostT = s.hostT := rfl
@[simp] theorem State.noteWriteBusy_hostBusErr : (s.noteWriteBusy).hostBusErr = s.hostBusErr := rfl
@[simp] theorem State.noteWriteBusy_program : (s.noteWriteBusy).program = s.program := rfl
@[simp] theorem State.noteWriteBusy_schedule : (s.noteWriteBusy).schedule = s.schedule := rfl
@[simp] theorem State.noteWriteBusy_params : (s.noteWriteBusy).params = s.params := rfl
@[simp] theorem State.noteWriteBusy_freeCount : (s.noteWriteBusy).freeCount = s.freeCount := rfl

@[simp] theorem State.launch_cfg (w : Word) : (s.launch w).cfg = s.cfg := rfl
@[simp] theorem State.launch_ctrlIrqEn (w : Word) : (s.launch w).ctrlIrqEn = s.ctrlIrqEn := rfl
@[simp] theorem State.launch_busy (w : Word) : (s.launch w).busy = true := rfl
@[simp] theorem State.launch_done (w : Word) : (s.launch w).done = false := rfl
@[simp] theorem State.launch_err (w : Word) : (s.launch w).err = false := rfl
@[simp] theorem State.launch_accOvf (w : Word) : (s.launch w).accOvf = false := rfl
@[simp] theorem State.launch_wrBusy (w : Word) : (s.launch w).wrBusy = s.wrBusy := rfl
@[simp] theorem State.launch_errCode (w : Word) : (s.launch w).errCode = 0#4 := rfl
@[simp] theorem State.launch_errInfo (w : Word) : (s.launch w).errInfo = 0#32 := rfl
@[simp] theorem State.launch_pending (w : Word) : (s.launch w).pending = some w := rfl
@[simp] theorem State.launch_faulted (w : Word) :
    (s.launch w).faulted = (s.faulted || regionsNotNormal s.params (wordRegions w s.cfg)) := rfl
@[simp] theorem State.launch_spoiled (w : Word) :
    (s.launch w).spoiled = regionsNotNormal s.params (wordRegions w s.cfg) := rfl
@[simp] theorem State.launch_mem (w : Word) : (s.launch w).mem = s.mem := rfl
@[simp] theorem State.launch_hostT (w : Word) : (s.launch w).hostT = s.hostT := rfl
@[simp] theorem State.launch_hostBusErr (w : Word) : (s.launch w).hostBusErr = s.hostBusErr := rfl
@[simp] theorem State.launch_program (w : Word) : (s.launch w).program = s.program := rfl
@[simp] theorem State.launch_schedule (w : Word) : (s.launch w).schedule = s.schedule := rfl
@[simp] theorem State.launch_params (w : Word) : (s.launch w).params = s.params := rfl
@[simp] theorem State.launch_freeCount (w : Word) : (s.launch w).freeCount = s.freeCount := rfl

@[simp] theorem State.complete_cfg (code : ErrCode) (info : Word) (ovf : Bool) :
    (s.complete code info ovf).cfg = s.cfg := rfl
@[simp] theorem State.complete_ctrlIrqEn (code : ErrCode) (info : Word) (ovf : Bool) :
    (s.complete code info ovf).ctrlIrqEn = s.ctrlIrqEn := rfl
@[simp] theorem State.complete_busy (code : ErrCode) (info : Word) (ovf : Bool) :
    (s.complete code info ovf).busy = false := rfl
@[simp] theorem State.complete_done (code : ErrCode) (info : Word) (ovf : Bool) :
    (s.complete code info ovf).done = true := rfl
@[simp] theorem State.complete_err (code : ErrCode) (info : Word) (ovf : Bool) :
    (s.complete code info ovf).err = (code != .none) := rfl
@[simp] theorem State.complete_accOvf (code : ErrCode) (info : Word) (ovf : Bool) :
    (s.complete code info ovf).accOvf = ovf := rfl
@[simp] theorem State.complete_wrBusy (code : ErrCode) (info : Word) (ovf : Bool) :
    (s.complete code info ovf).wrBusy = s.wrBusy := rfl
@[simp] theorem State.complete_errCode (code : ErrCode) (info : Word) (ovf : Bool) :
    (s.complete code info ovf).errCode = code.bits := rfl
@[simp] theorem State.complete_errInfo (code : ErrCode) (info : Word) (ovf : Bool) :
    (s.complete code info ovf).errInfo = info := rfl
@[simp] theorem State.complete_pending (code : ErrCode) (info : Word) (ovf : Bool) :
    (s.complete code info ovf).pending = none := rfl
@[simp] theorem State.complete_faulted (code : ErrCode) (info : Word) (ovf : Bool) :
    (s.complete code info ovf).faulted = s.faulted := rfl
@[simp] theorem State.complete_spoiled (code : ErrCode) (info : Word) (ovf : Bool) :
    (s.complete code info ovf).spoiled = false := rfl
@[simp] theorem State.complete_mem (code : ErrCode) (info : Word) (ovf : Bool) :
    (s.complete code info ovf).mem = s.mem := rfl
@[simp] theorem State.complete_hostT (code : ErrCode) (info : Word) (ovf : Bool) :
    (s.complete code info ovf).hostT = s.hostT := rfl
@[simp] theorem State.complete_hostBusErr (code : ErrCode) (info : Word) (ovf : Bool) :
    (s.complete code info ovf).hostBusErr = s.hostBusErr := rfl
@[simp] theorem State.complete_program (code : ErrCode) (info : Word) (ovf : Bool) :
    (s.complete code info ovf).program = s.program := rfl
@[simp] theorem State.complete_schedule (code : ErrCode) (info : Word) (ovf : Bool) :
    (s.complete code info ovf).schedule = s.schedule := rfl
@[simp] theorem State.complete_params (code : ErrCode) (info : Word) (ovf : Bool) :
    (s.complete code info ovf).params = s.params := rfl
@[simp] theorem State.complete_freeCount (code : ErrCode) (info : Word) (ovf : Bool) :
    (s.complete code info ovf).freeCount = s.freeCount := rfl

@[simp] theorem State.raiseError_cfg (code : ErrCode) (info : Word) : (s.raiseError code info).cfg = s.cfg := rfl
@[simp] theorem State.raiseError_ctrlIrqEn (code : ErrCode) (info : Word) :
    (s.raiseError code info).ctrlIrqEn = s.ctrlIrqEn := rfl
@[simp] theorem State.raiseError_busy (code : ErrCode) (info : Word) : (s.raiseError code info).busy = false := rfl
@[simp] theorem State.raiseError_done (code : ErrCode) (info : Word) : (s.raiseError code info).done = true := rfl
@[simp] theorem State.raiseError_err (code : ErrCode) (info : Word) :
    (s.raiseError code info).err = (code != .none) := rfl
@[simp] theorem State.raiseError_accOvf (code : ErrCode) (info : Word) : (s.raiseError code info).accOvf = false := rfl
@[simp] theorem State.raiseError_wrBusy (code : ErrCode) (info : Word) :
    (s.raiseError code info).wrBusy = s.wrBusy := rfl
@[simp] theorem State.raiseError_errCode (code : ErrCode) (info : Word) :
    (s.raiseError code info).errCode = code.bits := rfl
@[simp] theorem State.raiseError_errInfo (code : ErrCode) (info : Word) :
    (s.raiseError code info).errInfo = info := rfl
@[simp] theorem State.raiseError_pending (code : ErrCode) (info : Word) :
    (s.raiseError code info).pending = none := rfl
@[simp] theorem State.raiseError_faulted (code : ErrCode) (info : Word) :
    (s.raiseError code info).faulted = s.faulted := rfl
@[simp] theorem State.raiseError_spoiled (code : ErrCode) (info : Word) :
    (s.raiseError code info).spoiled = false := rfl
@[simp] theorem State.raiseError_mem (code : ErrCode) (info : Word) : (s.raiseError code info).mem = s.mem := rfl
@[simp] theorem State.raiseError_hostT (code : ErrCode) (info : Word) : (s.raiseError code info).hostT = s.hostT := rfl
@[simp] theorem State.raiseError_hostBusErr (code : ErrCode) (info : Word) :
    (s.raiseError code info).hostBusErr = s.hostBusErr := rfl
@[simp] theorem State.raiseError_program (code : ErrCode) (info : Word) :
    (s.raiseError code info).program = s.program := rfl
@[simp] theorem State.raiseError_schedule (code : ErrCode) (info : Word) :
    (s.raiseError code info).schedule = s.schedule := rfl
@[simp] theorem State.raiseError_params (code : ErrCode) (info : Word) :
    (s.raiseError code info).params = s.params := rfl
@[simp] theorem State.raiseError_freeCount (code : ErrCode) (info : Word) :
    (s.raiseError code info).freeCount = s.freeCount := rfl

@[simp] theorem State.havoc_cfg (rs : List Region) (pick : RegionId → Bool) : (s.havoc rs pick).cfg = s.cfg := rfl
@[simp] theorem State.havoc_ctrlIrqEn (rs : List Region) (pick : RegionId → Bool) :
    (s.havoc rs pick).ctrlIrqEn = s.ctrlIrqEn := rfl
@[simp] theorem State.havoc_busy (rs : List Region) (pick : RegionId → Bool) : (s.havoc rs pick).busy = s.busy := rfl
@[simp] theorem State.havoc_done (rs : List Region) (pick : RegionId → Bool) : (s.havoc rs pick).done = s.done := rfl
@[simp] theorem State.havoc_err (rs : List Region) (pick : RegionId → Bool) : (s.havoc rs pick).err = s.err := rfl
@[simp] theorem State.havoc_accOvf (rs : List Region) (pick : RegionId → Bool) :
    (s.havoc rs pick).accOvf = s.accOvf := rfl
@[simp] theorem State.havoc_wrBusy (rs : List Region) (pick : RegionId → Bool) :
    (s.havoc rs pick).wrBusy = s.wrBusy := rfl
@[simp] theorem State.havoc_errCode (rs : List Region) (pick : RegionId → Bool) :
    (s.havoc rs pick).errCode = s.errCode := rfl
@[simp] theorem State.havoc_errInfo (rs : List Region) (pick : RegionId → Bool) :
    (s.havoc rs pick).errInfo = s.errInfo := rfl
@[simp] theorem State.havoc_pending (rs : List Region) (pick : RegionId → Bool) :
    (s.havoc rs pick).pending = s.pending := rfl
@[simp] theorem State.havoc_faulted (rs : List Region) (pick : RegionId → Bool) :
    (s.havoc rs pick).faulted = s.faulted := rfl
@[simp] theorem State.havoc_spoiled (rs : List Region) (pick : RegionId → Bool) :
    (s.havoc rs pick).spoiled = s.spoiled := rfl
@[simp] theorem State.havoc_mem (rs : List Region) (pick : RegionId → Bool) :
    (s.havoc rs pick).mem = havocMemory s.mem s.freeCount rs pick := rfl
@[simp] theorem State.havoc_hostT (rs : List Region) (pick : RegionId → Bool) :
    (s.havoc rs pick).hostT = s.hostT := rfl
@[simp] theorem State.havoc_hostBusErr (rs : List Region) (pick : RegionId → Bool) :
    (s.havoc rs pick).hostBusErr = s.hostBusErr := rfl
@[simp] theorem State.havoc_program (rs : List Region) (pick : RegionId → Bool) :
    (s.havoc rs pick).program = s.program := rfl
@[simp] theorem State.havoc_schedule (rs : List Region) (pick : RegionId → Bool) :
    (s.havoc rs pick).schedule = s.schedule := rfl
@[simp] theorem State.havoc_params (rs : List Region) (pick : RegionId → Bool) :
    (s.havoc rs pick).params = s.params := rfl
@[simp] theorem State.havoc_freeCount (rs : List Region) (pick : RegionId → Bool) :
    (s.havoc rs pick).freeCount = s.freeCount + 1 := rfl

@[simp] theorem State.resetBlock_cfg : (s.resetBlock).cfg = CfgRegs.reset := rfl
@[simp] theorem State.resetBlock_ctrlIrqEn : (s.resetBlock).ctrlIrqEn = false := rfl
@[simp] theorem State.resetBlock_busy : (s.resetBlock).busy = false := rfl
@[simp] theorem State.resetBlock_done : (s.resetBlock).done = false := rfl
@[simp] theorem State.resetBlock_err : (s.resetBlock).err = false := rfl
@[simp] theorem State.resetBlock_accOvf : (s.resetBlock).accOvf = false := rfl
@[simp] theorem State.resetBlock_wrBusy : (s.resetBlock).wrBusy = false := rfl
@[simp] theorem State.resetBlock_errCode : (s.resetBlock).errCode = 0#4 := rfl
@[simp] theorem State.resetBlock_errInfo : (s.resetBlock).errInfo = 0#32 := rfl
@[simp] theorem State.resetBlock_pending : (s.resetBlock).pending = none := rfl
@[simp] theorem State.resetBlock_faulted : (s.resetBlock).faulted = s.faulted := rfl
@[simp] theorem State.resetBlock_spoiled : (s.resetBlock).spoiled = false := rfl
@[simp] theorem State.resetBlock_mem : (s.resetBlock).mem = s.mem := rfl
@[simp] theorem State.resetBlock_hostT : (s.resetBlock).hostT = s.hostT := rfl
@[simp] theorem State.resetBlock_hostBusErr : (s.resetBlock).hostBusErr = s.hostBusErr := rfl
@[simp] theorem State.resetBlock_program : (s.resetBlock).program = s.program := rfl
@[simp] theorem State.resetBlock_schedule : (s.resetBlock).schedule = s.schedule := rfl
@[simp] theorem State.resetBlock_params : (s.resetBlock).params = s.params := rfl
@[simp] theorem State.resetBlock_freeCount : (s.resetBlock).freeCount = s.freeCount := rfl

@[simp] theorem State.raceMark_cfg (a : Word) : (s.raceMark a).cfg = s.cfg := rfl
@[simp] theorem State.raceMark_ctrlIrqEn (a : Word) : (s.raceMark a).ctrlIrqEn = s.ctrlIrqEn := rfl
@[simp] theorem State.raceMark_busy (a : Word) : (s.raceMark a).busy = s.busy := rfl
@[simp] theorem State.raceMark_done (a : Word) : (s.raceMark a).done = s.done := rfl
@[simp] theorem State.raceMark_err (a : Word) : (s.raceMark a).err = s.err := rfl
@[simp] theorem State.raceMark_accOvf (a : Word) : (s.raceMark a).accOvf = s.accOvf := rfl
@[simp] theorem State.raceMark_wrBusy (a : Word) : (s.raceMark a).wrBusy = s.wrBusy := rfl
@[simp] theorem State.raceMark_errCode (a : Word) : (s.raceMark a).errCode = s.errCode := rfl
@[simp] theorem State.raceMark_errInfo (a : Word) : (s.raceMark a).errInfo = s.errInfo := rfl
@[simp] theorem State.raceMark_pending (a : Word) : (s.raceMark a).pending = s.pending := rfl
@[simp] theorem State.raceMark_faulted (a : Word) :
    (s.raceMark a).faulted = (s.faulted || inRegions s.liveRegions a.toNat) := rfl
@[simp] theorem State.raceMark_spoiled (a : Word) :
    (s.raceMark a).spoiled = (s.spoiled || inRegions s.liveRegions a.toNat) := rfl
@[simp] theorem State.raceMark_mem (a : Word) : (s.raceMark a).mem = s.mem := rfl
@[simp] theorem State.raceMark_hostT (a : Word) : (s.raceMark a).hostT = s.hostT := rfl
@[simp] theorem State.raceMark_hostBusErr (a : Word) : (s.raceMark a).hostBusErr = s.hostBusErr := rfl
@[simp] theorem State.raceMark_program (a : Word) : (s.raceMark a).program = s.program := rfl
@[simp] theorem State.raceMark_schedule (a : Word) : (s.raceMark a).schedule = s.schedule := rfl
@[simp] theorem State.raceMark_params (a : Word) : (s.raceMark a).params = s.params := rfl
@[simp] theorem State.raceMark_freeCount (a : Word) : (s.raceMark a).freeCount = s.freeCount := rfl

@[simp] theorem State.raceStore_cfg (a : Word) (b : Byte) : (s.raceStore a b).cfg = s.cfg := rfl
@[simp] theorem State.raceStore_ctrlIrqEn (a : Word) (b : Byte) : (s.raceStore a b).ctrlIrqEn = s.ctrlIrqEn := rfl
@[simp] theorem State.raceStore_busy (a : Word) (b : Byte) : (s.raceStore a b).busy = s.busy := rfl
@[simp] theorem State.raceStore_done (a : Word) (b : Byte) : (s.raceStore a b).done = s.done := rfl
@[simp] theorem State.raceStore_err (a : Word) (b : Byte) : (s.raceStore a b).err = s.err := rfl
@[simp] theorem State.raceStore_accOvf (a : Word) (b : Byte) : (s.raceStore a b).accOvf = s.accOvf := rfl
@[simp] theorem State.raceStore_wrBusy (a : Word) (b : Byte) : (s.raceStore a b).wrBusy = s.wrBusy := rfl
@[simp] theorem State.raceStore_errCode (a : Word) (b : Byte) : (s.raceStore a b).errCode = s.errCode := rfl
@[simp] theorem State.raceStore_errInfo (a : Word) (b : Byte) : (s.raceStore a b).errInfo = s.errInfo := rfl
@[simp] theorem State.raceStore_pending (a : Word) (b : Byte) : (s.raceStore a b).pending = s.pending := rfl
@[simp] theorem State.raceStore_faulted (a : Word) (b : Byte) :
    (s.raceStore a b).faulted = (s.faulted || inRegions s.liveRegions a.toNat) := rfl
@[simp] theorem State.raceStore_spoiled (a : Word) (b : Byte) :
    (s.raceStore a b).spoiled = (s.spoiled || inRegions s.liveRegions a.toNat) := rfl
@[simp] theorem State.raceStore_mem (a : Word) (b : Byte) : (s.raceStore a b).mem = s.mem.write a.toNat b := rfl
@[simp] theorem State.raceStore_hostT (a : Word) (b : Byte) : (s.raceStore a b).hostT = s.hostT := rfl
@[simp] theorem State.raceStore_hostBusErr (a : Word) (b : Byte) : (s.raceStore a b).hostBusErr = s.hostBusErr := rfl
@[simp] theorem State.raceStore_program (a : Word) (b : Byte) : (s.raceStore a b).program = s.program := rfl
@[simp] theorem State.raceStore_schedule (a : Word) (b : Byte) : (s.raceStore a b).schedule = s.schedule := rfl
@[simp] theorem State.raceStore_params (a : Word) (b : Byte) : (s.raceStore a b).params = s.params := rfl
@[simp] theorem State.raceStore_freeCount (a : Word) (b : Byte) : (s.raceStore a b).freeCount = s.freeCount := rfl

@[simp] theorem State.launchNow_cfg (w : Word) : (s.launchNow w).cfg = s.cfg := rfl
@[simp] theorem State.launchNow_ctrlIrqEn (w : Word) : (s.launchNow w).ctrlIrqEn = s.ctrlIrqEn := rfl
@[simp] theorem State.launchNow_busy (w : Word) : (s.launchNow w).busy = true := rfl
@[simp] theorem State.launchNow_done (w : Word) : (s.launchNow w).done = false := rfl
@[simp] theorem State.launchNow_err (w : Word) : (s.launchNow w).err = false := rfl
@[simp] theorem State.launchNow_accOvf (w : Word) : (s.launchNow w).accOvf = false := rfl
@[simp] theorem State.launchNow_wrBusy (w : Word) : (s.launchNow w).wrBusy = s.wrBusy := rfl
@[simp] theorem State.launchNow_errCode (w : Word) : (s.launchNow w).errCode = 0#4 := rfl
@[simp] theorem State.launchNow_errInfo (w : Word) : (s.launchNow w).errInfo = 0#32 := rfl
@[simp] theorem State.launchNow_pending (w : Word) : (s.launchNow w).pending = some w := rfl
@[simp] theorem State.launchNow_faulted (w : Word) :
    (s.launchNow w).faulted = (s.faulted || regionsNotNormal s.params (wordRegions w s.cfg)) := rfl
@[simp] theorem State.launchNow_spoiled (w : Word) :
    (s.launchNow w).spoiled = regionsNotNormal s.params (wordRegions w s.cfg) := rfl
@[simp] theorem State.launchNow_mem (w : Word) : (s.launchNow w).mem = s.mem := rfl
@[simp] theorem State.launchNow_hostT (w : Word) : (s.launchNow w).hostT = s.hostT := rfl
@[simp] theorem State.launchNow_hostBusErr (w : Word) : (s.launchNow w).hostBusErr = s.hostBusErr := rfl
@[simp] theorem State.launchNow_program (w : Word) : (s.launchNow w).program = s.program := rfl
@[simp] theorem State.launchNow_schedule (w : Word) : (s.launchNow w).schedule = [] := rfl
@[simp] theorem State.launchNow_params (w : Word) : (s.launchNow w).params = s.params := rfl
@[simp] theorem State.launchNow_freeCount (w : Word) : (s.launchNow w).freeCount = s.freeCount := rfl

@[simp] theorem State.answered_cfg : (s.answered).cfg = s.cfg := rfl
@[simp] theorem State.answered_ctrlIrqEn : (s.answered).ctrlIrqEn = s.ctrlIrqEn := rfl
@[simp] theorem State.answered_busy : (s.answered).busy = s.busy := rfl
@[simp] theorem State.answered_done : (s.answered).done = s.done := rfl
@[simp] theorem State.answered_err : (s.answered).err = s.err := rfl
@[simp] theorem State.answered_accOvf : (s.answered).accOvf = s.accOvf := rfl
@[simp] theorem State.answered_wrBusy : (s.answered).wrBusy = s.wrBusy := rfl
@[simp] theorem State.answered_errCode : (s.answered).errCode = s.errCode := rfl
@[simp] theorem State.answered_errInfo : (s.answered).errInfo = s.errInfo := rfl
@[simp] theorem State.answered_pending : (s.answered).pending = s.pending := rfl
@[simp] theorem State.answered_faulted : (s.answered).faulted = s.faulted := rfl
@[simp] theorem State.answered_spoiled : (s.answered).spoiled = s.spoiled := rfl
@[simp] theorem State.answered_mem : (s.answered).mem = s.mem := rfl
@[simp] theorem State.answered_hostT : (s.answered).hostT = s.hostT := rfl
@[simp] theorem State.answered_hostBusErr : (s.answered).hostBusErr = false := rfl
@[simp] theorem State.answered_program : (s.answered).program = s.program := rfl
@[simp] theorem State.answered_schedule : (s.answered).schedule = s.schedule := rfl
@[simp] theorem State.answered_params : (s.answered).params = s.params := rfl
@[simp] theorem State.answered_freeCount : (s.answered).freeCount = s.freeCount := rfl

@[simp] theorem State.loaded_cfg (v : Word) : (s.loaded v).cfg = s.cfg := rfl
@[simp] theorem State.loaded_ctrlIrqEn (v : Word) : (s.loaded v).ctrlIrqEn = s.ctrlIrqEn := rfl
@[simp] theorem State.loaded_busy (v : Word) : (s.loaded v).busy = s.busy := rfl
@[simp] theorem State.loaded_done (v : Word) : (s.loaded v).done = s.done := rfl
@[simp] theorem State.loaded_err (v : Word) : (s.loaded v).err = s.err := rfl
@[simp] theorem State.loaded_accOvf (v : Word) : (s.loaded v).accOvf = s.accOvf := rfl
@[simp] theorem State.loaded_wrBusy (v : Word) : (s.loaded v).wrBusy = s.wrBusy := rfl
@[simp] theorem State.loaded_errCode (v : Word) : (s.loaded v).errCode = s.errCode := rfl
@[simp] theorem State.loaded_errInfo (v : Word) : (s.loaded v).errInfo = s.errInfo := rfl
@[simp] theorem State.loaded_pending (v : Word) : (s.loaded v).pending = s.pending := rfl
@[simp] theorem State.loaded_faulted (v : Word) : (s.loaded v).faulted = s.faulted := rfl
@[simp] theorem State.loaded_spoiled (v : Word) : (s.loaded v).spoiled = s.spoiled := rfl
@[simp] theorem State.loaded_mem (v : Word) : (s.loaded v).mem = s.mem := rfl
@[simp] theorem State.loaded_hostT (v : Word) : (s.loaded v).hostT = v := rfl
@[simp] theorem State.loaded_hostBusErr (v : Word) : (s.loaded v).hostBusErr = false := rfl
@[simp] theorem State.loaded_program (v : Word) : (s.loaded v).program = s.program := rfl
@[simp] theorem State.loaded_schedule (v : Word) : (s.loaded v).schedule = s.schedule := rfl
@[simp] theorem State.loaded_params (v : Word) : (s.loaded v).params = s.params := rfl
@[simp] theorem State.loaded_freeCount (v : Word) : (s.loaded v).freeCount = s.freeCount := rfl

@[simp] theorem State.busErrored_cfg : (s.busErrored).cfg = s.cfg := rfl
@[simp] theorem State.busErrored_ctrlIrqEn : (s.busErrored).ctrlIrqEn = s.ctrlIrqEn := rfl
@[simp] theorem State.busErrored_busy : (s.busErrored).busy = s.busy := rfl
@[simp] theorem State.busErrored_done : (s.busErrored).done = s.done := rfl
@[simp] theorem State.busErrored_err : (s.busErrored).err = s.err := rfl
@[simp] theorem State.busErrored_accOvf : (s.busErrored).accOvf = s.accOvf := rfl
@[simp] theorem State.busErrored_wrBusy : (s.busErrored).wrBusy = s.wrBusy := rfl
@[simp] theorem State.busErrored_errCode : (s.busErrored).errCode = s.errCode := rfl
@[simp] theorem State.busErrored_errInfo : (s.busErrored).errInfo = s.errInfo := rfl
@[simp] theorem State.busErrored_pending : (s.busErrored).pending = s.pending := rfl
@[simp] theorem State.busErrored_faulted : (s.busErrored).faulted = true := rfl
@[simp] theorem State.busErrored_spoiled : (s.busErrored).spoiled = s.spoiled := rfl
@[simp] theorem State.busErrored_mem : (s.busErrored).mem = s.mem := rfl
@[simp] theorem State.busErrored_hostT : (s.busErrored).hostT = s.hostT := rfl
@[simp] theorem State.busErrored_hostBusErr : (s.busErrored).hostBusErr = true := rfl
@[simp] theorem State.busErrored_program : (s.busErrored).program = s.program := rfl
@[simp] theorem State.busErrored_schedule : (s.busErrored).schedule = s.schedule := rfl
@[simp] theorem State.busErrored_params : (s.busErrored).params = s.params := rfl
@[simp] theorem State.busErrored_freeCount : (s.busErrored).freeCount = s.freeCount := rfl

@[simp] theorem State.loadedFree_cfg (v : Word) : (s.loadedFree v).cfg = s.cfg := rfl
@[simp] theorem State.loadedFree_ctrlIrqEn (v : Word) : (s.loadedFree v).ctrlIrqEn = s.ctrlIrqEn := rfl
@[simp] theorem State.loadedFree_busy (v : Word) : (s.loadedFree v).busy = s.busy := rfl
@[simp] theorem State.loadedFree_done (v : Word) : (s.loadedFree v).done = s.done := rfl
@[simp] theorem State.loadedFree_err (v : Word) : (s.loadedFree v).err = s.err := rfl
@[simp] theorem State.loadedFree_accOvf (v : Word) : (s.loadedFree v).accOvf = s.accOvf := rfl
@[simp] theorem State.loadedFree_wrBusy (v : Word) : (s.loadedFree v).wrBusy = s.wrBusy := rfl
@[simp] theorem State.loadedFree_errCode (v : Word) : (s.loadedFree v).errCode = s.errCode := rfl
@[simp] theorem State.loadedFree_errInfo (v : Word) : (s.loadedFree v).errInfo = s.errInfo := rfl
@[simp] theorem State.loadedFree_pending (v : Word) : (s.loadedFree v).pending = s.pending := rfl
@[simp] theorem State.loadedFree_faulted (v : Word) : (s.loadedFree v).faulted = s.faulted := rfl
@[simp] theorem State.loadedFree_spoiled (v : Word) : (s.loadedFree v).spoiled = s.spoiled := rfl
@[simp] theorem State.loadedFree_mem (v : Word) : (s.loadedFree v).mem = s.mem := rfl
@[simp] theorem State.loadedFree_hostT (v : Word) : (s.loadedFree v).hostT = v := rfl
@[simp] theorem State.loadedFree_hostBusErr (v : Word) : (s.loadedFree v).hostBusErr = s.hostBusErr := rfl
@[simp] theorem State.loadedFree_program (v : Word) : (s.loadedFree v).program = s.program := rfl
@[simp] theorem State.loadedFree_schedule (v : Word) : (s.loadedFree v).schedule = s.schedule := rfl
@[simp] theorem State.loadedFree_params (v : Word) : (s.loadedFree v).params = s.params := rfl
@[simp] theorem State.loadedFree_freeCount (v : Word) : (s.loadedFree v).freeCount = s.freeCount + 1 := rfl

end

/-- Aborting keeps every field but memory and the count of draws. -/
theorem State.abort_cases (s : State) :
    (s.busy = false ∧ s.abort = s) ∨ (s.busy = true ∧ s.abort = s.havoc s.liveRegions RegionId.isWritten) := by
  unfold State.abort
  cases h : s.busy
  · exact .inl ⟨rfl, by simp⟩
  · exact .inr ⟨rfl, by simp⟩

section
variable (s : State)

@[simp] theorem State.abort_cfg : s.abort.cfg = s.cfg := by
  obtain ⟨-, h⟩ | ⟨-, h⟩ := s.abort_cases <;> rw [h]
  exact s.havoc_cfg _ _
@[simp] theorem State.abort_ctrlIrqEn : s.abort.ctrlIrqEn = s.ctrlIrqEn := by
  obtain ⟨-, h⟩ | ⟨-, h⟩ := s.abort_cases <;> rw [h]
  exact s.havoc_ctrlIrqEn _ _
@[simp] theorem State.abort_busy : s.abort.busy = s.busy := by
  obtain ⟨-, h⟩ | ⟨-, h⟩ := s.abort_cases <;> rw [h]
  exact s.havoc_busy _ _
@[simp] theorem State.abort_done : s.abort.done = s.done := by
  obtain ⟨-, h⟩ | ⟨-, h⟩ := s.abort_cases <;> rw [h]
  exact s.havoc_done _ _
@[simp] theorem State.abort_err : s.abort.err = s.err := by
  obtain ⟨-, h⟩ | ⟨-, h⟩ := s.abort_cases <;> rw [h]
  exact s.havoc_err _ _
@[simp] theorem State.abort_accOvf : s.abort.accOvf = s.accOvf := by
  obtain ⟨-, h⟩ | ⟨-, h⟩ := s.abort_cases <;> rw [h]
  exact s.havoc_accOvf _ _
@[simp] theorem State.abort_wrBusy : s.abort.wrBusy = s.wrBusy := by
  obtain ⟨-, h⟩ | ⟨-, h⟩ := s.abort_cases <;> rw [h]
  exact s.havoc_wrBusy _ _
@[simp] theorem State.abort_errCode : s.abort.errCode = s.errCode := by
  obtain ⟨-, h⟩ | ⟨-, h⟩ := s.abort_cases <;> rw [h]
  exact s.havoc_errCode _ _
@[simp] theorem State.abort_errInfo : s.abort.errInfo = s.errInfo := by
  obtain ⟨-, h⟩ | ⟨-, h⟩ := s.abort_cases <;> rw [h]
  exact s.havoc_errInfo _ _
@[simp] theorem State.abort_pending : s.abort.pending = s.pending := by
  obtain ⟨-, h⟩ | ⟨-, h⟩ := s.abort_cases <;> rw [h]
  exact s.havoc_pending _ _
@[simp] theorem State.abort_faulted : s.abort.faulted = s.faulted := by
  obtain ⟨-, h⟩ | ⟨-, h⟩ := s.abort_cases <;> rw [h]
  exact s.havoc_faulted _ _
@[simp] theorem State.abort_spoiled : s.abort.spoiled = s.spoiled := by
  obtain ⟨-, h⟩ | ⟨-, h⟩ := s.abort_cases <;> rw [h]
  exact s.havoc_spoiled _ _
@[simp] theorem State.abort_hostT : s.abort.hostT = s.hostT := by
  obtain ⟨-, h⟩ | ⟨-, h⟩ := s.abort_cases <;> rw [h]
  exact s.havoc_hostT _ _
@[simp] theorem State.abort_hostBusErr : s.abort.hostBusErr = s.hostBusErr := by
  obtain ⟨-, h⟩ | ⟨-, h⟩ := s.abort_cases <;> rw [h]
  exact s.havoc_hostBusErr _ _
@[simp] theorem State.abort_program : s.abort.program = s.program := by
  obtain ⟨-, h⟩ | ⟨-, h⟩ := s.abort_cases <;> rw [h]
  exact s.havoc_program _ _
@[simp] theorem State.abort_schedule : s.abort.schedule = s.schedule := by
  obtain ⟨-, h⟩ | ⟨-, h⟩ := s.abort_cases <;> rw [h]
  exact s.havoc_schedule _ _
@[simp] theorem State.abort_params : s.abort.params = s.params := by
  obtain ⟨-, h⟩ | ⟨-, h⟩ := s.abort_cases <;> rw [h]
  exact s.havoc_params _ _

@[simp] theorem State.blockReset_cfg : s.blockReset.cfg = CfgRegs.reset := rfl
@[simp] theorem State.blockReset_ctrlIrqEn : s.blockReset.ctrlIrqEn = false := rfl
@[simp] theorem State.blockReset_busy : s.blockReset.busy = false := rfl
@[simp] theorem State.blockReset_done : s.blockReset.done = false := rfl
@[simp] theorem State.blockReset_err : s.blockReset.err = false := rfl
@[simp] theorem State.blockReset_accOvf : s.blockReset.accOvf = false := rfl
@[simp] theorem State.blockReset_wrBusy : s.blockReset.wrBusy = false := rfl
@[simp] theorem State.blockReset_errCode : s.blockReset.errCode = 0#4 := rfl
@[simp] theorem State.blockReset_errInfo : s.blockReset.errInfo = 0#32 := rfl
@[simp] theorem State.blockReset_pending : s.blockReset.pending = none := rfl
@[simp] theorem State.blockReset_faulted : s.blockReset.faulted = s.faulted := s.abort_faulted
@[simp] theorem State.blockReset_spoiled : s.blockReset.spoiled = false := rfl
@[simp] theorem State.blockReset_mem : s.blockReset.mem = s.abort.mem := rfl
@[simp] theorem State.blockReset_hostT : s.blockReset.hostT = s.hostT := s.abort_hostT
@[simp] theorem State.blockReset_hostBusErr : s.blockReset.hostBusErr = s.hostBusErr := s.abort_hostBusErr
@[simp] theorem State.blockReset_program : s.blockReset.program = s.program := s.abort_program
@[simp] theorem State.blockReset_schedule : s.blockReset.schedule = s.schedule := s.abort_schedule
@[simp] theorem State.blockReset_params : s.blockReset.params = s.params := s.abort_params
@[simp] theorem State.blockReset_freeCount : s.blockReset.freeCount = s.abort.freeCount := rfl

end

end Sys2Proof.Machine
end

