-- ==== Sys2Proof/Laws/Commands.lean ====
section
/-! SUPPORT. Laws/Commands.lean: everything a command's completion can do, said once, and each command's result in the
terms of its rule. -/

namespace Sys2Proof.Machine

/-- The constraint table of a command. -/
def rowsOf (i : Instr) (c : CfgRegs) : List ParamRow :=
  match i with
  | .conv2d => conv2dRows c
  | .dwconv => dwconvRows c
  | .pwconv => pwconvRows c
  | .pwconvFast => pwconvFastRows c
  | .avgpool2x2 => avgpoolRows c

/-- The result of a command. -/
def resultOf (i : Instr) (s : State) : CommandResult :=
  match i with
  | .conv2d => conv2dResult s
  | .dwconv => dwconvResult s
  | .pwconv => pwconvResult s
  | .pwconvFast => pwconvFastResult s
  | .avgpool2x2 => avgpoolResult s

theorem exec_eq_runCommand (i : Instr) (s : State) : exec i s = runCommand i (rowsOf i s.cfg) (resultOf i s) s := by
  cases i <;> rfl

theorem paramError_rowsOf_none_iff (i : Instr) (c : CfgRegs) : paramError (rowsOf i c) = none ↔ ParamsLegal i c := by
  rw [paramError_none_iff]
  cases i <;> simp [rowsOf, conv2dRows, dwconvRows, pwconvRows, pwconvFastRows, avgpoolRows]

/-- The codes of the parameter checks. -/
theorem paramError_rowsOf_code {i : Instr} {c : CfgRegs} {e : ErrCode × Word} (h : paramError (rowsOf i c) = some e) :
    e.1 = .badDim ∨ e.1 = .badChannel ∨ e.1 = .badKernel ∨ e.1 = .badShift := by
  simp only [paramError, Option.map_eq_some_iff] at h
  obtain ⟨r, hr, rfl⟩ := h
  have hm := List.mem_of_find?_eq_some hr
  cases i <;>
    simp only [rowsOf, conv2dRows, dwconvRows, pwconvRows, pwconvFastRows, avgpoolRows, List.mem_cons, List.not_mem_nil,
      or_false] at hm <;>
    rcases hm with rfl | rfl | rfl | rfl | rfl | rfl | rfl | hm <;> simp_all

/-- The codes of the region checks. -/
theorem regionError_code {i : Instr} {rs : List Region} {e : ErrCode × Word} (h : regionError i rs = some e) :
    e.1 = .badAddr ∨ e.1 = .align ∨ e.1 = .overlap := by
  unfold regionError at h
  split at h
  · rename_i e' he
    simp only [addrError, Option.map_eq_some_iff] at he
    obtain ⟨r, -, rfl⟩ := he
    cases h
    simp
  · split at h
    · rename_i e' he
      simp only [alignError, Option.map_eq_some_iff] at he
      obtain ⟨r, -, rfl⟩ := he
      cases h
      simp
    · simp only [overlapError, Option.map_eq_some_iff] at h
      obtain ⟨r, -, rfl⟩ := h
      simp

/-- Everything a command's completion step can do (60_exceptions.md R162, R167). -/
theorem exec_cases (i : Instr) (s : State) :
    (∃ e, paramError (rowsOf i s.cfg) = some e ∧ ¬ ParamsLegal i s.cfg ∧ exec i s = .next (s.raiseError e.1 e.2)) ∨
    (∃ e, ParamsLegal i s.cfg ∧ regionError i (usedRegions i s.cfg) = some e
      ∧ exec i s = .next (s.raiseError e.1 e.2)) ∨
    (ParamsLegal i s.cfg ∧ regionError i (usedRegions i s.cfg) = none ∧ ¬ BusAnswers i s
      ∧ exec i s = .next (s.busError (usedRegions i s.cfg) (failingBytes s.params (usedRegions i s.cfg)))) ∨
    (ParamsLegal i s.cfg ∧ regionError i (usedRegions i s.cfg) = none ∧ BusAnswers i s
      ∧ exec i s = .next (s.succeed (usedRegions i s.cfg) (resultOf i s))) := by
  rw [exec_eq_runCommand, runCommand]
  have hp := paramError_rowsOf_none_iff i s.cfg
  have hf := failingBytes_nil_iff i s
  cases hpe : paramError (rowsOf i s.cfg) with
  | some e => exact .inl ⟨e, rfl, fun h => by simp [hp.mpr h] at hpe, rfl⟩
  | none =>
    refine .inr ?_
    cases hre : regionError i (usedRegions i s.cfg) with
    | some e => exact .inl ⟨e, hp.mp hpe, rfl, rfl⟩
    | none =>
      refine .inr ?_
      cases hfb : failingBytes s.params (usedRegions i s.cfg) with
      | nil => exact .inr ⟨hp.mp hpe, rfl, hf.mp hfb, rfl⟩
      | cons b bs => exact .inl ⟨hp.mp hpe, rfl, fun h => by simp [hf.mpr h] at hfb, rfl⟩

/-- A command that passes its checks with a bus that answers completes with its result. -/
theorem exec_of_runsNormally {i : Instr} {s : State} (h : RunsNormally i s) :
    exec i s = .next (s.succeed (usedRegions i s.cfg) (resultOf i s)) := by
  obtain ⟨hp, h1, h2, h3, hb, -⟩ := h
  have hr := (regionError_none_iff i s.cfg).mpr ⟨h1, h2, h3⟩
  rcases exec_cases i s with ⟨e, -, hn, -⟩ | ⟨e, -, he, -⟩ | ⟨-, -, hn, -⟩ | ⟨-, -, -, h⟩
  · exact absurd hp hn
  · simp [hr] at he
  · exact absurd hb hn
  · exact h

/-- A completion changes only the completion's own fields, memory and the count of draws. -/
theorem exec_same {i : Instr} {s t : State} (h : exec i s = .next t) : SameBesidesCompletion s t := by
  rcases exec_cases i s with ⟨e, -, -, he⟩ | ⟨e, -, -, he⟩ | ⟨-, -, -, he⟩ | ⟨-, -, -, he⟩ <;>
    rw [he] at h <;> cases h
  · simp [SameBesidesCompletion]
  · simp [SameBesidesCompletion]
  · simp [SameBesidesCompletion, State.busError]
  · unfold State.succeed
    split <;> simp [SameBesidesCompletion]

/-- The region of an id, when the command uses it. -/
theorem mem_usedRegions (i : Instr) (c : CfgRegs) (r : Region) :
    r ∈ usedRegions i c ↔ regionLen i c r.id = some r.len ∧ r.base = (regionBase c r.id).toNat := by
  obtain ⟨id, base, len⟩ := r
  simp only [usedRegions, List.mem_filterMap, Option.map_eq_some_iff, Region.mk.injEq]
  constructor
  · rintro ⟨id', -, n, hn, rfl, rfl, rfl⟩
    exact ⟨hn, rfl⟩
  · rintro ⟨h1, h2⟩
    exact ⟨id, by cases id <;> simp, len, h1, rfl, h2.symm, rfl⟩

/-- Two used regions, one of them written, share no byte. -/
theorem regionsDisjoint_apart {i : Instr} {c : CfgRegs} (h : RegionsDisjoint i c) {r q : Region}
    (hr : r ∈ usedRegions i c) (hq : q ∈ usedRegions i c) (hne : r.id.number ≠ q.id.number)
    (hw : r.id.isWritten = true ∨ q.id.isWritten = true) {a : Nat} (ha : r.base ≤ a ∧ a < r.base + r.len) :
    ¬ (q.base ≤ a ∧ a < q.base + q.len) := by
  intro hb
  rcases Nat.lt_or_gt_of_ne hne with hlt | hlt
  · exact h r hr q hq ⟨hlt, hw, by omega, by omega⟩
  · exact h q hq r hr ⟨hlt, hw.symm, by omega, by omega⟩

/-- A command's result leaves every byte that the command does not write. -/
theorem resultOf_read_out {i : Instr} {s : State} {a : Nat} (h : ¬ WrittenByte i s.cfg a) :
    (resultOf i s).mem.read a = s.mem.read a := by
  have out : ∀ n, regionLen i s.cfg .out = some n →
      ¬ (s.cfg.outAddr.toNat ≤ a ∧ a < s.cfg.outAddr.toNat + n) := fun n hn hb =>
    h ⟨⟨.out, _, n⟩, (mem_usedRegions _ _ _).mpr ⟨hn, rfl⟩, rfl, hb.1, hb.2⟩
  have scrb : ∀ n, regionLen i s.cfg .scrb = some n →
      ¬ (s.cfg.scrbAddr.toNat ≤ a ∧ a < s.cfg.scrbAddr.toNat + n) := fun n hn hb =>
    h ⟨⟨.scrb, _, n⟩, (mem_usedRegions _ _ _).mpr ⟨hn, rfl⟩, rfl, hb.1, hb.2⟩
  cases i with
  | conv2d =>
    have h2 := scrb _ rfl
    rw [show 2 * s.cfg.k * s.cfg.k * s.cfg.ci * s.cfg.co = 2 * (s.cfg.k * s.cfg.k * s.cfg.ci * s.cfg.co) by ring] at h2
    rw [show (resultOf .conv2d s).mem = (conv2dResult s).mem from rfl, conv2dResult, Memory.read_fill_out _ _ (out _ rfl),
      Memory.read_fillHalf_out _ _ h2]
  | dwconv => exact Memory.read_fill_out _ _ (out _ rfl)
  | pwconv => exact Memory.read_fill_out _ _ (out _ rfl)
  | pwconvFast => exact Memory.read_fill_out _ _ (out _ rfl)
  | avgpool2x2 => exact Memory.read_fill_out _ _ (out _ rfl)

/-- A command's result keeps the canonical form of memory. -/
theorem resultOf_wf {i : Instr} {s : State} (hm : s.mem.wf) (h : RegionsFit i s.cfg) : (resultOf i s).mem.wf := by
  have out : ∀ n, regionLen i s.cfg .out = some n → n ≤ 2 ^ 32 - s.cfg.outAddr.toNat := fun n hn => by
    have := h ⟨.out, s.cfg.outAddr.toNat, n⟩ ((mem_usedRegions _ _ _).mpr ⟨hn, rfl⟩)
    simp only at this
    omega
  cases i with
  | conv2d =>
    have h2 := h ⟨.scrb, s.cfg.scrbAddr.toNat, _⟩ ((mem_usedRegions _ _ _).mpr ⟨rfl, rfl⟩)
    rw [show 2 * s.cfg.k * s.cfg.k * s.cfg.ci * s.cfg.co = 2 * (s.cfg.k * s.cfg.k * s.cfg.ci * s.cfg.co) by ring] at h2
    exact Memory.wf_fill (Memory.wf_fillHalf hm _ h2) _ (out _ rfl)
  | dwconv => exact Memory.wf_fill hm _ (out _ rfl)
  | pwconv => exact Memory.wf_fill hm _ (out _ rfl)
  | pwconvFast => exact Memory.wf_fill hm _ (out _ rfl)
  | avgpool2x2 => exact Memory.wf_fill hm _ (out _ rfl)

/-- A byte in no scratch-A region reads after a normal completion as the command's result has it. -/
theorem succeed_read {i : Instr} {s : State} (hs : s.spoiled = false) {a : Nat}
    (h : ∀ r ∈ usedRegions i s.cfg, r.id = .scra → ¬ (r.base ≤ a ∧ a < r.base + r.len)) :
    (s.succeed (usedRegions i s.cfg) (resultOf i s)).mem.read a = (resultOf i s).mem.read a := by
  unfold State.succeed
  rw [if_neg (by simp [hs]), State.complete_mem, State.havoc_mem]
  exact havocMemory_read_out fun r hr hp => h r hr (by simpa using hp)

/-- A byte of OUT or SCRB is no byte of SCRA. -/
theorem not_scra_of_written {i : Instr} {c : CfgRegs} (h : RegionsDisjoint i c) {q : Region} (hq : q ∈ usedRegions i c)
    (hne : q.id ≠ .scra) {a : Nat} (ha : q.base ≤ a ∧ a < q.base + q.len) :
    ∀ r ∈ usedRegions i c, r.id = .scra → ¬ (r.base ≤ a ∧ a < r.base + r.len) := by
  intro r hr hid hb
  refine regionsDisjoint_apart h hr hq ?_ (.inl (by rw [hid]; rfl)) hb ha
  rw [hid]
  revert hne
  cases q.id <;> simp [RegionId.number]

/-- Every completion leaves the bytes that the command does not write (20_memory.md R60). -/
theorem exec_read_out {i : Instr} {s t : State} (h : exec i s = .next t) {a : Nat} (ha : ¬ WrittenByte i s.cfg a) :
    t.mem.read a = s.mem.read a := by
  have hout : ∀ pick : RegionId → Bool, (∀ r, pick r = true → r.isWritten = true) → ∀ r ∈ usedRegions i s.cfg,
      pick r.id = true → ¬ (r.base ≤ a ∧ a < r.base + r.len) := fun pick hp r hr h1 hb =>
    ha ⟨r, hr, hp _ h1, hb.1, hb.2⟩
  rcases exec_cases i s with ⟨e, -, -, he⟩ | ⟨e, -, -, he⟩ | ⟨-, -, -, he⟩ | ⟨-, -, -, he⟩ <;>
    rw [he] at h <;> cases h
  · rfl
  · rfl
  · exact havocMemory_read_out (hout _ fun _ h => h)
  · unfold State.succeed
    split
    · exact havocMemory_read_out (hout _ fun _ h => h)
    · rw [State.complete_mem, State.havoc_mem, ← resultOf_read_out ha]
      refine havocMemory_read_out fun r hr hp => hout (fun r => r == .scra) (fun r h => ?_) r hr hp
      rw [show r = .scra by simpa using h]
      rfl

theorem paddedInput_eq_exactInput (s : State) (cx : Nat) (r c : Int) (ch : Nat) :
    paddedInput s cx r c ch = exactInput s.mem s.cfg cx r c ch := by
  unfold paddedInput exactInput inputByte sext8
  split
  · rename_i h
    obtain ⟨hr, -, hc, -⟩ := h
    obtain ⟨r, rfl⟩ := Int.eq_ofNat_of_zero_le hr
    obtain ⟨c, rfl⟩ := Int.eq_ofNat_of_zero_le hc
    congr 3
  · rfl

theorem biasTerm_eq_exactBias (s : State) (co : Nat) : biasTerm s co = exactBias s.mem s.cfg co := by
  simp [biasTerm, exactBias, sext8]

theorem conv2dAcc_eq_exact (s : State) (y x co : Nat) : conv2dAcc s y x co = exactConv2d s.mem s.cfg y x co := by
  simp only [conv2dAcc, exactConv2d, sumTo_eq_sum, biasTerm_eq_exactBias, paddedInput_eq_exactInput, weightAt, sext8]

theorem dwconvAcc_eq_exact (s : State) (y x ch : Nat) : dwconvAcc s y x ch = exactDwconv s.mem s.cfg y x ch := by
  simp only [dwconvAcc, exactDwconv, sumTo_eq_sum, paddedInput_eq_exactInput, weightAt, sext8]

theorem pointwiseAcc_eq_exact (s : State) (order : Nat → Nat → Nat) (p co : Nat) :
    pointwiseAcc s order p co = exactPointwise s.mem s.cfg order p co := by
  simp only [pointwiseAcc, exactPointwise, sumTo_eq_sum, biasTerm_eq_exactBias, inputByte, weightAt, sext8]

theorem poolValue_eq_exact (s : State) (oy ox ch : Nat) :
    poolValue s oy ox ch = exactPool s.mem s.cfg s.params.poolRound oy ox ch := rfl

/-- The flat offset of an element and its three coordinates (00_scope.md R9). -/
theorem flat_coordinates {d n y x c : Nat} (hx : x < d) (hc : c < n) :
    ((y * d + x) * n + c) / n / d = y ∧ ((y * d + x) * n + c) / n % d = x ∧ ((y * d + x) * n + c) % n = c := by
  have h1 : ((y * d + x) * n + c) / n = y * d + x := by
    rw [Nat.add_comm, Nat.add_mul_div_right _ _ (by omega), Nat.div_eq_of_lt hc, Nat.zero_add]
  have h2 : (y * d + x) / d = y := by
    rw [Nat.add_comm, Nat.add_mul_div_right _ _ (by omega), Nat.div_eq_of_lt hx, Nat.zero_add]
  refine ⟨by rw [h1, h2], by rw [h1, Nat.mul_comm, Nat.mul_add_mod, Nat.mod_eq_of_lt hx], ?_⟩
  rw [Nat.mul_comm, Nat.mul_add_mod, Nat.mod_eq_of_lt hc]

/-- The flat offset of an element lies inside its tensor. -/
theorem flat_lt {d e n y x c : Nat} (hy : y < e) (hx : x < d) (hc : c < n) : (y * d + x) * n + c < e * d * n := by
  have h1 : y * d + x + 1 ≤ e * d := by
    calc y * d + x + 1 ≤ y * d + d := by omega
      _ = (y + 1) * d := by ring
      _ ≤ e * d := Nat.mul_le_mul_right d hy
  calc (y * d + x) * n + c < (y * d + x) * n + n := by omega
    _ = (y * d + x + 1) * n := by ring
    _ ≤ e * d * n := Nat.mul_le_mul_right n h1

/-- Every flat offset inside a tensor is an element's. -/
theorem flat_surjective {d e n j : Nat} (h : j < e * d * n) :
    ∃ y x c, y < e ∧ x < d ∧ c < n ∧ j = (y * d + x) * n + c := by
  have hn : 0 < n := Nat.pos_of_ne_zero fun h0 => by simp [h0] at h
  have hd : 0 < d := Nat.pos_of_ne_zero fun h0 => by simp [h0] at h
  have h1 : j / n < e * d := (Nat.div_lt_iff_lt_mul hn).mpr h
  refine ⟨j / n / d, j / n % d, j % n, (Nat.div_lt_iff_lt_mul hd).mpr h1, Nat.mod_lt _ hd, Nat.mod_lt _ hn, ?_⟩
  rw [Nat.div_add_mod', Nat.div_add_mod']

/-- What a wrapping accumulator holds at the end (40_fixed_point.md R104). -/
theorem accumulate_eq (init : Int) (terms : List Int) : accumulate init terms = wrap32 (init + terms.sum) := by
  unfold accumulate
  induction terms generalizing init with
  | nil => simp
  | cons v terms ih => rw [List.foldl_cons, wrap32_add_wrap32, ih, List.sum_cons, Int.add_assoc]

end Sys2Proof.Machine
end

