-- ==== Sys2Proof/Laws/Agents.lean ====
section
/-! SUPPORT. Laws/Agents.lean: the steps of the host, the reset input and other bus masters, each operation said once, and
that each keeps the invariant. -/

namespace Sys2Proof.Machine

/-- Every register's offset names that register (10_state.md R22). -/
@[simp] theorem Reg.ofOffset_offset (r : Reg) : Reg.ofOffset r.offset = some r := by
  cases r <;> rfl

/-- Every register's offset is 4-byte aligned, so a 32-bit access to it is answered. -/
@[simp] theorem goodAccess_offset (r : Reg) : goodAccess r.offset .word = true := by
  cases r <;> rfl

/-- `wr REG, v` is a register write with no bus error. -/
theorem regStore_offset (r : Reg) (v : Word) (s : State) :
    s.regStore r.offset .word v = (s.regWrite r v).answered := by
  simp [State.regStore]

/-- `rd REG` loads the register into `t`, but for a reserved error code. -/
theorem regLoad_offset (r : Reg) (s : State) :
    s.regLoad r.offset .word =
      if r = .errCode ∧ 9#4 < s.errCode then .fault .reservedErrorCode
      else .next (s.loaded (s.regRead r)) := by
  simp [State.regLoad]

/-- An access that is not an aligned 32-bit access changes no register of the block (10_state.md R38). -/
theorem regStore_bad {off : BitVec 8} {width : AccessWidth} (h : goodAccess off width = false) (v : Word) (s : State) :
    s.regStore off width v = s.busErrored := by
  simp [State.regStore, h]

/-- Everything a register write can do. -/
theorem regWrite_cases (r : Reg) (v : Word) (s : State) :
    s.regWrite r v = s ∨
    (r = .ctrl ∧ v.getLsbD 1 = true ∧ s.regWrite r v = s.blockReset) ∨
    (r = .ctrl ∧ v.getLsbD 1 = false ∧ s.regWrite r v = { s with ctrlIrqEn := v.getLsbD 0 }) ∨
    (r = .status ∧ s.regWrite r v = s.clearStatus v) ∨
    (s.busy = true ∧ s.regWrite r v = s.noteWriteBusy) ∨
    (r = .cmd ∧ s.busy = false ∧ s.regWrite r v = s.launch v) ∨
    (r.isConfig = true ∧ s.busy = false ∧ s.regWrite r v = { s with cfg := s.cfg.set r v }) := by
  by_cases hr : r = .ctrl
  · subst hr
    by_cases hv : v.getLsbD 1 = true
    · exact .inr (.inl ⟨rfl, hv, if_pos hv⟩)
    · exact .inr (.inr (.inl ⟨rfl, by simpa using hv, if_neg hv⟩))
  · cases r <;> first
      | exact absurd rfl hr
      | cases hb : s.busy <;> simp [State.regWrite, hb, Reg.isConfig]

/-- Everything a host load from the block can do, but for the stuck read of a reserved error code. -/
theorem regLoad_cases (off : BitVec 8) (width : AccessWidth) (s : State) :
    (s.regLoad off width = .fault .reservedErrorCode ∧ 9#4 < s.errCode) ∨
    (∃ v, s.regLoad off width = .next (s.loaded v)) ∨
    (goodAccess off width = false ∧
      s.regLoad off width = .next (s.busErrored.loadedFree (Config.freeWord s.freeCount))) := by
  unfold State.regLoad
  split
  · split
    · split
      · rename_i h
        exact .inl ⟨rfl, h.2⟩
      · exact .inr (.inl ⟨_, rfl⟩)
    · exact .inr (.inl ⟨_, rfl⟩)
  · rename_i h
    exact .inr (.inr ⟨by simpa using h, rfl⟩)

theorem inv_clearStatus {s : State} (h : s.Inv) (v : Word) : (s.clearStatus v).Inv where
  memWf := h.memWf
  phase := h.phase
  busyClear := fun hb => by
    obtain ⟨h1, h2, h3, h4, h5⟩ := h.busyClear hb
    simp [h1, h2, h3, h4, h5]
  codeLegal := h.codeLegal
  errHasCode := fun he => h.errHasCode (by simp at he; exact he.1)
  infoOfNone := h.infoOfNone
  spoiledFaulted := h.spoiledFaulted
  abnormalSpoiled := h.abnormalSpoiled

theorem inv_noteWriteBusy {s : State} (h : s.Inv) : s.noteWriteBusy.Inv :=
  ⟨h.memWf, h.phase, h.busyClear, h.codeLegal, h.errHasCode, h.infoOfNone, h.spoiledFaulted, h.abnormalSpoiled⟩

theorem inv_launch {s : State} (h : s.Inv) (w : Word) : (s.launch w).Inv where
  memWf := h.memWf
  phase := rfl
  busyClear := fun _ => ⟨rfl, rfl, rfl, rfl, rfl⟩
  codeLegal := by simp
  errHasCode := fun he => by simp at he
  infoOfNone := fun _ => rfl
  spoiledFaulted := fun hs => ⟨rfl, by simpa using .inr hs⟩
  abnormalSpoiled := fun hs => hs

theorem inv_resetBlock {s : State} (h : s.Inv) : s.resetBlock.Inv where
  memWf := h.memWf
  phase := rfl
  busyClear := fun hb => by simp at hb
  codeLegal := by simp
  errHasCode := fun he => by simp at he
  infoOfNone := fun _ => rfl
  spoiledFaulted := fun hs => by simp at hs
  abnormalSpoiled := fun hs => by simp [State.liveRegions, regionsNotNormal] at hs

theorem inv_havoc {s : State} (h : s.Inv) (rs : List Region) (pick : RegionId → Bool) : (s.havoc rs pick).Inv :=
  ⟨havocMemory_wf h.memWf _ _ _, h.phase, h.busyClear, h.codeLegal, h.errHasCode, h.infoOfNone, h.spoiledFaulted, h.abnormalSpoiled⟩

theorem inv_blockReset {s : State} (h : s.Inv) : s.blockReset.Inv := by
  unfold State.blockReset
  obtain ⟨-, ha⟩ | ⟨-, ha⟩ := s.abort_cases <;> rw [ha]
  · exact inv_resetBlock h
  · exact inv_resetBlock (inv_havoc h _ _)

/-- A completion keeps the invariant when memory is canonical and its detail is 0 without an error. -/
theorem inv_complete {s : State} (hm : s.mem.wf) (code : ErrCode) (info : Word) (ovf : Bool)
    (hi : code = .none → info = 0#32) : (s.complete code info ovf).Inv where
  memWf := hm
  phase := rfl
  busyClear := fun hb => by simp at hb
  codeLegal := by
    rw [State.complete_errCode]
    cases code <;> decide
  errHasCode := fun he => by
    rw [State.complete_err] at he
    rw [State.complete_errCode]
    cases code <;> simp_all [ErrCode.bits]
  infoOfNone := fun hc => by
    rw [State.complete_errCode] at hc
    exact hi (by cases code <;> simp_all [ErrCode.bits])
  spoiledFaulted := fun hs => by simp at hs
  abnormalSpoiled := fun hs => by simp [State.liveRegions, regionsNotNormal] at hs

theorem inv_raceMark {s : State} (h : s.Inv) (a : Word) : (s.raceMark a).Inv where
  memWf := h.memWf
  phase := h.phase
  busyClear := h.busyClear
  codeLegal := h.codeLegal
  errHasCode := h.errHasCode
  infoOfNone := h.infoOfNone
  spoiledFaulted := fun hs => by
    simp only [State.raceMark_spoiled, Bool.or_eq_true] at hs
    simp only [State.raceMark_busy, State.raceMark_faulted, Bool.or_eq_true]
    rcases hs with hs | hs
    · exact ⟨(h.spoiledFaulted hs).1, .inl (h.spoiledFaulted hs).2⟩
    · refine ⟨?_, .inr hs⟩
      by_contra hb
      simp [State.liveRegions, hb, inRegions] at hs
  abnormalSpoiled := fun hs => by
    rw [State.raceMark_spoiled, h.abnormalSpoiled hs, Bool.true_or]

theorem inv_raceStore {s : State} (h : s.Inv) (a : Word) (b : Byte) : (s.raceStore a b).Inv :=
  have m := inv_raceMark h a
  ⟨Memory.wf_write h.memWf a.isLt b, m.phase, m.busyClear, m.codeLegal, m.errHasCode, m.infoOfNone, m.spoiledFaulted,
    m.abnormalSpoiled⟩

theorem inv_busMasterStore {s : State} (h : s.Inv) (a : Word) (b : Byte) : (s.busMasterStore a b).Inv := by
  unfold State.busMasterStore
  split
  · exact inv_raceMark h a
  · exact inv_raceStore h a b

theorem inv_regWrite {s : State} (h : s.Inv) (r : Reg) (v : Word) : (s.regWrite r v).Inv := by
  rcases regWrite_cases r v s with e | ⟨-, -, e⟩ | ⟨-, -, e⟩ | ⟨-, e⟩ | ⟨-, e⟩ | ⟨-, -, e⟩ | ⟨-, hb, e⟩ <;> rw [e]
  · exact h
  · exact inv_blockReset h
  · exact ⟨h.memWf, h.phase, h.busyClear, h.codeLegal, h.errHasCode, h.infoOfNone, h.spoiledFaulted, h.abnormalSpoiled⟩
  · exact inv_clearStatus h v
  · exact inv_noteWriteBusy h
  · exact inv_launch h v
  · exact ⟨h.memWf, h.phase, h.busyClear, h.codeLegal, h.errHasCode, h.infoOfNone, h.spoiledFaulted,
      fun hs => by simp [State.liveRegions, hb, regionsNotNormal] at hs⟩

/-- What a reset leaves of memory (70_reset_and_hazards.md R192). -/
theorem abortedMemory_blockReset (s : State) : AbortedMemory s s.blockReset := by
  refine ⟨fun hb => ?_, fun w i hb hp hd a ha => ?_, fun w e hp he => ?_⟩ <;> rw [State.blockReset_mem] <;> unfold State.abort
  · rw [if_neg (by simp [hb])]
  · rw [if_pos hb, State.havoc_mem, havocMemory_read, if_neg]
    rw [show s.liveRegions = usedRegions i s.cfg by simp [State.liveRegions, hb, hp, wordRegions, hd]]
    rintro ⟨⟨r, hr, h1, h2, h3⟩, hin⟩
    rcases ha with ha | ⟨q, hq, hq1, hq2⟩
    · exact ha ⟨r, hr, h1, h2, lt_of_lt_of_le h3 (Nat.add_le_add_left (Nat.min_le_left _ _) _)⟩
    · simp only [inRegions, List.any_eq_false] at hin
      exact hin q (by simp [hq, hq1]) hq2
  · split
    · rename_i hb
      rw [State.havoc_mem, show s.liveRegions = [] by simp [State.liveRegions, hp, wordRegions, he]]
      rfl
    · rfl

/-- The register block's test, as a range of addresses (20_memory.md R51). -/
theorem inRegisterBlock_iff (p : Params) (a : Word) : inRegisterBlock p a = true ↔ BlockAddress p a := by
  rw [inRegisterBlock, beq_iff_eq, ← BitVec.toNat_inj, BitVec.extractLsb'_toNat, Nat.shiftRight_eq_div_pow, BlockAddress]
  have := a.isLt
  omega

/-- The device test, as ranges of addresses (20_memory.md R57). -/
theorem isDevice_iff (p : Params) (a : Word) : isDevice p a = true ↔ DeviceAddress p a := by
  simp [isDevice, DeviceAddress]

/-- A store outside the running command's regions is no race, and marks nothing (20_memory.md R72). -/
theorem raceMark_outside {a : Word} {s : State} (h : inRegions s.liveRegions a.toNat = false) : s.raceMark a = s := by
  simp [State.raceMark, h]

/-- A store to a used region marks the launch (20_memory.md R72). -/
theorem raceMark_inside {a : Word} {s : State} (h : inRegions s.liveRegions a.toNat = true) :
    s.raceMark a = { s with faulted := true, spoiled := true } := by
  simp [State.raceMark, h]

/-- A used region that holds a byte of the register block or of a device is outside normal memory (20_memory.md R57). -/
theorem regionsNotNormal_of_access {a : Word} {s : State} (hr : inRegions s.liveRegions a.toNat = true)
    (ha : BlockAddress s.params a ∨ DeviceAddress s.params a) : regionsNotNormal s.params s.liveRegions = true := by
  obtain ⟨r, hr, h1, h2⟩ := (inRegions_iff _ _).mp hr
  rw [regionsNotNormal, List.any_eq_true]
  refine ⟨r, hr, ?_⟩
  rw [Bool.or_eq_true, List.any_eq_true]
  rcases ha with ⟨h3, h4⟩ | ⟨q, hq, h3, h4⟩
  · left
    have e : (s.params.enginePage ++ 0#8).toNat = s.params.enginePage.toNat * 256 := by
      rw [BitVec.toNat_append, Nat.shiftLeft_eq]
      simp
    simp only [Region.touches, registerBlock, e, Bool.and_eq_true, decide_eq_true_eq]
    omega
  · right
    refine ⟨q, hq, ?_⟩
    simp only [Region.touches, Bool.and_eq_true, decide_eq_true_eq]
    omega

/-- A race at a byte of the register block or of a device finds its launch already marked (20_memory.md R57, R72), so the
mark changes nothing there. -/
theorem raceMark_abnormal {a : Word} {s : State} (h : s.Inv) (ha : BlockAddress s.params a ∨ DeviceAddress s.params a) :
    s.raceMark a = s := by
  cases hr : inRegions s.liveRegions a.toNat
  · exact raceMark_outside hr
  · have hs := h.abnormalSpoiled (regionsNotNormal_of_access hr ha)
    have hf := (h.spoiledFaulted hs).2
    rw [raceMark_inside hr]
    cases s
    simp_all

/-- Everything a host byte store can do: a bus error, a refusal, the mark of a race at a device, or the store. -/
theorem storeByte_cases (a : Word) (b : Byte) (s : State) :
    (BlockAddress s.params a ∧ s.storeByte a b = .next s.busErrored) ∨
    (¬ BlockAddress s.params a ∧ ¬ DeviceAddress s.params a ∧ s.storeByte a b = .next (s.raceStore a b).answered) ∨
    (¬ BlockAddress s.params a ∧ DeviceAddress s.params a ∧ inRegions s.liveRegions a.toNat = true ∧
      s.storeByte a b = .next (s.raceMark a).answered) ∨
    (¬ BlockAddress s.params a ∧ DeviceAddress s.params a ∧ inRegions s.liveRegions a.toNat = false ∧
      s.storeByte a b = .refused .deviceAccess) := by
  simp only [State.storeByte, ← inRegisterBlock_iff, ← isDevice_iff]
  cases inRegisterBlock s.params a <;> cases isDevice s.params a <;> cases inRegions s.liveRegions a.toNat <;>
    simp [regStore_bad (width := .byte) (Bool.false_and _)]

/-- Everything a host byte load can do: a bus error, the draw of a race, a refusal, or the byte. -/
theorem loadByte_cases (a : Word) (s : State) :
    (BlockAddress s.params a ∧ s.loadByte a = .next (s.busErrored.loadedFree (Config.freeWord s.freeCount))) ∨
    (¬ BlockAddress s.params a ∧ inRegions s.liveRegions a.toNat = true ∧
      s.loadByte a = .next (s.answered.loadedFree ((Config.freeByte s.freeCount a.toNat).setWidth 32))) ∨
    (¬ BlockAddress s.params a ∧ DeviceAddress s.params a ∧ inRegions s.liveRegions a.toNat = false ∧
      s.loadByte a = .refused .deviceAccess) ∨
    (¬ BlockAddress s.params a ∧ ¬ DeviceAddress s.params a ∧ inRegions s.liveRegions a.toNat = false ∧
      s.loadByte a = .next (s.loaded ((s.mem.read a.toNat).setWidth 32))) := by
  simp only [State.loadByte, ← inRegisterBlock_iff, ← isDevice_iff]
  cases inRegisterBlock s.params a <;> cases isDevice s.params a <;> cases inRegions s.liveRegions a.toNat <;>
    simp [State.regLoad, goodAccess]

/-- Everything another master's store can do: the mark of a race, or the store with it. -/
theorem busMasterStore_cases (a : Word) (b : Byte) (s : State) :
    ((BlockAddress s.params a ∨ DeviceAddress s.params a) ∧ s.busMasterStore a b = s.raceMark a) ∨
    (¬ BlockAddress s.params a ∧ ¬ DeviceAddress s.params a ∧ s.busMasterStore a b = s.raceStore a b) := by
  unfold State.busMasterStore
  split
  · rename_i h
    rw [Bool.or_eq_true, inRegisterBlock_iff, isDevice_iff] at h
    exact .inl ⟨h, rfl⟩
  · rename_i h
    rw [Bool.or_eq_true, inRegisterBlock_iff, isDevice_iff, not_or] at h
    exact .inr ⟨h.1, h.2, rfl⟩

end Sys2Proof.Machine
end

