-- ==== Sys2Proof/Laws/Lanes.lean ====
section
/-! SUPPORT. Laws/Lanes.lean: a lane of a packed word is what was packed there (40_fixed_point.md R108). -/

namespace Sys2Proof.Machine

/-- A field inside the low part of a concatenation. -/
theorem extract_append_low {m n : Nat} (x : BitVec m) (y : BitVec n) {k l : Nat} (h : k + l ≤ n) :
    (x ++ y).extractLsb' k l = y.extractLsb' k l :=
  BitVec.extractLsb'_append_eq_of_add_le h

/-- A field inside the high part of a concatenation. -/
theorem extract_append_high {m n : Nat} (x : BitVec m) (y : BitVec n) {k l : Nat} (h : n ≤ k) :
    (x ++ y).extractLsb' k l = x.extractLsb' (k - n) l :=
  BitVec.extractLsb'_append_eq_of_le h

theorem byteLane_packBytes (f : Nat → Byte) {n : Nat} (hn : n < 4) : byteLane (packBytes f) n = f n := by
  interval_cases n
  · exact (extract_append_low _ _ (by omega)).trans (by simp)
  · exact (extract_append_high _ _ (by omega)).trans ((extract_append_low _ _ (by omega)).trans (by simp))
  · exact (extract_append_high _ _ (by omega)).trans ((extract_append_high _ _ (by omega)).trans
      ((extract_append_low _ _ (by omega)).trans (by simp)))
  · exact (extract_append_high _ _ (by omega)).trans ((extract_append_high _ _ (by omega)).trans
      ((extract_append_high _ _ (by omega)).trans (by simp)))

theorem halfLane_packHalves (f : Nat → Half) {n : Nat} (hn : n < 2) : halfLane (packHalves f) n = f n := by
  interval_cases n
  · exact (extract_append_low _ _ (by omega)).trans (by simp)
  · exact (extract_append_high _ _ (by omega)).trans (by simp)

end Sys2Proof.Machine
end

