-- ==== Sys2Proof/Laws/PerInstr.lean ====
section
/-! SUPPORT. Laws/PerInstr.lean: facts stated once per command, about the command as a word. -/

namespace Sys2Proof.Laws.DistinctWords

/-- The command's word has zero in RSV and a known OP, and is no other command's word (30_encoding.md R80, R81). -/
def Statement (i : Instr) : Prop := wordWellFormed (encode i) = true ∧ ∀ j : Instr, encode j = encode i → j = i

theorem conv2d : Statement .conv2d := ⟨by decide, fun j h => by cases j <;> first | rfl | exact absurd h (by decide)⟩

theorem dwconv : Statement .dwconv := ⟨by decide, fun j h => by cases j <;> first | rfl | exact absurd h (by decide)⟩

theorem pwconv : Statement .pwconv := ⟨by decide, fun j h => by cases j <;> first | rfl | exact absurd h (by decide)⟩

theorem pwconvFast : Statement .pwconvFast :=
  ⟨by decide, fun j h => by cases j <;> first | rfl | exact absurd h (by decide)⟩

theorem avgpool2x2 : Statement .avgpool2x2 :=
  ⟨by decide, fun j h => by cases j <;> first | rfl | exact absurd h (by decide)⟩

end Sys2Proof.Laws.DistinctWords
end

