-- ==== Sys2Proof/Tests/Slice0.lean ====
section
/-! SUPPORT. Tests/Slice0.lean: the model's own tests. Expected values come from 95_test_vectors.md, from the encoding
tables and by hand from the rules, never from the model. A theorem named witness_* shows a state and operands that meet
the hypotheses of the obligation it is named for. -/

namespace Sys2Proof.Tests

open Sys2Proof Sys2Proof.Machine

/-! ## Helpers -/

/-- The outcome is a next state with the property. -/
def nextHas (o : Host.Outcome State Fault Refusal) (p : State → Bool) : Bool :=
  match o with
  | .next t => p t
  | .fault _ => false
  | .refused _ => false

/-- Stores signed bytes from an address up. -/
def store (a : Nat) : List Int → Memory → Memory
  | [], m => m
  | v :: rest, m => store (a + 1) rest (m.write a (BitVec.ofInt 8 v))

/-- Signed bytes read from an address up. -/
def load (m : Memory) (a n : Nat) : List Int := (List.range n).map fun k => (m.read (a + k)).toInt

/-- A command running on a configuration and a memory. -/
def running (i : Instr) (c : CfgRegs) (m : Memory) : State :=
  { State.reset with cfg := c, mem := m, busy := true, pending := some (encode i) }

/-- An idle machine whose host has one access to make. -/
def hostHas (op : HostOp) : State := { State.reset with program := [op] }

/-- V-C1 of 95_test_vectors.md, output shift 0. -/
def convCfg : CfgRegs :=
  { CfgRegs.reset with
    dim := 2, cin := 2, cout := 2, ksize := 1, biasShift := 1, inAddr := 0x1000, wAddr := 0x1100, biasAddr := 0x1200
    outAddr := 0x2000, scraAddr := 0x3000, scrbAddr := 0x3100 }

def convMem : Memory := store 0x1000 [1, 2, 3, 4, -5, 6, 7, -8] (store 0x1100 [1, -1, 2, 3] (store 0x1200 [1, -2] []))

def conv : State := running .conv2d convCfg convMem

/-- V-D2: K = 1, C = 5, output shift 1. -/
def dwCfg : CfgRegs :=
  { CfgRegs.reset with
    dim := 2, cin := 5, ksize := 1, outShift := 1, inAddr := 0x1000, wAddr := 0x1100, outAddr := 0x2000
    scraAddr := 0x3001 }

def dwMem : Memory :=
  store 0x1000 [1, -3, 100, -100, 127, 2, 2, 2, 2, 2, -1, -1, -1, -1, -1, 0, 0, 0, 0, 0] (store 0x1100 [1, 1, 2, -2, -1] [])

def dw : State := running .dwconv dwCfg dwMem

/-- V-P1: D = 1, Cin = 3, Cout = 2. -/
def pwCfg : CfgRegs :=
  { CfgRegs.reset with
    dim := 1, cin := 3, cout := 2, biasShift := 1, outShift := 1, inAddr := 0x1000, wAddr := 0x1100, biasAddr := 0x1200
    outAddr := 0x2000, scraAddr := 0x3000 }

def pwMem : Memory := store 0x1000 [1, 2, 3] (store 0x1100 [1, -1, 2, 0, 3, 1] (store 0x1200 [1, -1] []))

def pw : State := running .pwconv pwCfg pwMem

/-- V-F1: D = 1, Cin = 4, Cout = 2, output shift 2. -/
def fastCfg : CfgRegs :=
  { CfgRegs.reset with
    dim := 1, cin := 4, cout := 2, outShift := 2, inAddr := 0x1000, wAddr := 0x1100, biasAddr := 0x1200
    outAddr := 0x2000, scraAddr := 0x3000 }

def fastMem : Memory := store 0x1000 [10, 20, 30, 40] (store 0x1100 [1, 3, 2, 4, -1, -3, -2, -4] [])

def fast : State := running .pwconvFast fastCfg fastMem

/-- One 2x2 block of four channels: blocks (0,1,0,0), (-1,0,0,0), (127,-128,127,-128), (0,1,4,5) of V-A2. -/
def poolCfg : CfgRegs := { CfgRegs.reset with dim := 2, cin := 4, inAddr := 0x1000, outAddr := 0x2000 }

def poolMem : Memory := store 0x1000 [0, -1, 127, 0, 1, 0, -128, 1, 0, 0, 127, 4, 0, 0, -128, 5] []

def pool : State := running .avgpool2x2 poolCfg poolMem

/-! ## WellFormed refuses ill-formed terms -/

theorem test_word_with_reserved_bit_refused : wordReservedZero 0x00000011#32 = false := by decide

theorem test_word_with_top_bit_refused : wordWellFormed 0x80000001#32 = false := by decide

theorem test_op_zero_refused : wordOpcodeKnown 0x00000000#32 = false := by decide

theorem test_op_six_refused : wordWellFormed 0x00000006#32 = false := by decide

theorem test_fast_row_short_refused : FastRow.wellFormed ⟨4, 2, [0, 1, 2, 3, 4, 5, 6]⟩ = false := by decide

theorem test_fast_row_repeated_refused : FastRow.wellFormed ⟨4, 2, [0, 1, 2, 3, 4, 5, 6, 6]⟩ = false := by decide

theorem test_fast_row_out_of_range_refused : FastRow.wellFormed ⟨4, 2, [0, 1, 2, 3, 4, 5, 6, 8]⟩ = false := by decide

theorem test_range_past_top_refused : AddrRange.wellFormed ⟨0xFFFFFFFF, 2⟩ = false := by decide

theorem test_params_with_bad_range_refused :
    Params.wellFormed { Params.default with devices := [⟨0xFFFFFFFF, 2⟩] } = false := by decide

theorem test_default_params_accepted : Params.default.wellFormed = true := by decide

/-! ## Decoding: words written out bit by bit from 30_encoding.md R80, R81 -/

theorem test_decode_conv2d : decode 0b00000000000000000000000000000001#32 = .ok .conv2d := by rfl

theorem test_decode_dwconv : decode 0b00000000000000000000000000000010#32 = .ok .dwconv := by rfl

theorem test_decode_pwconv : decode 0b00000000000000000000000000000011#32 = .ok .pwconv := by rfl

theorem test_decode_pwconvFast : decode 0b00000000000000000000000000000100#32 = .ok .pwconvFast := by rfl

theorem test_decode_avgpool2x2 : decode 0b00000000000000000000000000000101#32 = .ok .avgpool2x2 := by rfl

theorem test_decode_refuses_op_zero : decode 0b00000000000000000000000000000000#32 = .error .reservedOpcode := by rfl

theorem test_decode_refuses_op_six : decode 0b00000000000000000000000000000110#32 = .error .reservedOpcode := by rfl

theorem test_decode_refuses_op_fifteen : decode 0b00000000000000000000000000001111#32 = .error .reservedOpcode := by rfl

theorem test_decode_refuses_bit_four : decode 0b00000000000000000000000000010001#32 = .error .reservedBits := by rfl

theorem test_decode_refuses_bit_thirty_one : decode 0b10000000000000000000000000000010#32 = .error .reservedBits := by rfl

theorem test_table_words :
    [1, 2, 3, 4, 5, 6].map (decodeTableWord 32) =
      [some .conv2d, some .dwconv, some .pwconv, some .pwconvFast, some .avgpool2x2, none] := by rfl

/-! ## Arithmetic: V-R1, V-R2, L1-4, V-F3 -/

theorem test_requant_floor :
    [(-3, 1), (-1, 1), (3, 1), (-128, 7), (2147483647, 31), (-2147483648, 31), (255, 1), (-258, 1)].map
      (fun q => requant false q.1 q.2) = [-2, -1, 1, -1, 0, -1, 127, -128] := by decide

theorem test_requant_round :
    [(-3, 1), (-1, 1), (3, 1), (-128, 7), (2147483647, 31), (-2147483648, 31), (255, 1), (-258, 1)].map
      (fun q => requant true q.1 q.2) = [-1, 0, 2, -1, -1, -1, 127, -128] := by decide

theorem test_requant_saturates :
    [(256, 1), (-257, 1), (-256, 1), (1000, 0), (-1000, 0), (127, 0), (-128, 0)].map (fun q => requant false q.1 q.2) =
      [127, -128, -128, 127, -128, 127, -128] := by decide

theorem test_overflow_of_rounding :
    overflows true 2147483647 31 = true ∧ overflows false 2147483647 31 = false ∧ overflows false 2147483648 0 = true := by
  decide

theorem test_hadd_up :
    [(127, 127), (-128, -128), (-1, 0), (1, 2), (-2, -1), (127, -128)].map (fun q => hadd true q.1 q.2) =
      [127, -128, 0, 2, -1, 0] := by decide

theorem test_hadd_down :
    [(127, 127), (-128, -128), (-1, 0), (1, 2), (-2, -1), (127, -128)].map (fun q => hadd false q.1 q.2) =
      [127, -128, -1, 1, -2, -1] := by decide

theorem test_rhoSpec_first_columns :
    (List.range 8).map (fun ci => [rhoSpec 8 ci 0, rhoSpec 8 ci 1, rhoSpec 8 ci 2, rhoSpec 8 ci 3]) =
      [[0, 4, 16, 20], [2, 6, 18, 22], [1, 5, 17, 21], [3, 7, 19, 23], [8, 12, 24, 28], [10, 14, 26, 30],
        [9, 13, 25, 29], [11, 15, 27, 31]] := by decide

/-- Lanes 0x7F, 0x80, 0xFF, 0x01 and 0x7F, 0x80, 0x00, 0x02, low first: halving adds 127, -128, 0, 2. -/
theorem test_halvingAddRound : halvingAddRound true 0x01FF807F#32 0x0200807F#32 = 0x0200807F#32 := by decide

theorem test_packedAddSaturating8 : packedAddSaturating8 0x01FF807F#32 0x0200807F#32 = 0x03FF807F#32 := by decide

/-! ## Results -/

/-- V-C1: OUT. -/
theorem test_conv2d_out : load (conv2dResult conv).mem 0x2000 8 = [7, 1, 13, 5, 9, 19, -7, -35] := by decide

/-- V-C7: scratch B. -/
theorem test_conv2d_scratch_b : load (conv2dResult conv).mem 0x3100 8 = [1, 0, -1, -1, 2, 0, 3, 0] := by decide

/-- V-D2: OUT. -/
theorem test_dwconv_out :
    load (dwconvResult dw).mem 0x2000 20 =
      [0, -2, 100, 100, -64, 1, 1, 2, -2, -1, -1, -1, -1, 1, 0, 0, 0, 0, 0, 0] := by decide

/-- V-D1 at the corner, the edge and the centre: D = 4, C = 1, K = 3, P = 1, all ones. -/
theorem test_dwconv_padding :
    let s := running .dwconv
      { CfgRegs.reset with dim := 4, cin := 1, ksize := 3, pad := 1, inAddr := 0x1000, wAddr := 0x1100 }
      (store 0x1000 [1, 1, 1, 1, 1, 1, 1, 1, 1, 1, 1, 1, 1, 1, 1, 1] (store 0x1100 [1, 1, 1, 1, 1, 1, 1, 1, 1] []))
    [dwconvAcc s 0 0 0, dwconvAcc s 0 1 0, dwconvAcc s 1 1 0, dwconvAcc s 3 3 0] = [4, 6, 9, 4] := by decide

/-- V-P1: OUT. -/
theorem test_pwconv_out : load (pwconvResult pw).mem 0x2000 2 = [8, 0] := by decide

/-- V-P3: a negative floor. -/
theorem test_pwconv_negative_floor :
    load (pwconvResult (running .pwconv { pwCfg with cin := 2, cout := 1, biasShift := 0, outShift := 3 }
      (store 0x1000 [-1, 0] (store 0x1100 [1, 0] (store 0x1200 [-128] []))))).mem 0x2000 1 = [-17] := by decide

/-- V-F1: OUT. -/
theorem test_pwconvFast_out : load (pwconvFastResult fast).mem 0x2000 2 = [75, -75] := by decide

/-- V-F2: natural bytes read as reordered. -/
theorem test_pwconvFast_reads_reordered :
    load (pwconvFastResult { fast with mem := store 0x1100 [1, -1, 2, -2, 3, -3, 4, -4] fastMem }).mem 0x2000 2 =
      [-15, -35] := by decide

/-- V-A2: the cascade, by the whole step from BUSY. -/
theorem test_avgpool2x2_out :
    nextHas (step pool) (fun t => load t.mem 0x2000 4 == [1, 0, 0, 3] && statusWord t == 0x2#32) = true := by decide

/-- V-A2 with POOL_ROUND = 0. -/
theorem test_avgpool2x2_round_down :
    load (avgpoolResult { pool with params := { Params.default with poolRound := false } }).mem 0x2000 4 =
      [0, -1, -1, 2] := by decide

/-- V-C6 and P5: an overflow sets ACC_OVF and STATUS reads 0xA. -/
theorem test_conv2d_overflow :
    nextHas (step (running .conv2d { convCfg with biasShift := 31 } (store 0x1200 [127, -128] [])))
      (fun t => statusWord t == 0xA#32 && t.errCode == 0#4) = true := by decide

/-- P4: a write of DIM while BUSY is dropped and sets WR_BUSY. -/
theorem test_write_while_busy :
    nextHas (step { conv with program := [.wr .dim 8#32], schedule := [.host] })
      (fun t => statusWord t == 0x11#32 && t.cfg.dim == 2#16) = true := by decide

/-- The example of 30_encoding.md R88, from its text. -/
theorem test_assembler_example :
    (parseLine ['a', 'v', 'g', 'p', 'o', 'o', 'l', '2', 'x', '2', ' ', 'd', '=', '4', ',', ' ', 'c', '=', '4', ',', ' ',
      'i', 'n', '=', '0', 'x', '1', '0', '0', '0', ',', ' ', 'o', 'u', 't', '=', '0', 'x', '2', '0', '0', '0']).toOption.bind
        (fun l => (assemble l).toOption.map writePairs) =
      some [(0x18#8, 4#32), (0x1C#8, 4#32), (0x34#8, 0x1000#32), (0x40#8, 0x2000#32), (0x0C#8, 5#32)] := by
  decide

/-- A line of P2: `poll STATUS, 0x2, 0x2 ; x`. -/
theorem test_assembler_poll :
    parseLine ['p', 'o', 'l', 'l', ' ', 'S', 'T', 'A', 'T', 'U', 'S', ',', ' ', '0', 'x', '2', ',', ' ', '2', ' ', ';', 'x'] =
      .ok [.poll .status 2#32 2#32] := by rfl

/-- A line of P1: `mem.b 0x1200, 1,-2`. -/
theorem test_assembler_memB :
    (parseLine ['m', 'e', 'm', '.', 'b', ' ', '0', 'x', '1', '2', '0', '0', ',', ' ', '1', ',', '-', '2']).toOption.bind
        (fun l => (assemble l).toOption) =
      some [.storeByte 0x1200#32 1#8, .storeByte 0x1201#32 0xFE#8] := by decide

/-! ## Witnesses: states and operands that meet the obligations' hypotheses -/

theorem witness_DecodeFollowsTheOpcodeMap :
    (0x00000010#32).toNat / 16 ≠ 0 ∧ (0x80000001#32).toNat / 16 ≠ 0 ∧
      [0, 1, 2, 3, 4, 5, 6, 15].all (fun n => (BitVec.ofNat 32 n).toNat / 16 == 0) = true := by decide

/-- A legal and an illegal pending word, each with an empty schedule and with the engine's turn next. -/
theorem witness_StepRunsTheDecodedCommand :
    conv.busy = true ∧ conv.pending = some 1#32 ∧ decode 1#32 = .ok .conv2d ∧ conv.schedule = [] ∧
      ({ conv with schedule := [.engine] } : State).schedule = .engine :: [] ∧
      ({ conv with pending := some 6#32 } : State).pending = some 6#32 ∧ decode 6#32 = .error .reservedOpcode ∧
      nextHas (step { conv with pending := some 6#32 }) (fun t => t.errCode == 1#4 && t.errInfo == 6#32) = true :=
  ⟨rfl, rfl, rfl, rfl, rfl, rfl, rfl, by decide⟩

theorem witness_StepRunsTheHostsNextAccess :
    (hostHas (.rd .id)).program = .rd .id :: [] ∧ (hostHas (.rd .id)).schedule = [] ∧ (hostHas (.rd .id)).busy = false ∧
      ({ hostHas (.rd .id) with schedule := [.host] } : State).schedule = .host :: [] := ⟨rfl, rfl, rfl, rfl⟩

theorem witness_IllegalWordLaunchesAndFails :
    let s : State := { hostHas (.wr .cmd 6#32) with schedule := [.host, .engine] }
    (6 ≤ (6#32).toNat % 16 ∧ (0#32).toNat % 16 = 0 ∧ (0x11#32).toNat / 16 ≠ 0) ∧ s.busy = false ∧
      s.program = .wr .cmd 6#32 :: [] ∧ s.schedule = .host :: .engine :: [] := by decide

theorem witness_Conv2dCompletesWithItsResult : RunsNormally .conv2d conv := by decide

theorem witness_Conv2d_overflowing :
    RunsNormally .conv2d { conv with cfg := { convCfg with biasShift := 31 } } ∧
      OutsideInt32 (exactBias (store 0x1200 [127, -128] []) { convCfg with biasShift := 31 } 0) := by decide

theorem witness_DwconvCompletesWithItsResult : RunsNormally .dwconv dw := by decide

theorem witness_PwconvCompletesWithItsResult : RunsNormally .pwconv pw := by decide

theorem witness_PwconvFastCompletesWithItsResult : RunsNormally .pwconvFast fast := by decide

theorem witness_AvgpoolCompletesWithItsResult : RunsNormally .avgpool2x2 pool := by decide

/-- V-F1's weights in natural order, in the same W region. -/
theorem witness_FastPointwiseEqualsBasic :
    let m := fast.mem.fill 0x1100 8 fun o => fast.mem.read (0x1100 + rhoSpec 4 (o / 2) (o % 2))
    RunsNormally .pwconvFast fast ∧ load m 0x1100 8 = [1, -1, 2, -2, 3, -3, 4, -4] ∧
      (∀ ci co, ci < 4 → co < 2 → m.read (0x1100 + (ci * 2 + co)) = fast.mem.read (0x1100 + fastOffset fast.params 4 2 ci co)) ∧
      (∀ a, ¬ (0x1100 ≤ a ∧ a < 0x1100 + 4 * 2) → m.read a = fast.mem.read a) ∧
      (∀ a, 0x1100 ≤ a → a < 0x1100 + 4 * 2 →
        ¬ (0x1000 ≤ a ∧ a < 0x1000 + 1 * 1 * 4) ∧ ¬ (0x1200 ≤ a ∧ a < 0x1200 + 2)) := by
  refine ⟨by decide, by decide, ?_, fun a h => Memory.read_fill_out _ _ h, fun a h1 h2 => ⟨by omega, by omega⟩⟩
  intro ci co h1 h2
  interval_cases ci <;> interval_cases co <;> decide

/-- L1-3: channel 2's weight of V-D2 becomes 0; channel 1 is the channel looked at. -/
theorem witness_DepthwiseChannelsAreIndependent :
    RunsNormally .dwconv dw ∧ 1 < dw.cfg.ci ∧
      ∀ a, (dw.mem.write 0x1102 0#8).read a ≠ dw.mem.read a →
        ¬ (0x1000 ≤ a ∧ a < 0x1000 + 2 * 2 * 5) ∧
        ∃ tap other, tap < 1 * 1 ∧ other < 5 ∧ other ≠ 1 ∧ a = 0x1100 + (tap * 5 + other) := by
  refine ⟨by decide, by decide, fun a h => ?_⟩
  have : a = 0x1102 := by
    by_contra hne
    exact h (Memory.read_write_ne _ _ hne)
  subst this
  exact ⟨by decide, 0, 2, by decide⟩

theorem witness_FastWeightOrder :
    8 % 4 = 0 ∧ 4 % 2 = 0 ∧ 7 < 8 ∧ 3 < 4 ∧ rhoSpec 8 7 3 = 31 ∧ 31 < 8 * 4 ∧ rhoSpec 8 0 0 = 0 ∧
      fastOffset Params.default 8 4 7 3 = 31 := by decide

/-- A platform that lists another size first and then the natural order for four input and two output channels. -/
theorem witness_FastWeightOrder_custom :
    let r : FastRow := ⟨4, 2, [0, 1, 2, 3, 4, 5, 6, 7]⟩
    let p : Params := { Params.default with fastOrder := [⟨8, 2, []⟩] ++ r :: [] }
    p.fastOrder = [⟨8, 2, []⟩] ++ r :: [] ∧ (∀ q ∈ [(⟨8, 2, []⟩ : FastRow)], q.cin ≠ 4 ∨ q.cout ≠ 2) ∧
      r.wellFormed = true ∧ fastOffset p 4 2 1 0 = 2 ∧ fastOffset p 4 2 3 1 = 7 ∧
      (∀ q ∈ p.fastOrder, q.cin ≠ 4 ∨ q.cout ≠ 4) ∧ fastOffset p 4 4 1 0 = 2 ∧ fastOffset p 4 4 1 2 = 10 := by decide

/-- E-5 to E-10, and K = 0: each clause of CONV2D's chain at a boundary value. -/
theorem witness_Conv2dReportsTheFirstBadRegister :
    [({ convCfg with dim := 3 } : CfgRegs), { convCfg with dim := 0 }, { convCfg with cin := 1 }, { convCfg with cout := 3 },
      { convCfg with ksize := 2 }, { convCfg with ksize := 0 }, { convCfg with pad := 1 }, { convCfg with biasShift := 32 },
      { convCfg with outShift := 32 }].map
        (fun c => (decide (ParamsLegal .conv2d c), nextHas (exec .conv2d (running .conv2d c []))
          (fun t => t.errCode == 2#4 && t.errInfo == 0x18#32), nextHas (exec .conv2d (running .conv2d c []))
          (fun t => t.errInfo == 0x30#32))) =
      [(false, true, false), (false, true, false), (false, false, false), (false, false, false), (false, false, false),
        (false, false, false), (false, false, false), (false, false, false), (false, false, true)] := by decide

theorem witness_DwconvReportsTheFirstBadRegister :
    [({ dwCfg with dim := 0 } : CfgRegs), { dwCfg with cin := 0 }, { dwCfg with ksize := 0 }, { dwCfg with pad := 1 },
      { dwCfg with outShift := 32 }].all (fun c => !decide (ParamsLegal .dwconv c)) = true := by decide

theorem witness_PwconvReportsTheFirstBadRegister :
    [({ pwCfg with dim := 0 } : CfgRegs), { pwCfg with cin := 0 }, { pwCfg with cout := 0 }, { pwCfg with biasShift := 32 },
      { pwCfg with outShift := 32 }].all (fun c => !decide (ParamsLegal .pwconv c)) = true := by decide

theorem witness_PwconvFastReportsTheFirstBadRegister :
    [({ fastCfg with dim := 0 } : CfgRegs), { fastCfg with cin := 6 }, { fastCfg with cout := 3 },
      { fastCfg with biasShift := 32 }, { fastCfg with outShift := 32 }].all
        (fun c => !decide (ParamsLegal .pwconvFast c)) = true := by decide

theorem witness_AvgpoolReportsTheFirstBadRegister :
    [({ poolCfg with dim := 5 } : CfgRegs), { poolCfg with dim := 0 }, { poolCfg with cin := 6 }].all
      (fun c => !decide (ParamsLegal .avgpool2x2 c)) = true := by decide

/-- E-19: IN runs past the top. -/
theorem witness_WrappingRegionFails :
    let c := { pwCfg with dim := 2, inAddr := 0xFFFFFFF8 }
    let r : Region := ⟨.inp, 0xFFFFFFF8, 12⟩
    ParamsLegal .pwconv c ∧ r ∈ usedRegions .pwconv c ∧ 2 ^ 32 < r.base + r.len ∧
      ∀ q ∈ usedRegions .pwconv c, q.id.number < r.id.number → q.base + q.len ≤ 2 ^ 32 := by decide

/-- E-20: CONV2D with an odd scratch A. -/
theorem witness_OddHalfwordRegionFails :
    let c := { convCfg with scraAddr := 0x3001 }
    let r : Region := ⟨.scra, 0x3001, 8⟩
    ParamsLegal .conv2d c ∧ RegionsFit .conv2d c ∧ r ∈ usedRegions .conv2d c ∧ halfwordRegion .conv2d r.id = true ∧
      r.base % 2 = 1 ∧
      ∀ q ∈ usedRegions .conv2d c, q.id.number < r.id.number → halfwordRegion .conv2d q.id = true → q.base % 2 = 0 := by
  decide

/-- E-24: OUT and scratch A share their first byte. -/
theorem witness_OverlappingRegionsFail :
    let c := { pwCfg with outAddr := 0x4000, scraAddr := 0x4000 }
    let r : Region := ⟨.out, 0x4000, 2⟩
    let q : Region := ⟨.scra, 0x4000, 12⟩
    ParamsLegal .pwconv c ∧ RegionsFit .pwconv c ∧ RegionsAligned .pwconv c ∧ r ∈ usedRegions .pwconv c ∧
      q ∈ usedRegions .pwconv c ∧ RegionsClash r q ∧
      ∀ r' ∈ usedRegions .pwconv c, ∀ q' ∈ usedRegions .pwconv c, RegionsClash r' q' →
        r.id.number < r'.id.number ∨ (r.id.number = r'.id.number ∧ q.id.number ≤ q'.id.number) := by decide

/-- E-26: one byte of OUT fails when written. -/
theorem witness_BusErrorReportsAFailingByte :
    let s := { pool with params := { Params.default with busFaults := [⟨⟨0x2001, 1⟩, false, true⟩] } }
    ParamsLegal .avgpool2x2 s.cfg ∧ RegionsFit .avgpool2x2 s.cfg ∧ RegionsAligned .avgpool2x2 s.cfg ∧
      RegionsDisjoint .avgpool2x2 s.cfg ∧ ¬ BusAnswers .avgpool2x2 s ∧ BusAnswers .avgpool2x2 pool := by decide

/-- E-18 and E-24: a completion with code 2 and one with code 8. -/
theorem witness_ErrorsBelowBusErrorArePrecise :
    (∃ t, exec .avgpool2x2 { pool with cfg := { poolCfg with dim := 5 } } = .next t ∧ 1 ≤ t.errCode.toNat ∧
      t.errCode.toNat ≤ 8) ∧
    ∃ t, exec .pwconv { pw with cfg := { pwCfg with outAddr := 0x4000, scraAddr := 0x4000 } } = .next t ∧
      1 ≤ t.errCode.toNat ∧ t.errCode.toNat ≤ 8 := ⟨⟨_, rfl, by decide⟩, ⟨_, rfl, by decide⟩⟩

theorem witness_CommandsLeaveOtherMemory :
    (∃ t, exec .avgpool2x2 pool = .next t) ∧ ¬ WrittenByte .avgpool2x2 pool.cfg 0x2004 ∧ pool.busy = true ∧
      pool.pending = some 5#32 ∧ decode 5#32 = .ok .avgpool2x2 := by
  refine ⟨⟨_, exec_of_runsNormally (by decide)⟩, ?_, rfl, rfl, rfl⟩
  rintro ⟨r, hr, hw, h⟩
  revert r
  decide

/-- PWCONV with other values in KSIZE, PAD and SCRB_ADDR, which it does not read. -/
theorem witness_UnreadRegistersHaveNoEffect :
    SameOperands .pwconv pw.cfg { pwCfg with ksize := 9, pad := 7, scrbAddr := 0x1000 } ∧ pw.spoiled = false ∧
      ∃ t, exec .pwconv pw = .next t := ⟨by decide, rfl, _, exec_of_runsNormally (by decide)⟩

theorem witness_EveryStepKeepsTheInvariant :
    pool.Inv ∧ ∃ t, step pool = .next t ∧ t.mem.read 0x2000 = 1#8 := by
  refine ⟨⟨by decide, rfl, fun _ => ⟨rfl, rfl, rfl, rfl, rfl⟩, by decide, by decide, fun _ => rfl, by decide, by decide⟩, ?_⟩
  have h : step pool = exec .avgpool2x2 pool := rfl
  rw [h]
  exact ⟨_, exec_of_runsNormally (by decide), by decide⟩

theorem witness_FaultMarkIsNeverCleared :
    ({ State.reset with faulted := true, schedule := [.hwReset] } : State).faulted = true ∧
      nextHas (step { State.reset with faulted := true, schedule := [.hwReset] }) (fun t => t.faulted) = true := by decide

/-- A completion and a reset, each making BUSY fall. -/
theorem witness_BusyFallsOnlyByCompletionOrReset :
    pool.busy = true ∧ nextHas (step pool) (fun t => !t.busy && t.done) = true ∧
      nextHas (step { pool with schedule := [.hwReset] }) (fun t => !t.busy && !t.done) = true := by decide

/-- DONE, ERR and ACC_OVF each rise. -/
theorem witness_CompletionFlagsRiseOnlyAtCompletion :
    nextHas (step pool) (fun t => !pool.done && t.done) = true ∧
      nextHas (step { pool with cfg := { poolCfg with dim := 5 } }) (fun t => !pool.err && t.err) = true ∧
      nextHas (step (running .conv2d { convCfg with biasShift := 31 } (store 0x1200 [127, -128] [])))
        (fun t => !pool.accOvf && t.accOvf) = true := by decide

theorem witness_ConfigurationHoldsWhileBusy :
    conv.busy = true ∧
      nextHas (step { conv with program := [.wr .dim 8#32], schedule := [.host] }) (fun t => t.busy) = true := by decide

theorem witness_PollingHostSeesCompletion :
    let s := { pool with program := [.poll .status 1#32 0#32], schedule := List.replicate 2 .host }
    s.busy = true ∧ s.pending = some 5#32 ∧ s.errCode.toNat ≤ 9 ∧
      (∀ op ∈ s.program, (∃ r, op = .rd r) ∨ ∃ r mask v, op = .poll r mask v) ∧
      nextHas (Host.Core.run Sys2Proof.core 3 s) (fun t => !t.busy && t.done) = true := by
  refine ⟨rfl, rfl, by decide, ?_, by decide⟩
  intro op h
  exact .inr ⟨.status, 1#32, 0#32, by simpa using h⟩

/-- The widest and the narrowest fields, and one above each field's width. -/
theorem witness_ConfigWriteStoresTheField :
    Reg.dim.isConfig = true ∧ Reg.scrbAddr.isConfig = true ∧ State.reset.busy = false ∧
      nextHas (hostAccess (.wr .dim 0x18002#32) [] State.reset) (fun t => t.cfg.dim == 0x8002#16) = true ∧
      nextHas (hostAccess (.wr .outShift 0x1FF#32) [] State.reset) (fun t => t.cfg.outShift == 0xFF#8) = true ∧
      nextHas (hostAccess (.wr .scrbAddr 0xFFFFFFFF#32) [] State.reset) (fun t => t.cfg.scrbAddr == 0xFFFFFFFF#32) = true := by
  decide

theorem witness_WriteWhileBusyIsDropped : conv.busy = true ∧ (Reg.dim.isConfig = true ∨ Reg.dim = .cmd) ∧
    (Reg.cmd.isConfig = true ∨ Reg.cmd = .cmd) := by decide

theorem witness_CommandWriteLaunches : State.reset.busy = false ∧
    ({ State.reset with faulted := true } : State).faulted = true ∧
    nextHas (hostAccess (.wr .cmd 5#32) [] State.reset) (fun t => t.busy && t.pending == some 5#32) = true := by decide

/-- A launch whose W region ends in the register block's first byte, and one that ends just below it. -/
theorem witness_LaunchOutsideNormalMemoryIsFaulted :
    decode 3#32 = .ok .pwconv ∧ State.reset.faulted = false ∧
      (State.launch 3#32 { pw with cfg := { pwCfg with wAddr := 0x3FFFFFFB } }).faulted = true ∧
      (State.launch 3#32 { pw with cfg := { pwCfg with wAddr := 0x3FFFFFFA } }).faulted = false := by decide

/-- CTRL written 1, 0 and 2. -/
theorem witness_CtrlWriteEnablesOrResets :
    (1#32).toNat / 2 % 2 = 0 ∧ (2#32).toNat / 2 % 2 = 1 ∧ (3#32).toNat / 2 % 2 = 1 ∧
      nextHas (hostAccess (.wr .ctrl 1#32) [] conv) (fun t => t.ctrlIrqEn && t.busy) = true ∧
      nextHas (hostAccess (.wr .ctrl 0#32) [] { conv with ctrlIrqEn := true }) (fun t => !t.ctrlIrqEn) = true ∧
      nextHas (hostAccess (.wr .ctrl 3#32) [] conv) (fun t => !t.ctrlIrqEn && !t.busy) = true ∧ conv.busy = true ∧
      State.reset.busy = false ∧ conv.pending = some 1#32 ∧ decode 1#32 = .ok .conv2d ∧
      (∃ r ∈ usedRegions .conv2d conv.cfg, r.id.isWritten = false ∧ r.contains 0x1007 = true) ∧
      decode 6#32 = .error .reservedOpcode :=
  ⟨by decide, by decide, by decide, by decide, by decide, by decide, rfl, rfl, rfl, rfl, by decide, rfl⟩

theorem witness_ReadOnlyAndReservedIgnoreWrites :
    0x4C ≤ (0x4C#8).toNat ∧ (0x4C#8).toNat % 4 = 0 ∧ 0x4C ≤ (0xFC#8).toNat ∧ (0xFC#8).toNat % 4 = 0 ∧
      Reg.ofOffset 0x48#8 = some .scrbAddr := by decide

/-- Each width, a misaligned offset, and byte accesses at the block's first and last address. -/
theorem witness_BadRegisterAccessIsAHostFault :
    ((AccessWidth.byte ≠ .word) ∧ (AccessWidth.half ≠ .word) ∧ (AccessWidth.double ≠ .word) ∧ (0x1A#8).toNat % 4 ≠ 0) ∧
      BlockAddress State.reset.params 0x40000000#32 ∧ BlockAddress State.reset.params 0x400000FF#32 ∧
      nextHas (hostAccess (.storeByte 0x400000FF#32 1#8) [] State.reset) (fun t => t.faulted && t.hostBusErr) = true := by
  decide

theorem witness_RegisterReadReturnsItsValue :
    ({ State.reset with errCode := 9#4 } : State).errCode.toNat ≤ 9 ∧ State.reset.errCode.toNat ≤ 9 := by decide

theorem witness_ReservedErrorCodeIsStuck :
    10 ≤ ({ State.reset with errCode := 10#4 } : State).errCode.toNat ∧
      10 ≤ ({ State.reset with errCode := 15#4 } : State).errCode.toNat := by decide

/-- A poll that leaves the loop and one that stays. -/
theorem witness_PollLoopsUntilTheValue :
    State.reset.errCode.toNat ≤ 9 ∧ State.reset.regRead .status &&& 1#32 = 0#32 ∧ conv.errCode.toNat ≤ 9 ∧
      conv.regRead .status &&& 1#32 ≠ 0#32 := by decide

theorem witness_InterruptFollowsEnableAndDone :
    let s : State := { State.reset with ctrlIrqEn := true, done := true }
    s.irq = true ∧ (∃ t, exec .avgpool2x2 pool = .next t) ∧ (2#32).toNat / 2 % 2 = 1 ∧ (0#32).toNat % 4 = 0 ∧
      (1#32).toNat % 4 = 1 ∧ nextHas (hostAccess (.wr .status 2#32) [] s) (fun t => !t.irq) = true ∧
      nextHas (hostAccess (.wr .ctrl 0#32) [] s) (fun t => !t.irq) = true ∧
      nextHas (hostAccess (.wr .ctrl 1#32) [] { s with ctrlIrqEn := false }) (fun t => t.irq) = true :=
  ⟨by decide, ⟨_, exec_of_runsNormally (by decide)⟩, by decide, by decide, by decide, by decide, by decide, by decide⟩

/-- Reset over a running command, over an illegal word, and while IDLE; 0x2004 is no written byte, 0x1000 is read. -/
theorem witness_HardwareResetAbortsAndClears :
    ({ pool with schedule := [.hwReset] } : State).schedule = .hwReset :: [] ∧ pool.busy = true ∧
      pool.pending = some 5#32 ∧ decode 5#32 = .ok .avgpool2x2 ∧ State.reset.busy = false ∧
      (∃ r ∈ usedRegions .avgpool2x2 pool.cfg, r.id.isWritten = false ∧ r.contains 0x1000 = true) ∧
      ({ pool with pending := some 6#32 } : State).pending = some 6#32 ∧ decode 6#32 = .error .reservedOpcode :=
  ⟨rfl, rfl, rfl, rfl, rfl, by decide, rfl, rfl⟩

/-- An address of no region of the running command, beside its IN region; a device of one byte; the block's edges. -/
theorem witness_HostAccessesMemoryBytes :
    let s := { pool with params := { Params.default with devices := [⟨0x5000, 1⟩] } }
    (¬ BlockAddress s.params 0xFFF#32 ∧ ¬ DeviceAddress s.params 0xFFF#32 ∧ inRegions s.liveRegions 0xFFF = false) ∧
      (¬ BlockAddress s.params 0x5000#32 ∧ DeviceAddress s.params 0x5000#32 ∧ ¬ DeviceAddress s.params 0x5001#32) ∧
      (inRegions s.liveRegions (0x5000#32).toNat = false ∧ inRegions s.liveRegions (0x40000000#32).toNat = false) ∧
      (¬ BlockAddress s.params 0x3FFFFFFF#32 ∧ BlockAddress s.params 0x40000000#32 ∧ ¬ BlockAddress s.params 0x40000100#32) ∧
      ({ s with schedule := [.busMaster 0xFFF#32 7#8] } : State).schedule = .busMaster 0xFFF#32 7#8 :: [] := by decide

/-- AVGPOOL2X2 as `pool` runs it, launched with a device at the first byte of its IN region. -/
def poolAtDevice : State :=
  { pool with params := { Params.default with devices := [⟨0x1000, 1⟩] }, faulted := true, spoiled := true }

/-- AVGPOOL2X2 as `pool` runs it, launched with its IN region at the register block. -/
def poolAtBlock : State :=
  { pool with cfg := { pool.cfg with inAddr := 0x40000000 }, faulted := true, spoiled := true }

/-- The first byte of the running command's IN region: in normal memory, at a device and at the register block. -/
theorem witness_RacesAreMarked :
    (¬ BlockAddress pool.params 0x1000#32 ∧ ¬ DeviceAddress pool.params 0x1000#32 ∧
      inRegions pool.liveRegions (0x1000#32).toNat = true ∧
      ({ pool with schedule := [.busMaster 0x1000#32 7#8] } : State).schedule = .busMaster 0x1000#32 7#8 :: []) ∧
    (¬ BlockAddress poolAtDevice.params 0x1000#32 ∧ DeviceAddress poolAtDevice.params 0x1000#32 ∧
      inRegions poolAtDevice.liveRegions (0x1000#32).toNat = true) ∧
    (BlockAddress poolAtBlock.params 0x40000000#32 ∧ inRegions poolAtBlock.liveRegions (0x40000000#32).toNat = true ∧
      poolAtBlock.Inv) :=
  ⟨by decide, by decide, by decide, by decide,
    ⟨by decide, rfl, fun _ => ⟨rfl, rfl, rfl, rfl, rfl⟩, by decide, by decide, fun _ => rfl, by decide, by decide⟩⟩

/-- A host access to a device in a race goes on (20_memory.md R72): the load takes a draw, the store marks the launch. Past
the used regions it is refused. -/
theorem test_race_at_device :
    nextHas (hostAccess (.loadByte 0x1000#32) [] poolAtDevice) (fun t => t.freeCount == pool.freeCount + 1) = true ∧
      nextHas (hostAccess (.storeByte 0x1000#32 7#8) [] { poolAtDevice with faulted := false, spoiled := false })
        (fun t => t.faulted && t.spoiled && !t.hostBusErr) = true ∧
      hostAccess (.loadByte 0x1000#32) [] { poolAtDevice with busy := false } = .refused .deviceAccess :=
  ⟨rfl, by decide, rfl⟩

theorem witness_MemoryIsLittleEndian : (0x2003 : Nat) ≠ 0x2001 ∧ (0x2003 : Nat) ≠ 0x2001 + 1 ∧
    load (Memory.writeHalf [] 0x2001 0xFF02#16) 0x2001 2 = [2, -1] := by decide

theorem witness_RequantisationLaws :
    ((-3 : Int) ≤ 3 ∧ ¬ OutsideInt32 (-3 + rnd true 1) ∧ ¬ OutsideInt32 (3 + rnd true 1)) ∧
      ((-128 : Int) ≤ 127 ∧ (127 : Int) < 128 ∧ (128 : Int) ≤ 2 ^ 31 - 1 ∧ -(2 ^ 31) ≤ (-129 : Int) ∧ (-129 : Int) < -128) := by
  decide

theorem witness_HalvingAddLaws : (-128 : Int) ≤ 127 ∧ (-128 : Int) ≤ -128 ∧ (127 : Int) ≤ 127 := by decide

/-- The products of V-C1's element (0, 0, 0), of V-D2's (0, 1, 4) and of V-P1's (0, 0), in another order. -/
theorem witness_AccumulationOrderIsNotObservable :
    [4, 1].Perm (conv2dProducts conv.mem conv.cfg 0 0 0) ∧ [-2].Perm (dwconvProducts dw.mem dw.cfg 0 1 4) ∧
      [9, 1, 4].Perm (pointwiseProducts pw.mem pw.cfg (fun ci co => ci * 2 + co) 0 0) ∧
      accumulate 2147483647 [1, 2147483647, 2] = 1 := by decide

theorem witness_PackedLanesMatchScalars : (0 < 4 ∧ 3 < 4) ∧ (0 < 2 ∧ 1 < 2) := by decide

/-- V-A1's operands, given in another order. -/
theorem witness_MnemonicExpandsToItsWrites :
    [(Operand.out, 0x2000), (.c, 4), (.inp, 0x1000), (.d, 0xFFFF)].Perm
      ((operandsOf .avgpool2x2).map fun o => (o, match o with
        | .d => 0xFFFF
        | .c => 4
        | .inp => 0x1000
        | _ => 0x2000)) ∧ 0xFFFF < 2 ^ Operand.d.bits := by decide

/-- A missing operand, an operand AVGPOOL2X2 does not take, and DIM one above its field. -/
theorem witness_AssemblerRefusesBadOperands :
    (∃ o ∈ operandsOf .avgpool2x2, ∀ q ∈ [(Operand.d, 4), (.c, 4), (.inp, 0)], q.1 ≠ o) ∧
      (∃ q ∈ [(Operand.k, 3)], q.1 ∉ operandsOf .avgpool2x2) ∧ (∃ q ∈ [(Operand.d, 0x10000)], 2 ^ q.1.bits ≤ q.2) := by
  decide

theorem witness_ExpandedMnemonicLaunchesItsCommand :
    let s : State := { State.reset with program := [.wr .dim 4#32, .wr .cin 4#32, .wr .inAddr 4#32, .wr .outAddr 4#32,
      .wr .cmd 5#32] }
    s.busy = false ∧ s.schedule = [] ∧ (∀ o ∈ operandsOf .avgpool2x2, 4 < 2 ^ o.bits) ∧
      s.program = (operandsOf .avgpool2x2).map (fun o => HostOp.wr o.reg (BitVec.ofNat 32 4)) ++ .wr .cmd (encode .avgpool2x2) :: [] := by
  decide

end Sys2Proof.Tests
end

section
/-! PROOFS. Registers: the writes the block ignores, and reads of its reserved offsets (10_state.md R37, R39). -/

namespace Sys2Proof.Machine

/-- Every register lies below the reserved offsets (10_state.md R22). -/
theorem Reg.offset_toNat_lt (r : Reg) : r.offset.toNat < 0x4C := by
  cases r <;> decide

theorem Reg.ofOffset_reserved {off : BitVec 8} (h : 0x4C ≤ off.toNat) : Reg.ofOffset off = none := by
  refine List.find?_eq_none.mpr fun r _ hr => ?_
  have hoff : r.offset = off := by simpa using hr
  have hlt := r.offset_toNat_lt
  rw [hoff] at hlt
  omega

theorem goodAccess_word_of_aligned {off : BitVec 8} (h : off.toNat % 4 = 0) : goodAccess off .word = true := by
  simp [goodAccess, h]

/-- A write of a read-only register changes nothing, in either phase (10_state.md R39). -/
theorem regWrite_readOnly {r : Reg} (hr : r = .id ∨ r = .errCode ∨ r = .errInfo) (v : Word) (s : State) :
    s.regWrite r v = s := by
  rcases hr with rfl | rfl | rfl <;> rfl

/-- A 32-bit store to a reserved offset is answered and changes nothing else (10_state.md R37). -/
theorem regStore_reserved {off : BitVec 8} (hge : 0x4C ≤ off.toNat) (hal : off.toNat % 4 = 0) (v : Word) (s : State) :
    s.regStore off .word v = s.answered := by
  simp [State.regStore, goodAccess_word_of_aligned hal, Reg.ofOffset_reserved hge]

/-- A 32-bit load from a reserved offset reads 0 (10_state.md R37). -/
theorem regLoad_reserved {off : BitVec 8} (hge : 0x4C ≤ off.toNat) (hal : off.toNat % 4 = 0) (s : State) :
    s.regLoad off .word = .next (s.loaded 0#32) := by
  simp [State.regLoad, goodAccess_word_of_aligned hal, Reg.ofOffset_reserved hge]

/-- Settles O44: a read-only register's write is no write, and no register stands at a reserved offset. -/
theorem readOnlyAndReservedIgnoreWrites : Obligations.ReadOnlyAndReservedIgnoreWrites := by
  intro s v ops
  refine ⟨fun r hr => ?_, fun off hge hal => ⟨?_, ?_⟩⟩
  · rw [hostAccess, regStore_offset, regWrite_readOnly hr]
    rfl
  · rw [hostAccess, regStore_reserved hge hal]
    rfl
  · rw [hostAccess, regLoad_reserved hge hal]
    rfl

end Sys2Proof.Machine
end

section
/-! PROOFS. Command words: the two fields of a word, which words decode, and an illegal word's launch and completion
(30_encoding.md R80 to R83). -/

namespace Sys2Proof

theorem rsvField_toNat (w : Word) : (rsvField w).toNat = w.toNat / 16 := by
  rw [rsvField, BitVec.extractLsb'_toNat, Nat.shiftRight_eq_div_pow]
  omega

theorem opField_toNat (w : Word) : (opField w).toNat = w.toNat % 16 := by
  simp [opField]

theorem rsvField_eq_zero_iff (w : Word) : rsvField w = 0#28 ↔ w.toNat / 16 = 0 := by
  rw [← BitVec.toNat_inj, rsvField_toNat]
  rfl

/-- The opcode map and the encoder are the same table (30_encoding.md R81). -/
theorem decodeOp_eq_ok_iff (op : BitVec 4) (i : Instr) : decodeOp op = .ok i ↔ op.toNat = (encode i).toNat := by
  cases i <;> revert op <;> decide

/-- The words that decode to a command, by their two fields (30_encoding.md R82). -/
theorem decode_eq_ok_iff (w : Word) (i : Instr) :
    decode w = .ok i ↔ w.toNat / 16 = 0 ∧ w.toNat % 16 = (encode i).toNat := by
  rw [← rsvField_eq_zero_iff, ← opField_toNat, ← decodeOp_eq_ok_iff, decode]
  split <;> simp [*]

theorem encode_toNat_range (i : Instr) : 1 ≤ (encode i).toNat ∧ (encode i).toNat ≤ 5 := by
  cases i <;> decide

/-- A word with a reserved bit set, or with a reserved opcode, is illegal (30_encoding.md R83). -/
theorem decode_error_of_reserved {w : Word} (h : w.toNat / 16 ≠ 0 ∨ w.toNat % 16 = 0 ∨ 6 ≤ w.toNat % 16) :
    ∃ e, decode w = .error e := by
  cases hd : decode w with
  | error e => exact ⟨e, rfl⟩
  | ok i =>
    obtain ⟨hrsv, hop⟩ := (decode_eq_ok_iff w i).mp hd
    have hrange := encode_toNat_range i
    omega

/-- Settles O2: each command is read off its own opcode, and every other word is illegal. -/
theorem decodeFollowsTheOpcodeMap : Obligations.DecodeFollowsTheOpcodeMap := by
  intro w
  refine ⟨fun hrsv => decode_error_of_reserved (.inl hrsv), fun hrsv => ?_⟩
  split_ifs with h1 h2 h3 h4 h5
  · exact (decode_eq_ok_iff w .conv2d).mpr ⟨hrsv, h1⟩
  · exact (decode_eq_ok_iff w .dwconv).mpr ⟨hrsv, h2⟩
  · exact (decode_eq_ok_iff w .pwconv).mpr ⟨hrsv, h3⟩
  · exact (decode_eq_ok_iff w .pwconvFast).mpr ⟨hrsv, h4⟩
  · exact (decode_eq_ok_iff w .avgpool2x2).mpr ⟨hrsv, h5⟩
  · exact decode_error_of_reserved (.inr (by omega))

end Sys2Proof

namespace Sys2Proof.Machine

theorem step_host_turn {s : State} {op : HostOp} {ops : List HostOp} {rest : List Turn}
    (hsched : s.schedule = .host :: rest) (hprog : s.program = op :: ops) :
    step s = hostAccess op ops { s with schedule := rest } := by
  simp [step, machineStep, hsched, takeTurn, hostStep, hprog]

theorem step_engine_turn {s : State} {rest : List Turn} (hsched : s.schedule = .engine :: rest)
    (hbusy : s.busy = true) : step s = engineStep { s with schedule := rest } := by
  simp [step, machineStep, hsched, takeTurn, hbusy]

/-- `wr CMD, w` while IDLE is a launch (60_exceptions.md R160). -/
theorem hostAccess_cmd_idle {s : State} (hidle : s.busy = false) (w : Word) (ops : List HostOp) :
    hostAccess (.wr .cmd w) ops s = .next (State.launch w { s with program := ops }).answered := by
  simp [hostAccess, regStore_offset, State.regWrite, hidle]

/-- The host's turn at `wr CMD, w` while IDLE launches the word. -/
theorem step_launches {s : State} {w : Word} {ops : List HostOp} {rest : List Turn} (hidle : s.busy = false)
    (hprog : s.program = .wr .cmd w :: ops) (hsched : s.schedule = .host :: rest) :
    step s = .next (State.launch w { s with schedule := rest, program := ops }).answered := by
  rw [step_host_turn hsched hprog, hostAccess_cmd_idle]
  exact hidle

/-- The engine's turn with an illegal word pending completes it (60_exceptions.md R167). -/
theorem step_completes_illegal {s : State} {w : Word} {e : DecodeError} {rest : List Turn} (hbusy : s.busy = true)
    (hpend : s.pending = some w) (hill : decode w = .error e) (hsched : s.schedule = .engine :: rest) :
    step s = .next (completeIllegal w { s with schedule := rest }) := by
  rw [step_engine_turn hsched hbusy]
  simp [engineStep, hpend, hill]

theorem completed_completeIllegal (w : Word) (s : State) : Completed 1#4 w false (completeIllegal w s) :=
  ⟨rfl, rfl, rfl, rfl, rfl, rfl, rfl, rfl⟩

/-- An illegal word uses no region, so its launch is no breach of 20_memory.md R57. -/
theorem launch_faulted_illegal {w : Word} {e : DecodeError} (hill : decode w = .error e) (s : State) :
    (s.launch w).faulted = s.faulted := by
  simp [wordRegions, hill, regionsNotNormal]

/-- Settles O7: the host's turn launches the word, and the engine's turn completes it with ILLEGAL_OP. -/
theorem illegalWordLaunchesAndFails : Obligations.IllegalWordLaunchesAndFails := by
  intro s w ops rest hres hidle hprog hsched
  obtain ⟨e, hill⟩ := decode_error_of_reserved hres
  exact ⟨_, _, step_launches hidle hprog hsched, rfl, rfl, rfl, step_completes_illegal rfl rfl hill rfl,
    completed_completeIllegal w _, rfl, rfl, rfl, rfl, launch_faulted_illegal hill _, rfl, rfl, rfl, rfl⟩

end Sys2Proof.Machine
end

section
/-! PROOFS. The assembler: which operand lists a mnemonic accepts, and the writes they expand to (30_encoding.md R86,
R88). -/

namespace Sys2Proof.Machine

/-- Operands stand in ascending register offset order (30_encoding.md R88). -/
theorem operandsOf_ascending (i : Instr) : ((operandsOf i).map fun o => o.reg.offset.toNat).Pairwise (· < ·) := by
  cases i <;> decide

theorem operandsOf_nodup (i : Instr) : (operandsOf i).Nodup :=
  List.Nodup.of_map _ ((operandsOf_ascending i).imp ne_of_lt)

/-- The operand lists in which the assembler refuses no operand (30_encoding.md R86, notes/assumptions/14.md). -/
theorem operandError_none_iff (i : Instr) (ops : List (Operand × Nat)) :
    operandError i ops = none ↔
      (∀ q ∈ ops, q.1 ∈ operandsOf i ∧ q.2 < 2 ^ q.1.bits) ∧ (ops.map Prod.fst).Nodup := by
  induction ops with
  | nil => simp [operandError]
  | cons q rest ih =>
    obtain ⟨o, v⟩ := q
    rw [operandError]
    split_ifs with hmem hwide hrep
    · have hnot : o ∉ operandsOf i := by simpa using hmem
      simp [hnot]
    · simp [Nat.not_lt.mpr hwide]
    · have hagain : o ∈ rest.map Prod.fst := by simpa [and_comm] using hrep
      simp [hagain]
    · have htaken : o ∈ operandsOf i := by simpa using hmem
      have honce : o ∉ rest.map Prod.fst := by simpa [and_comm] using hrep
      rw [ih, List.forall_mem_cons, List.map_cons, List.nodup_cons]
      simp only [htaken, honce, Nat.lt_of_not_le hwide, not_false_eq_true, true_and]

theorem find?_operand {ops : List (Operand × Nat)} {f : Operand → Nat} {o : Operand}
    (hval : ∀ q ∈ ops, q.2 = f q.1) (hmem : (o, f o) ∈ ops) :
    ops.find? (fun q => q.1 == o) = some (o, f o) := by
  cases hfind : ops.find? (fun q => q.1 == o) with
  | none => simpa using List.find?_eq_none.mp hfind _ hmem
  | some q =>
    have hname : q.1 = o := by simpa using List.find?_some hfind
    have hq := hval q (List.mem_of_find?_eq_some hfind)
    rw [← hname, ← hq]

/-- Where every operand of the list is found with its value, the writes follow the list's order. -/
theorem operandWrites_of_found {ops : List (Operand × Nat)} {f : Operand → Nat} {os : List Operand}
    (h : ∀ o ∈ os, ops.find? (fun q => q.1 == o) = some (o, f o)) :
    operandWrites ops os = .ok (os.map fun o => HostOp.wr o.reg (BitVec.ofNat 32 (f o))) := by
  induction os with
  | nil => rfl
  | cons o rest ih =>
    obtain ⟨ho, hrest⟩ := List.forall_mem_cons.mp h
    simp [operandWrites, ho, ih hrest]

theorem assembleCommand_of_writes {i : Instr} {ops : List (Operand × Nat)} {l : List HostOp}
    (hops : operandError i ops = none) (hwrites : operandWrites ops (operandsOf i) = .ok l) :
    assembleCommand i ops = .ok (l ++ [.wr .cmd (encode i)]) := by
  simp [assembleCommand, hops, hwrites]

/-- Settles O58: a permutation of the operands gives each operand once with its value, so the lookups by name put the
writes back into the mnemonic's own order. -/
theorem mnemonicExpandsToItsWrites : Obligations.MnemonicExpandsToItsWrites := by
  intro i f ops hperm hfit
  have hmem : ∀ q, q ∈ ops ↔ q.1 ∈ operandsOf i ∧ q.2 = f q.1 := by
    rintro ⟨o, v⟩
    simp [hperm.mem_iff, eq_comm]
  have hnames : (ops.map Prod.fst).Perm (operandsOf i) := by
    simpa [Function.comp_def] using hperm.map Prod.fst
  have hops : operandError i ops = none := by
    refine (operandError_none_iff i ops).mpr ⟨fun q hq => ?_, hnames.nodup_iff.mpr (operandsOf_nodup i)⟩
    obtain ⟨htaken, hval⟩ := (hmem q).mp hq
    exact ⟨htaken, hval ▸ hfit q.1 htaken⟩
  have hfound : ∀ o ∈ operandsOf i, ops.find? (fun q => q.1 == o) = some (o, f o) := fun o ho =>
    find?_operand (fun q hq => ((hmem q).mp hq).2) ((hmem (o, f o)).mpr ⟨ho, rfl⟩)
  exact ⟨assembleCommand_of_writes hops (operandWrites_of_found hfound), operandsOf_ascending i⟩

end Sys2Proof.Machine
end

section
/-! PROOFS. The fixed-point arithmetic: the arithmetic right shift and the halving add as rational floors
(40_fixed_point.md R102, R106, R109). -/

namespace Sys2Proof.Machine

/-- The arithmetic right shift rounds toward minus infinity (00_scope.md R7, 40_fixed_point.md R102). -/
theorem asr_eq_floor (v : Int) (s : Nat) : asr v s = ⌊(v : ℚ) / ((2 ^ s : Nat) : ℚ)⌋ :=
  (Rat.floor_intCast_div_natCast v (2 ^ s)).symm

/-- The rounding constant is the parameter's own bit (00_scope.md R5). -/
theorem poolConst_eq_toNat (pr : Bool) : poolConst pr = pr.toNat := by
  cases pr <;> rfl

theorem hadd_eq_div_two (pr : Bool) (a b : Int) : hadd pr a b = (a + b + pr.toNat) / 2 := by
  rw [hadd, asr, poolConst_eq_toNat]
  rfl

theorem hadd_eq_floor (pr : Bool) (a b : Int) : hadd pr a b = ⌊(a + b + pr.toNat : ℚ) / 2⌋ := by
  rw [hadd, asr_eq_floor, poolConst_eq_toNat]
  norm_num

theorem hadd_comm (pr : Bool) (a b : Int) : hadd pr a b = hadd pr b a := by
  rw [hadd, hadd, add_comm a b]

/-- The rounding constant is below one whole step of the shift, so it cannot move the mean of equal lanes. -/
theorem hadd_self (pr : Bool) (a : Int) : hadd pr a a = a := by
  have hconst : pr.toNat ≤ 1 := pr.toNat_le
  rw [hadd_eq_div_two]
  omega

/-- A tie rounds toward plus infinity when POOL_ROUND is 1 (40_fixed_point.md R106). -/
theorem hadd_true_eq_ceil (a b : Int) : hadd true a b = ⌈(a + b : ℚ) / 2⌉ := by
  have hceil : ⌈(a + b : ℚ) / 2⌉ = -(-(a + b) / 2) := by
    exact_mod_cast Rat.ceil_intCast_div_natCast (a + b) 2
  rw [hceil, hadd_eq_div_two, Bool.toNat_true]
  omega

/-- Settles O55: only the range needs the lanes in int8; the other laws hold of all integers. -/
theorem halvingAddLaws : Obligations.HalvingAddLaws := by
  intro pr a b ha ha' hb hb'
  obtain ⟨hlow, hhigh⟩ := hadd_range (pr := pr) ⟨ha, ha'⟩ ⟨hb, hb'⟩
  exact ⟨hadd_eq_floor pr a b, hlow, hhigh, hadd_comm pr a b, hadd_self pr a, hadd_true_eq_ceil a b⟩

end Sys2Proof.Machine
end

section
/-! PROOFS. Parameter errors: a failed check as an error completion, and the order of CONV2D's checks
(41_conv2d.md R120, 60_exceptions.md R163, R168). -/

namespace Sys2Proof.Machine

theorem raiseError_eq_errorCompletion {code : ErrCode} (hcode : code ≠ .none) (info : Word) (s : State) :
    s.raiseError code info = ErrorCompletion code.bits info s := by
  have herr : (code != .none) = true := bne_iff_ne.mpr hcode
  rw [State.raiseError, State.complete, herr, ErrorCompletion]

/-- The first failing row of a command's table decides its completion (60_exceptions.md R163, R168). -/
theorem exec_of_paramError {i : Instr} {s : State} {code : ErrCode} {info : Word}
    (h : paramError (rowsOf i s.cfg) = some (code, info)) :
    exec i s = .next (ErrorCompletion code.bits info s) := by
  have hcode : code ≠ .none := by
    rcases paramError_rowsOf_code h with rfl | rfl | rfl | rfl <;> decide
  rw [exec_eq_runCommand, runCommand, h, ← raiseError_eq_errorCompletion hcode]

/-- CONV2D's checks in the order of its registers' offsets (41_conv2d.md R120). -/
theorem paramError_rowsOf_conv2d (c : CfgRegs) :
    paramError (rowsOf .conv2d c) =
      if ¬ (2 ≤ c.d ∧ c.d % 2 = 0) then some (.badDim, 0x18#32)
      else if ¬ (2 ≤ c.ci ∧ c.ci % 2 = 0) then some (.badChannel, 0x1C#32)
      else if ¬ (2 ≤ c.co ∧ c.co % 2 = 0) then some (.badChannel, 0x20#32)
      else if ¬ (1 ≤ c.k ∧ c.k % 2 = 1) then some (.badKernel, 0x24#32)
      else if c.p ≠ (c.k - 1) / 2 then some (.badKernel, 0x28#32)
      else if 31 < c.bs then some (.badShift, 0x2C#32)
      else if 31 < c.os then some (.badShift, 0x30#32)
      else none := by
  simp only [rowsOf, conv2dRows, paramError_cons, paramError_nil, Bool.and_eq_true, decide_eq_true_eq, ite_not, ne_eq,
    ← Nat.not_le]
  rfl

/-- Settles O17: each branch of the chain is the completion of CONV2D's first failing row; a failing row exists, since
the parameters are illegal. -/
theorem conv2dReportsTheFirstBadRegister : Obligations.Conv2dReportsTheFirstBadRegister := by
  intro s hbad
  have hrows := paramError_rowsOf_conv2d s.cfg
  have hsome : paramError (rowsOf .conv2d s.cfg) ≠ none := mt (paramError_rowsOf_none_iff .conv2d s.cfg).mp hbad
  split_ifs at hrows ⊢
  case neg => exact absurd hrows hsome
  all_goals exact exec_of_paramError hrows

end Sys2Proof.Machine
end

section
/-! PROOFS. Parameter errors of PWCONV_FAST: the order of its checks (43_pointwise.md R143). -/

namespace Sys2Proof.Machine

/-- PWCONV_FAST's checks in the order of its registers' offsets (43_pointwise.md R143). -/
theorem paramError_rowsOf_pwconvFast (c : CfgRegs) :
    paramError (rowsOf .pwconvFast c) =
      if c.d = 0 then some (.badDim, 0x18#32)
      else if ¬ (4 ≤ c.ci ∧ c.ci % 4 = 0) then some (.badChannel, 0x1C#32)
      else if ¬ (2 ≤ c.co ∧ c.co % 2 = 0) then some (.badChannel, 0x20#32)
      else if 31 < c.bs then some (.badShift, 0x2C#32)
      else if 31 < c.os then some (.badShift, 0x30#32)
      else none := by
  simp only [rowsOf, pwconvFastRows, paramError_cons, paramError_nil, Bool.and_eq_true, decide_eq_true_eq, ite_not,
    ← Nat.not_le, ← Nat.lt_one_iff]
  rfl

/-- Settles O20: each branch of the chain is the completion of PWCONV_FAST's first failing row; the branch in which no
row fails contradicts the illegal parameters. -/
theorem pwconvFastReportsTheFirstBadRegister : Obligations.PwconvFastReportsTheFirstBadRegister := by
  intro s hbad
  have hrows := paramError_rowsOf_pwconvFast s.cfg
  have hsome : paramError (rowsOf .pwconvFast s.cfg) ≠ none :=
    mt (paramError_rowsOf_none_iff .pwconvFast s.cfg).mp hbad
  split_ifs at hrows ⊢
  case neg => exact absurd hrows hsome
  all_goals exact exec_of_paramError hrows

end Sys2Proof.Machine
end

section
/-! PROOFS. Bus errors: the completion of a command that passes its checks, with a bus that answers and with one that does
not (60_exceptions.md R162, R165, R167). -/

namespace Sys2Proof.Machine

/-- Once the register and region checks pass, the bus alone decides how the command completes: with its result, or with
BUS_ERROR (60_exceptions.md R162, R165). -/
theorem exec_cases_of_checks {i : Instr} {s : State} (hparams : ParamsLegal i s.cfg)
    (hregions : regionError i (usedRegions i s.cfg) = none) :
    (¬ BusAnswers i s ∧
      exec i s = .next (s.busError (usedRegions i s.cfg) (failingBytes s.params (usedRegions i s.cfg)))) ∨
    (BusAnswers i s ∧ exec i s = .next (s.succeed (usedRegions i s.cfg) (resultOf i s))) := by
  rcases exec_cases i s with ⟨e, -, hbad, -⟩ | ⟨e, -, herr, -⟩ | ⟨-, -, hfails, hexec⟩ | ⟨-, -, hanswers, hexec⟩
  · exact absurd hparams hbad
  · rw [hregions] at herr
    cases herr
  · exact .inl ⟨hfails, hexec⟩
  · exact .inr ⟨hanswers, hexec⟩

@[simp] theorem State.succeed_done (s : State) (rs : List Region) (result : CommandResult) :
    (s.succeed rs result).done = true := by
  unfold State.succeed
  split <;> rfl

@[simp] theorem State.succeed_err (s : State) (rs : List Region) (result : CommandResult) :
    (s.succeed rs result).err = false := by
  unfold State.succeed
  split <;> rfl

@[simp] theorem State.succeed_errCode (s : State) (rs : List Region) (result : CommandResult) :
    (s.succeed rs result).errCode = 0#4 := by
  unfold State.succeed
  split <;> rfl

@[simp] theorem State.busError_done (s : State) (rs : List Region) (failing : List Nat) :
    (s.busError rs failing).done = true := rfl

/-- Whatever index is drawn, the address taken from a nonempty list is one of its own. -/
theorem getD_mod_length_mem {l : List Nat} (hne : l ≠ []) (n : Nat) : l.getD (n % l.length) 0 ∈ l := by
  have hlt : n % l.length < l.length := Nat.mod_lt n (List.length_pos_of_ne_nil hne)
  rw [List.getD_eq_getElem l 0 hlt]
  exact List.getElem_mem hlt

/-- A bus error reports one of the failing bytes (60_exceptions.md R165). -/
theorem busError_completed (s : State) (rs : List Region) {failing : List Nat} (hne : failing ≠ []) :
    ∃ b ∈ failing, Completed 9#4 (BitVec.ofNat 32 b) (s.busError rs failing).accOvf (s.busError rs failing) :=
  ⟨_, getD_mod_length_mem hne (Config.freeIndex s.freeCount), rfl, rfl, rfl, rfl, rfl, rfl, rfl, rfl⟩

/-- Settles O25: after the checks only the bus decides; the reported byte is one of the failing bytes, and the frame is
that of every completion. -/
theorem busErrorReportsAFailingByte : Obligations.BusErrorReportsAFailingByte := by
  intro i s hparams hfit haligned hdisjoint
  have hregions : regionError i (usedRegions i s.cfg) = none :=
    (regionError_none_iff i s.cfg).mpr ⟨hfit, haligned, hdisjoint⟩
  rcases exec_cases_of_checks hparams hregions with ⟨hfails, hexec⟩ | ⟨hanswers, hexec⟩
  · have hne : failingBytes s.params (usedRegions i s.cfg) ≠ [] := mt (failingBytes_nil_iff i s).mp hfails
    obtain ⟨b, hb, hcompleted⟩ := busError_completed s (usedRegions i s.cfg) hne
    obtain ⟨r, hr, hlow, hhigh, hbyte⟩ := (mem_failingBytes _ _ b).mp hb
    exact ⟨fun _ => ⟨_, r, b, hexec, exec_same hexec, hcompleted, hr, hlow, hhigh, hbyte, fun _ => exec_read_out hexec⟩,
      fun hanswers => absurd hanswers hfails⟩
  · exact ⟨fun hfails => absurd hanswers hfails,
      fun _ => ⟨_, hexec, s.succeed_errCode _ _, s.succeed_err _ _⟩⟩

end Sys2Proof.Machine
end

section
/-! PROOFS. The interrupt output: DONE after a completion, and the host writes that move IRQ_EN or DONE
(10_state.md R24, R25, R43, 60_exceptions.md R170). -/

namespace Sys2Proof.Machine

theorem State.irq_eq_true_iff (s : State) : s.irq = true ↔ s.ctrlIrqEn = true ∧ s.done = true := by
  rw [State.irq, Bool.and_eq_true]

theorem State.irq_of_done {s : State} (hdone : s.done = true) : s.irq = s.ctrlIrqEn := by
  rw [State.irq, hdone, Bool.and_true]

theorem State.irq_of_not_done {s : State} (hdone : s.done = false) : s.irq = false := by
  rw [State.irq, hdone, Bool.and_false]

@[simp] theorem State.answered_irq (s : State) : s.answered.irq = s.irq := rfl

/-- Every completion sets DONE (60_exceptions.md R167). -/
theorem exec_done {i : Instr} {s t : State} (h : exec i s = .next t) : t.done = true := by
  rcases exec_cases i s with ⟨e, -, -, he⟩ | ⟨e, -, -, he⟩ | ⟨-, -, -, he⟩ | ⟨-, -, -, he⟩ <;>
    rw [he] at h <;> cases h
  · exact s.raiseError_done _ _
  · exact s.raiseError_done _ _
  · exact s.busError_done _ _
  · exact s.succeed_done _ _

/-- From its completion on, `irq` shows IRQ_EN (60_exceptions.md R170). -/
theorem exec_irq {i : Instr} {s t : State} (h : exec i s = .next t) : t.irq = s.ctrlIrqEn := by
  obtain ⟨-, hen, -⟩ := exec_same h
  rw [State.irq_of_done (exec_done h), hen]

/-- `wr REG, v` is one register write, which the bus answers (30_encoding.md R87). -/
theorem hostAccess_wr (r : Reg) (v : Word) (ops : List HostOp) (s : State) :
    hostAccess (.wr r v) ops s = .next (State.regWrite r v { s with program := ops }).answered := by
  rw [hostAccess, regStore_offset]

/-- A register write of the host leaves `irq` as the register write itself does. -/
theorem irq_of_hostAccess_wr {r : Reg} {v : Word} {ops : List HostOp} {s t : State}
    (h : hostAccess (.wr r v) ops s = .next t) : t.irq = (State.regWrite r v { s with program := ops }).irq := by
  rw [hostAccess_wr] at h
  cases h
  rfl

theorem getLsbD_zero_eq_decide (v : Word) : v.getLsbD 0 = decide (v.toNat % 2 = 1) := by
  rw [BitVec.getLsbD, Nat.testBit_zero]

theorem getLsbD_one_eq_decide (v : Word) : v.getLsbD 1 = decide (v.toNat / 2 % 2 = 1) := by
  rw [BitVec.getLsbD, Nat.testBit_eq_decide_div_mod_eq, Nat.pow_one]

/-- A CTRL write without SRST writes IRQ_EN alone, so `irq` is the new IRQ_EN with DONE (10_state.md R24). -/
theorem regWrite_ctrl_irq {v : Word} (hsrst : v.toNat / 2 % 2 = 0) (s : State) :
    (s.regWrite .ctrl v).irq = (decide (v.toNat % 2 = 1) && s.done) := by
  have hbit : ¬ v.getLsbD 1 = true := by
    rw [getLsbD_one_eq_decide, hsrst]
    decide
  rw [State.regWrite, if_neg hbit, getLsbD_zero_eq_decide, State.irq]

/-- A STATUS write with bit 1 set clears DONE (10_state.md R25). -/
theorem regWrite_status_done {v : Word} (hw1c : v.toNat / 2 % 2 = 1) (s : State) :
    (s.regWrite .status v).done = false := by
  rw [State.regWrite, State.clearStatus_done, getLsbD_one_eq_decide, hw1c]
  simp

/-- Settles O49: every completion leaves DONE set, launch, reset and W1C leave it clear, and a CTRL write without SRST
decides IRQ_EN. -/
theorem interruptFollowsEnableAndDone : Obligations.InterruptFollowsEnableAndDone := by
  refine ⟨State.irq_eq_true_iff, fun _ _ _ => exec_irq, fun s w => ⟨?_, ?_⟩, fun s => ?_, fun s t v ops hv h => ?_,
    fun s t v ops hv h => ?_, fun s t v ops hv h => ?_⟩
  · exact State.irq_of_done (s.raiseError_done _ _)
  · exact State.irq_of_not_done (s.launch_done w)
  · exact State.irq_of_not_done s.blockReset_done
  · rw [irq_of_hostAccess_wr h]
    exact State.irq_of_not_done (regWrite_status_done hv _)
  · rw [irq_of_hostAccess_wr h, regWrite_ctrl_irq (by omega), decide_eq_false (by omega), Bool.false_and]
  · rw [irq_of_hostAccess_wr h, regWrite_ctrl_irq (by omega), decide_eq_true (by omega), Bool.true_and]

end Sys2Proof.Machine
end

section
/-! PROOFS. One step of the machine: everything a host access and a step of any agent can do, said once
(60_exceptions.md R172), and that every step keeps the invariant. -/

namespace Sys2Proof.Machine

/-- What one host access leaves of the machine, once the host's program has moved on. -/
inductive HostEffect (s : State) : State → Prop
  /-- a register write that the bus answers -/
  | write (r : Reg) (v : Word) : HostEffect s (s.regWrite r v).answered
  /-- a store that the bus answers and the block ignores -/
  | ignored : HostEffect s s.answered
  /-- a store that the bus answers with an error -/
  | storeError : HostEffect s s.busErrored
  /-- a load of a value into `t` -/
  | load (v : Word) : HostEffect s (s.loaded v)
  /-- a load that the bus answers with an error -/
  | loadError (v : Word) : HostEffect s (s.busErrored.loadedFree v)
  /-- a load in a race -/
  | loadRace (v : Word) : HostEffect s (s.answered.loadedFree v)
  /-- a byte store to memory -/
  | store (a : Word) (b : Byte) : HostEffect s (s.raceStore a b).answered
  /-- a byte store to a device in a race -/
  | mark (a : Word) : HostEffect s (s.raceMark a).answered

theorem hostEffect_regStore (off : BitVec 8) (width : AccessWidth) (v : Word) (s : State) :
    HostEffect s (s.regStore off width v) := by
  unfold State.regStore
  split
  · split
    · exact .write _ v
    · exact .ignored
  · exact .storeError

theorem hostEffect_regLoad {off : BitVec 8} {width : AccessWidth} {s t : State}
    (h : s.regLoad off width = .next t) : HostEffect s t := by
  rcases regLoad_cases off width s with ⟨he, -⟩ | ⟨v, he⟩ | ⟨-, he⟩ <;> rw [he] at h <;> cases h
  · exact .load v
  · exact .loadError _

theorem hostEffect_storeByte {a : Word} {b : Byte} {s t : State} (h : s.storeByte a b = .next t) :
    HostEffect s t := by
  rcases storeByte_cases a b s with ⟨-, he⟩ | ⟨-, -, he⟩ | ⟨-, -, -, he⟩ | ⟨-, -, -, he⟩ <;> rw [he] at h <;> cases h
  · exact .storeError
  · exact .store a b
  · exact .mark a

theorem hostEffect_loadByte {a : Word} {s t : State} (h : s.loadByte a = .next t) : HostEffect s t := by
  rcases loadByte_cases a s with ⟨-, he⟩ | ⟨-, -, he⟩ | ⟨-, -, -, he⟩ | ⟨-, -, -, he⟩ <;> rw [he] at h <;> cases h
  · exact .loadError _
  · exact .loadRace _
  · exact .load _

/-- After a poll's load the loop is left exactly on the value (30_encoding.md R87). -/
theorem pollNext_loaded (mask v x : Word) (rest : List HostOp) (s : State) :
    pollNext mask v rest (s.loaded x) =
      State.loaded x { s with program := if x &&& mask = v then rest else s.program } := by
  rw [pollNext, State.loaded_hostT]
  split <;> rfl

/-- One iteration of a poll loads the register and stays in the loop, or leaves it (30_encoding.md R87). -/
theorem hostAccess_poll (r : Reg) (mask v : Word) (rest : List HostOp) (s : State) :
    hostAccess (.poll r mask v) rest s =
      if r = .errCode ∧ 9#4 < s.errCode then .fault .reservedErrorCode
      else .next (State.loaded (s.regRead r)
        { s with program := if s.regRead r &&& mask = v then rest else s.program }) := by
  rw [hostAccess, regLoad_offset, ← pollNext_loaded]
  by_cases hr : r = .errCode ∧ 9#4 < s.errCode
  · rw [if_pos hr, if_pos hr]
  · rw [if_neg hr, if_neg hr]

/-- Everything a host access that goes on can do: the program moves on, or stays at a poll, and one effect happens. -/
theorem hostAccess_effect {op : HostOp} {rest : List HostOp} {s t : State} (h : hostAccess op rest s = .next t) :
    ∃ ops, HostEffect { s with program := ops } t := by
  cases op with
  | wr r v =>
    cases h
    exact ⟨rest, hostEffect_regStore _ _ _ _⟩
  | rd r => exact ⟨rest, hostEffect_regLoad h⟩
  | poll r mask v =>
    rw [hostAccess_poll] at h
    split at h <;> cases h
    exact ⟨_, .load _⟩
  | storeByte a b => exact ⟨rest, hostEffect_storeByte h⟩
  | loadByte a => exact ⟨rest, hostEffect_loadByte h⟩
  | regStore off width v =>
    cases h
    exact ⟨rest, hostEffect_regStore _ _ _ _⟩
  | regLoad off width => exact ⟨rest, hostEffect_regLoad h⟩

/-- What one turn of an agent leaves of the machine (60_exceptions.md R172). -/
inductive TurnEffect (s : State) : State → Prop
  /-- an agent with nothing to do (notes/assumptions/17.md) -/
  | idle : TurnEffect s s
  /-- a host access -/
  | host (ops : List HostOp) {t : State} (h : HostEffect { s with program := ops } t) : TurnEffect s t
  /-- the completion of a command -/
  | command (i : Instr) {t : State} (hbusy : s.busy = true) (h : exec i s = .next t) : TurnEffect s t
  /-- the completion of an illegal word -/
  | illegal (w : Word) (hbusy : s.busy = true) : TurnEffect s (completeIllegal w s)
  /-- the reset input -/
  | reset : TurnEffect s s.blockReset
  /-- a store of another bus master -/
  | busMaster (a : Word) (b : Byte) : TurnEffect s (s.busMasterStore a b)

theorem engineStep_effect {s t : State} (hbusy : s.busy = true) (h : engineStep s = .next t) : TurnEffect s t := by
  unfold engineStep at h
  split at h
  · cases h
  · split at h
    · exact .command _ hbusy h
    · cases h
      exact .illegal _ hbusy

theorem hostStep_effect {s t : State} (h : hostStep s = .next t) : TurnEffect s t := by
  unfold hostStep at h
  split at h
  · cases h
    exact .idle
  · obtain ⟨ops, heff⟩ := hostAccess_effect h
    exact .host ops heff

theorem takeTurn_effect {turn : Turn} {s t : State} (h : takeTurn turn s = .next t) : TurnEffect s t := by
  cases turn with
  | host => exact hostStep_effect h
  | engine =>
    by_cases hbusy : s.busy = true
    · rw [takeTurn, if_pos hbusy] at h
      exact engineStep_effect hbusy h
    · rw [takeTurn, if_neg hbusy] at h
      cases h
      exact .idle
  | hwReset =>
    cases h
    exact .reset
  | busMaster a b =>
    cases h
    exact .busMaster a b

/-- Everything a step can do: it takes a turn off the schedule, if there is one, and the turn has its effect. -/
theorem step_effect {s t : State} (h : step s = .next t) : ∃ turns, TurnEffect { s with schedule := turns } t := by
  unfold step machineStep at h
  split at h
  · exact ⟨s.schedule, takeTurn_effect h⟩
  · exact ⟨_, takeTurn_effect h⟩

/-! ### The invariant -/

theorem inv_withProgram {s : State} (h : s.Inv) (ops : List HostOp) : State.Inv { s with program := ops } :=
  ⟨h.memWf, h.phase, h.busyClear, h.codeLegal, h.errHasCode, h.infoOfNone, h.spoiledFaulted, h.abnormalSpoiled⟩

theorem inv_withSchedule {s : State} (h : s.Inv) (turns : List Turn) : State.Inv { s with schedule := turns } :=
  ⟨h.memWf, h.phase, h.busyClear, h.codeLegal, h.errHasCode, h.infoOfNone, h.spoiledFaulted, h.abnormalSpoiled⟩

theorem inv_answered {s : State} (h : s.Inv) : s.answered.Inv :=
  ⟨h.memWf, h.phase, h.busyClear, h.codeLegal, h.errHasCode, h.infoOfNone, h.spoiledFaulted, h.abnormalSpoiled⟩

theorem inv_loaded {s : State} (h : s.Inv) (v : Word) : (s.loaded v).Inv :=
  ⟨h.memWf, h.phase, h.busyClear, h.codeLegal, h.errHasCode, h.infoOfNone, h.spoiledFaulted, h.abnormalSpoiled⟩

theorem inv_loadedFree {s : State} (h : s.Inv) (v : Word) : (s.loadedFree v).Inv :=
  ⟨h.memWf, h.phase, h.busyClear, h.codeLegal, h.errHasCode, h.infoOfNone, h.spoiledFaulted, h.abnormalSpoiled⟩

theorem inv_busErrored {s : State} (h : s.Inv) : s.busErrored.Inv :=
  ⟨h.memWf, h.phase, h.busyClear, h.codeLegal, h.errHasCode, h.infoOfNone,
    fun hs => ⟨(h.spoiledFaulted hs).1, rfl⟩, h.abnormalSpoiled⟩

theorem inv_hostEffect {s t : State} (h : s.Inv) (heff : HostEffect s t) : t.Inv := by
  cases heff with
  | write r v => exact inv_answered (inv_regWrite h r v)
  | ignored => exact inv_answered h
  | storeError => exact inv_busErrored h
  | load v => exact inv_loaded h v
  | loadError v => exact inv_loadedFree (inv_busErrored h) v
  | loadRace v => exact inv_loadedFree (inv_answered h) v
  | store a b => exact inv_answered (inv_raceStore h a b)
  | mark a => exact inv_answered (inv_raceMark h a)

/-- A command's completion reports no detail without an error, and leaves memory canonical: its free bytes and its
result lie below the top of memory once the region checks pass. -/
theorem inv_exec {i : Instr} {s t : State} (h : s.Inv) (hexec : exec i s = .next t) : t.Inv := by
  rcases exec_cases i s with ⟨e, he, -, hx⟩ | ⟨e, -, he, hx⟩ | ⟨-, -, -, hx⟩ | ⟨-, hregions, -, hx⟩ <;>
    rw [hx] at hexec <;> cases hexec
  · refine inv_complete h.memWf _ _ _ fun hnone => ?_
    rcases paramError_rowsOf_code he with hc | hc | hc | hc <;> rw [hc] at hnone <;> cases hnone
  · refine inv_complete h.memWf _ _ _ fun hnone => ?_
    rcases regionError_code he with hc | hc | hc <;> rw [hc] at hnone <;> cases hnone
  · exact inv_complete (havocMemory_wf h.memWf _ _ _) _ _ _ fun hnone => by cases hnone
  · have hfit := ((regionError_none_iff i s.cfg).mp hregions).1
    unfold State.succeed
    split
    · exact inv_complete (havocMemory_wf h.memWf _ _ _) _ _ _ fun _ => rfl
    · refine inv_complete ?_ _ _ _ fun _ => rfl
      rw [State.havoc_mem]
      exact havocMemory_wf (resultOf_wf h.memWf hfit) _ _ _

theorem inv_turnEffect {s t : State} (h : s.Inv) (heff : TurnEffect s t) : t.Inv := by
  cases heff with
  | idle => exact h
  | host ops heff => exact inv_hostEffect (inv_withProgram h ops) heff
  | command i _ hexec => exact inv_exec h hexec
  | illegal w _ => exact inv_complete h.memWf _ _ _ fun hnone => by cases hnone
  | reset => exact inv_blockReset h
  | busMaster a b => exact inv_busMasterStore h a b

/-- Settles O30: a step is one turn's effect, and each effect keeps the invariant by the lemma of its operation. -/
theorem everyStepKeepsTheInvariant : Obligations.EveryStepKeepsTheInvariant := by
  intro s t h hstep
  obtain ⟨turns, heff⟩ := step_effect hstep
  exact inv_turnEffect (inv_withSchedule h turns) heff

end Sys2Proof.Machine
end

section
/-! PROOFS. Completions: what every completion writes, the precise errors 1 to 8, and the memory that a completion or an
abort leaves (60_exceptions.md R167, R168, 20_memory.md R60). -/

namespace Sys2Proof.Machine

@[simp] theorem State.succeed_busy (s : State) (rs : List Region) (result : CommandResult) :
    (s.succeed rs result).busy = false := by
  unfold State.succeed
  split <;> rfl

@[simp] theorem State.succeed_errInfo (s : State) (rs : List Region) (result : CommandResult) :
    (s.succeed rs result).errInfo = 0#32 := by
  unfold State.succeed
  split <;> rfl

@[simp] theorem State.succeed_pending (s : State) (rs : List Region) (result : CommandResult) :
    (s.succeed rs result).pending = none := by
  unfold State.succeed
  split <;> rfl

@[simp] theorem State.succeed_spoiled (s : State) (rs : List Region) (result : CommandResult) :
    (s.succeed rs result).spoiled = false := by
  unfold State.succeed
  split <;> rfl

@[simp] theorem State.busError_errCode (s : State) (rs : List Region) (failing : List Nat) :
    (s.busError rs failing).errCode = 9#4 := rfl

/-- A normal completion, with ACC_OVF as the result or a free value has it (60_exceptions.md R167). -/
theorem succeed_completed (s : State) (rs : List Region) (result : CommandResult) :
    Completed 0#4 0#32 (s.succeed rs result).accOvf (s.succeed rs result) := by
  simp [Completed]

/-- A parameter or region check never reports NONE, ILLEGAL_OP or BUS_ERROR (60_exceptions.md R161 to R164). -/
theorem checkCode_range {code : ErrCode}
    (h : (code = .badDim ∨ code = .badChannel ∨ code = .badKernel ∨ code = .badShift) ∨
      code = .badAddr ∨ code = .align ∨ code = .overlap) :
    code ≠ .none ∧ 2 ≤ code.bits.toNat ∧ code.bits.toNat ≤ 8 := by
  rcases h with (rfl | rfl | rfl | rfl) | rfl | rfl | rfl <;> decide

/-- The completion of a command in one of three ways: a failed check, BUS_ERROR, or success (60_exceptions.md R162). -/
theorem exec_outcomes {i : Instr} {s t : State} (h : exec i s = .next t) :
    (∃ (code : ErrCode) (info : Word), 2 ≤ code.bits.toNat ∧ code.bits.toNat ≤ 8 ∧
      t = ErrorCompletion code.bits info s) ∨
    (failingBytes s.params (usedRegions i s.cfg) ≠ [] ∧
      t = s.busError (usedRegions i s.cfg) (failingBytes s.params (usedRegions i s.cfg))) ∨
    t = s.succeed (usedRegions i s.cfg) (resultOf i s) := by
  rcases exec_cases i s with ⟨e, he, -, hx⟩ | ⟨e, -, he, hx⟩ | ⟨-, -, hb, hx⟩ | ⟨-, -, -, hx⟩ <;>
    rw [hx] at h <;> cases h
  · obtain ⟨hne, hlow, hhigh⟩ := checkCode_range (.inl (paramError_rowsOf_code he))
    exact .inl ⟨e.1, e.2, hlow, hhigh, raiseError_eq_errorCompletion hne _ _⟩
  · obtain ⟨hne, hlow, hhigh⟩ := checkCode_range (.inr (regionError_code he))
    exact .inl ⟨e.1, e.2, hlow, hhigh, raiseError_eq_errorCompletion hne _ _⟩
  · exact .inr (.inl ⟨mt (failingBytes_nil_iff i s).mp hb, rfl⟩)
  · exact .inr (.inr rfl)

theorem errorCompletion_completed {code : BitVec 4} (hcode : code ≠ 0#4) (info : Word) (s : State) :
    Completed code info false (ErrorCompletion code info s) :=
  ⟨rfl, rfl, (decide_eq_true hcode).symm, rfl, rfl, rfl, rfl, rfl⟩

/-- The flags and registers that every completion of a command writes (60_exceptions.md R167). -/
theorem exec_completed {i : Instr} {s t : State} (h : exec i s = .next t) :
    Completed t.errCode t.errInfo t.accOvf t ∧ t.errCode ≠ 1#4 ∧ t.errCode.toNat ≤ 9 := by
  rcases exec_outcomes h with ⟨code, info, hlow, hhigh, rfl⟩ | ⟨hne, rfl⟩ | rfl
  · have hzero : code.bits ≠ 0#4 := fun hz => by simp [hz] at hlow
    have hone : code.bits ≠ 1#4 := fun hz => by simp [hz] at hlow
    exact ⟨errorCompletion_completed hzero info s, hone, hhigh.trans (by decide)⟩
  · rw [State.busError_errCode]
    exact ⟨⟨rfl, rfl, rfl, rfl, rfl, rfl, rfl, rfl⟩, by decide, by decide⟩
  · have hcode := s.succeed_errCode (usedRegions i s.cfg) (resultOf i s)
    rw [hcode, State.succeed_errInfo]
    exact ⟨succeed_completed _ _ _, by decide, by decide⟩

theorem exec_next (i : Instr) (s : State) : ∃ t, exec i s = .next t := by
  rcases exec_cases i s with ⟨e, -, -, h⟩ | ⟨e, -, -, h⟩ | ⟨-, -, -, h⟩ | ⟨-, -, -, h⟩ <;> exact ⟨_, h⟩

/-- Settles O28: each of a command's outcomes is a completion. -/
theorem everyCommandCompletes : Obligations.EveryCommandCompletes := by
  intro i s
  obtain ⟨t, h⟩ := exec_next i s
  exact ⟨t, h, exec_same h, exec_completed h⟩

theorem completeIllegal_eq_errorCompletion (w : Word) (s : State) : completeIllegal w s = ErrorCompletion 1#4 w s :=
  raiseError_eq_errorCompletion (by decide) w s

/-- Settles O26: codes 1 to 8 come from failed checks alone; BUS_ERROR has code 9 and success code 0. -/
theorem errorsBelowBusErrorArePrecise : Obligations.ErrorsBelowBusErrorArePrecise := by
  refine ⟨fun s w => completeIllegal_eq_errorCompletion w s, fun i s t h hlow hhigh => ?_⟩
  rcases exec_outcomes h with ⟨code, info, -, -, rfl⟩ | ⟨-, rfl⟩ | rfl
  · rfl
  · exact absurd hhigh (by simp)
  · simp at hlow

/-- Settles O27: the frame of a completion, and the frame of an abort. -/
theorem commandsLeaveOtherMemory : Obligations.CommandsLeaveOtherMemory := by
  refine ⟨fun i s t a h ha => exec_read_out h ha, fun i s w a hbusy hpend hdec ha => ?_⟩
  obtain ⟨-, hrunning, -⟩ := abortedMemory_blockReset s
  exact hrunning w i hbusy hpend hdec a (.inl ha)

end Sys2Proof.Machine
end

section
/-! PROOFS. The flags, the configuration and the fault mark along a step (10_state.md R25, R38, R39, R42). -/

namespace Sys2Proof.Machine

/-- None of DONE, ERR and ACC_OVF rises (10_state.md R25, R42). -/
def NoFlagRises (s t : State) : Prop :=
  (t.done = true → s.done = true) ∧ (t.err = true → s.err = true) ∧ (t.accOvf = true → s.accOvf = true)

theorem noFlagRises_of_eq {s t : State} (hdone : t.done = s.done) (herr : t.err = s.err) (hovf : t.accOvf = s.accOvf) :
    NoFlagRises s t := by
  rw [NoFlagRises, hdone, herr, hovf]
  exact ⟨id, id, id⟩

theorem noFlagRises_of_clear {s t : State} (hdone : t.done = false) (herr : t.err = false) (hovf : t.accOvf = false) :
    NoFlagRises s t := by
  simp [NoFlagRises, hdone, herr, hovf]

/-- No register write raises a flag (10_state.md R25). -/
theorem noFlagRises_regWrite (r : Reg) (v : Word) (s : State) : NoFlagRises s (s.regWrite r v) := by
  rcases regWrite_cases r v s with e | ⟨-, -, e⟩ | ⟨-, -, e⟩ | ⟨-, e⟩ | ⟨-, e⟩ | ⟨-, -, e⟩ | ⟨-, -, e⟩ <;> rw [e]
  · exact noFlagRises_of_eq rfl rfl rfl
  · exact noFlagRises_of_clear rfl rfl rfl
  · exact noFlagRises_of_eq rfl rfl rfl
  · simp +contextual [NoFlagRises]
  · exact noFlagRises_of_eq rfl rfl rfl
  · exact noFlagRises_of_clear rfl rfl rfl
  · exact noFlagRises_of_eq rfl rfl rfl

theorem noFlagRises_hostEffect {s t : State} (h : HostEffect s t) : NoFlagRises s t := by
  cases h with
  | write r v => exact noFlagRises_regWrite r v s
  | ignored | storeError | load | loadError | loadRace | store | mark => exact noFlagRises_of_eq rfl rfl rfl

theorem busMasterStore_mark_or_store (a : Word) (b : Byte) (s : State) :
    s.busMasterStore a b = s.raceMark a ∨ s.busMasterStore a b = s.raceStore a b := by
  rcases busMasterStore_cases a b s with ⟨-, h⟩ | ⟨-, -, h⟩
  · exact .inl h
  · exact .inr h

/-- A turn raises a flag only by completing a command. -/
theorem noFlagRises_or_completed {s t : State} (h : TurnEffect s t) :
    NoFlagRises s t ∨ (s.busy = true ∧ t.busy = false ∧ t.done = true) := by
  cases h with
  | idle => exact .inl (noFlagRises_of_eq rfl rfl rfl)
  | host ops h => exact .inl (noFlagRises_hostEffect (s := { s with program := ops }) h)
  | command i hbusy h =>
    obtain ⟨⟨hidle, hdone, -⟩, -⟩ := exec_completed h
    exact .inr ⟨hbusy, hidle, hdone⟩
  | illegal w hbusy => exact .inr ⟨hbusy, rfl, rfl⟩
  | reset => exact .inl (noFlagRises_of_clear rfl rfl rfl)
  | busMaster a b =>
    rcases busMasterStore_mark_or_store a b s with h | h <;> rw [h] <;> exact .inl (noFlagRises_of_eq rfl rfl rfl)

/-- Settles O34: of a turn's effects only a completion raises a flag. -/
theorem completionFlagsRiseOnlyAtCompletion : Obligations.CompletionFlagsRiseOnlyAtCompletion := by
  intro s t hstep hrise
  obtain ⟨turns, h⟩ := step_effect hstep
  rcases noFlagRises_or_completed h with ⟨hdone, herr, hovf⟩ | hcompleted
  · rcases hrise with ⟨h0, h1⟩ | ⟨h0, h1⟩ | ⟨h0, h1⟩
    · simpa [h0] using hdone h1
    · simpa [h0] using herr h1
    · simpa [h0] using hovf h1
  · exact hcompleted

/-- The running command goes on with its registers and its word (10_state.md R39). -/
def CommandGoesOn (s t : State) : Prop := t.busy = true ∧ t.cfg = s.cfg ∧ t.pending = s.pending

theorem blockAtReset_blockReset (s : State) : BlockAtReset s.blockReset :=
  ⟨rfl, rfl, rfl, rfl, rfl, rfl, rfl, rfl, rfl, rfl, rfl⟩

/-- A register write while BUSY leaves the command running, or resets the block (10_state.md R24, R39). -/
theorem commandGoesOn_regWrite {s : State} (hbusy : s.busy = true) (r : Reg) (v : Word) :
    CommandGoesOn s (s.regWrite r v) ∨ BlockAtReset (s.regWrite r v) := by
  have hnot : ¬ s.busy = false := by simp [hbusy]
  rcases regWrite_cases r v s with e | ⟨-, -, e⟩ | ⟨-, -, e⟩ | ⟨-, e⟩ | ⟨-, e⟩ | ⟨-, hidle, -⟩ | ⟨-, hidle, -⟩
  · exact .inl (e.symm ▸ ⟨hbusy, rfl, rfl⟩)
  · exact .inr (e.symm ▸ blockAtReset_blockReset s)
  · exact .inl (e.symm ▸ ⟨hbusy, rfl, rfl⟩)
  · exact .inl (e.symm ▸ ⟨hbusy, rfl, rfl⟩)
  · exact .inl (e.symm ▸ ⟨hbusy, rfl, rfl⟩)
  · exact absurd hidle hnot
  · exact absurd hidle hnot

theorem commandGoesOn_hostEffect {s t : State} (hbusy : s.busy = true) (h : HostEffect s t) :
    CommandGoesOn s t ∨ BlockAtReset t := by
  cases h with
  | write r v => exact commandGoesOn_regWrite hbusy r v
  | ignored | storeError | load | loadError | loadRace | store | mark => exact .inl ⟨hbusy, rfl, rfl⟩

/-- What a turn does to a running command: it goes on, completes, or is aborted by a reset. -/
theorem turnEffect_busy {s t : State} (hbusy : s.busy = true) (h : TurnEffect s t) :
    CommandGoesOn s t ∨ (t.busy = false ∧ t.done = true ∧ t.pending = none ∧ t.cfg = s.cfg) ∨ BlockAtReset t := by
  cases h with
  | idle => exact .inl ⟨hbusy, rfl, rfl⟩
  | host ops h => exact (commandGoesOn_hostEffect (s := { s with program := ops }) hbusy h).imp_right .inr
  | command i _ h =>
    obtain ⟨⟨hidle, hdone, -, -, -, -, hpend, -⟩, -⟩ := exec_completed h
    obtain ⟨hcfg, -⟩ := exec_same h
    exact .inr (.inl ⟨hidle, hdone, hpend, hcfg⟩)
  | illegal w _ => exact .inr (.inl ⟨rfl, rfl, rfl, rfl⟩)
  | reset => exact .inr (.inr (blockAtReset_blockReset s))
  | busMaster a b =>
    rcases busMasterStore_mark_or_store a b s with h | h <;> rw [h] <;> exact .inl ⟨hbusy, rfl, rfl⟩

/-- Settles O33: where the command does not go on, it completed or the block was reset. -/
theorem busyFallsOnlyByCompletionOrReset : Obligations.BusyFallsOnlyByCompletionOrReset := by
  intro s t hbusy hstep hidle
  obtain ⟨turns, h⟩ := step_effect hstep
  rcases turnEffect_busy (s := { s with schedule := turns }) hbusy h with ⟨hbusy', -, -⟩ | ⟨-, hdone, hpend, hcfg⟩ | hreset
  · simp [hidle] at hbusy'
  · exact .inl ⟨hdone, hpend, hcfg⟩
  · exact .inr hreset

/-- Settles O35: a completion and a reset both end BUSY, so while it stays the command goes on. -/
theorem configurationHoldsWhileBusy : Obligations.ConfigurationHoldsWhileBusy := by
  intro s t hbusy hstep hbusy'
  obtain ⟨turns, h⟩ := step_effect hstep
  rcases turnEffect_busy (s := { s with schedule := turns }) hbusy h with ⟨-, hcfg, hpend⟩ | ⟨hidle, -⟩ | ⟨-, -, hidle, -⟩
  · exact ⟨hcfg, hpend⟩
  · simp [hbusy'] at hidle
  · simp [hbusy'] at hidle

/-- The host-fault mark stays, and the parameters are the same (10_state.md R38, 00_scope.md R5). -/
def KeepsFaultAndParams (s t : State) : Prop := (s.faulted = true → t.faulted = true) ∧ t.params = s.params

theorem keepsFaultAndParams_of_eq {s t : State} (hf : t.faulted = s.faulted) (hp : t.params = s.params) :
    KeepsFaultAndParams s t := ⟨fun h => hf.trans h, hp⟩

theorem keepsFaultAndParams_regWrite (r : Reg) (v : Word) (s : State) : KeepsFaultAndParams s (s.regWrite r v) := by
  rcases regWrite_cases r v s with e | ⟨-, -, e⟩ | ⟨-, -, e⟩ | ⟨-, e⟩ | ⟨-, e⟩ | ⟨-, -, e⟩ | ⟨-, -, e⟩ <;> rw [e]
  · exact keepsFaultAndParams_of_eq rfl rfl
  · exact keepsFaultAndParams_of_eq s.blockReset_faulted s.blockReset_params
  · exact keepsFaultAndParams_of_eq rfl rfl
  · exact keepsFaultAndParams_of_eq rfl rfl
  · exact keepsFaultAndParams_of_eq rfl rfl
  · exact ⟨fun h => by rw [State.launch_faulted, h, Bool.true_or], rfl⟩
  · exact keepsFaultAndParams_of_eq rfl rfl

theorem keepsFaultAndParams_raceMark (a : Word) (s : State) : KeepsFaultAndParams s (s.raceMark a) :=
  ⟨fun h => by rw [State.raceMark_faulted, h, Bool.true_or], rfl⟩

theorem keepsFaultAndParams_hostEffect {s t : State} (h : HostEffect s t) : KeepsFaultAndParams s t := by
  cases h with
  | write r v => exact keepsFaultAndParams_regWrite r v s
  | ignored | load | loadRace => exact keepsFaultAndParams_of_eq rfl rfl
  | storeError | loadError => exact ⟨fun _ => rfl, rfl⟩
  | store a | mark a => exact keepsFaultAndParams_raceMark a s

theorem keepsFaultAndParams_turnEffect {s t : State} (h : TurnEffect s t) : KeepsFaultAndParams s t := by
  cases h with
  | idle => exact keepsFaultAndParams_of_eq rfl rfl
  | host ops h => exact keepsFaultAndParams_hostEffect (s := { s with program := ops }) h
  | command i _ h =>
    obtain ⟨-, -, -, hf, -, -, -, -, hp⟩ := exec_same h
    exact keepsFaultAndParams_of_eq hf hp
  | illegal w _ => exact keepsFaultAndParams_of_eq rfl rfl
  | reset => exact keepsFaultAndParams_of_eq s.blockReset_faulted s.blockReset_params
  | busMaster a b =>
    rcases busMasterStore_mark_or_store a b s with h | h <;> rw [h] <;> exact keepsFaultAndParams_raceMark a s

/-- Settles O32: every effect of a turn keeps the mark, and none writes the parameters. -/
theorem faultMarkIsNeverCleared : Obligations.FaultMarkIsNeverCleared := by
  intro s t hstep
  obtain ⟨turns, h⟩ := step_effect hstep
  exact keepsFaultAndParams_turnEffect (s := { s with schedule := turns }) h

end Sys2Proof.Machine
end

section
/-! PROOFS. The engine's turn: decoding and completing the pending word, and a polling host that waits for it
(30_encoding.md R81 to R84, 60_exceptions.md R167, R172, 70_reset_and_hazards.md R200). -/

namespace Sys2Proof

theorem decode_encode (i : Instr) : decode (encode i) = .ok i := by
  cases i <;> rfl

/-- Settles O1, command by command. -/
theorem encodedCommandDecodesBack : Obligations.EncodedCommandDecodesBack := decode_encode

/-- Settles O3: the five words are the encoder's, and the reserved ones are computed. -/
theorem tableWordsDecode : Obligations.TableWordsDecode :=
  ⟨decode_encode .conv2d, decode_encode .dwconv, decode_encode .pwconv, decode_encode .pwconvFast,
    decode_encode .avgpool2x2, rfl, rfl, rfl⟩

/-- A command word has 32 bits, so placing it as a table row loses none. -/
theorem tableWord_toNat (w : Word) : tableWord 32 w.toNat = w := by
  rw [tableWord, Nat.mod_eq_of_lt w.isLt, BitVec.ofNat_toNat, BitVec.setWidth_eq]

end Sys2Proof

namespace Sys2Proof.Machine

theorem engineStep_command {s : State} {w : Word} {i : Instr} (hpend : s.pending = some w) (hdec : decode w = .ok i) :
    engineStep s = exec i s := by
  simp only [engineStep, hpend, hdec]

theorem engineStep_illegal {s : State} {w : Word} {e : DecodeError} (hpend : s.pending = some w)
    (hdec : decode w = .error e) : engineStep s = .next (completeIllegal w s) := by
  simp only [engineStep, hpend, hdec]

/-- With no turn listed the engine moves while BUSY (notes/assumptions/5.md). -/
theorem step_default_busy {s : State} (hsched : s.schedule = []) (hbusy : s.busy = true) : step s = engineStep s := by
  simp [step, machineStep, hsched, defaultTurn, hbusy, takeTurn]

/-- With no turn listed the host moves while IDLE (notes/assumptions/5.md). -/
theorem step_default_idle {s : State} {op : HostOp} {ops : List HostOp} (hsched : s.schedule = [])
    (hidle : s.busy = false) (hprog : s.program = op :: ops) : step s = hostAccess op ops s := by
  simp [step, machineStep, hsched, defaultTurn, hidle, takeTurn, hostStep, hprog]

/-- Settles O4: the engine's turn, listed or by default, is the step of the pending word. -/
theorem stepRunsTheDecodedCommand : Obligations.StepRunsTheDecodedCommand := by
  intro s w hbusy hpend
  refine ⟨fun i hdec => ⟨fun hsched => ?_, fun rest hsched => ?_⟩, fun e hdec => ⟨fun hsched => ?_, fun rest hsched => ?_⟩⟩
  · rw [step_default_busy hsched hbusy, engineStep_command hpend hdec]
  · rw [step_engine_turn hsched hbusy, engineStep_command (s := { s with schedule := rest }) hpend hdec]
  · rw [step_default_busy hsched hbusy, engineStep_illegal hpend hdec, completeIllegal_eq_errorCompletion]
  · rw [step_completes_illegal hbusy hpend hdec hsched, completeIllegal_eq_errorCompletion]

/-- Settles O5: the host's turn, by default while IDLE or listed, is its next access. -/
theorem stepRunsTheHostsNextAccess : Obligations.StepRunsTheHostsNextAccess := fun _ _ _ hprog =>
  ⟨fun hsched hidle => step_default_idle hsched hidle hprog, fun _ hsched => step_host_turn hsched hprog⟩

/-- Settles O6: placing the word launches it with no turn listed, so the engine moves next and completes it. -/
theorem placedWordRunsNext : Obligations.PlacedWordRunsNext := by
  intro s i
  rw [step_default_busy rfl rfl]
  refine engineStep_command (w := encode i) ?_ (decode_encode i)
  exact congrArg some (tableWord_toNat (encode i))

/-! ### A polling host -/

theorem engineStep_completes {s : State} {w : Word} (hpend : s.pending = some w) :
    ∃ t, engineStep s = .next t ∧ t.busy = false ∧ t.done = true := by
  cases hdec : decode w with
  | ok i =>
    obtain ⟨t, ht⟩ := exec_next i s
    obtain ⟨⟨hidle, hdone, -⟩, -⟩ := exec_completed ht
    exact ⟨t, (engineStep_command hpend hdec).trans ht, hidle, hdone⟩
  | error e => exact ⟨_, engineStep_illegal hpend hdec, rfl, rfl⟩

/-- A produced error code is no reserved one, so loading it is not stuck (93_implementation_defined.md K-23). -/
theorem not_reserved_of_le {s : State} (hcode : s.errCode.toNat ≤ 9) (r : Reg) :
    ¬ (r = .errCode ∧ 9#4 < s.errCode) := by
  rintro ⟨-, hlt⟩
  exact absurd (BitVec.lt_def.mp hlt) (Nat.not_lt.mpr hcode)

/-- `rd REG` loads the register into `t` (30_encoding.md R87). -/
theorem hostAccess_rd {s : State} (hcode : s.errCode.toNat ≤ 9) (r : Reg) (ops : List HostOp) :
    hostAccess (.rd r) ops s = .next (State.loaded (s.regRead r) { s with program := ops }) := by
  rw [hostAccess, regLoad_offset, if_neg (not_reserved_of_le hcode r)]
  cases r <;> rfl

theorem hostAccess_poll_next {s : State} (hcode : s.errCode.toNat ≤ 9) (r : Reg) (mask v : Word) (ops : List HostOp) :
    hostAccess (.poll r mask v) ops s = .next (State.loaded (s.regRead r)
      { s with program := if s.regRead r &&& mask = v then ops else s.program }) := by
  rw [hostAccess_poll, if_neg (not_reserved_of_le hcode r)]

/-- An access that only looks at a register (30_encoding.md R87). -/
abbrev OnlyReads (op : HostOp) : Prop := (∃ r, op = .rd r) ∨ ∃ r mask v, op = .poll r mask v

/-- A command runs, and what is left of the host's program only reads and polls. -/
def PolledCommand (w : Word) (s : State) : Prop :=
  s.busy = true ∧ s.pending = some w ∧ s.errCode.toNat ≤ 9 ∧ ∀ op ∈ s.program, OnlyReads op

theorem hostStep_polls {w : Word} {s : State} (h : PolledCommand w s) :
    ∃ u, hostStep s = .next u ∧ PolledCommand w u ∧ u.schedule = s.schedule := by
  obtain ⟨hbusy, hpend, hcode, hreads⟩ := h
  unfold hostStep
  cases hprog : s.program with
  | nil => exact ⟨s, rfl, ⟨hbusy, hpend, hcode, hreads⟩, rfl⟩
  | cons op ops =>
    obtain ⟨hop, hops⟩ := List.forall_mem_cons.mp (hprog ▸ hreads)
    rcases hop with ⟨r, rfl⟩ | ⟨r, mask, v, rfl⟩
    · exact ⟨_, hostAccess_rd hcode r ops, ⟨hbusy, hpend, hcode, hops⟩, rfl⟩
    · refine ⟨_, hostAccess_poll_next hcode r mask v ops, ⟨hbusy, hpend, hcode, ?_⟩, rfl⟩
      rw [State.loaded_program]
      split
      · exact hops
      · exact hreads

theorem step_polls {w : Word} {s : State} {rest : List Turn} (h : PolledCommand w s) (hsched : s.schedule = .host :: rest) :
    ∃ u, step s = .next u ∧ PolledCommand w u ∧ u.schedule = rest := by
  have hstep : step s = hostStep { s with schedule := rest } := by
    simp only [step, machineStep, hsched, takeTurn]
  rw [hstep]
  exact hostStep_polls (s := { s with schedule := rest }) h

theorem run_succ {s u : State} (h : step s = .next u) (k : Nat) :
    Host.Core.run Sys2Proof.core (k + 1) s = Host.Core.run Sys2Proof.core k u := by
  have h' : Sys2Proof.core.step s = .next u := h
  simp only [Host.Core.run, h']

theorem run_polls_completes {w : Word} (n : Nat) {s : State} (h : PolledCommand w s)
    (hsched : s.schedule = List.replicate n .host) :
    ∃ t, Host.Core.run Sys2Proof.core (n + 1) s = .next t ∧ t.busy = false ∧ t.done = true := by
  induction n generalizing s with
  | zero =>
    obtain ⟨hbusy, hpend, -⟩ := h
    obtain ⟨t, ht, hcompleted⟩ := engineStep_completes hpend
    exact ⟨t, run_succ ((step_default_busy hsched hbusy).trans ht) 0, hcompleted⟩
  | succ n ih =>
    obtain ⟨u, hu, hpolled, hrest⟩ := step_polls h hsched
    rw [run_succ hu]
    exact ih hpolled hrest

/-- Settles O36, by induction on the host's turns: each leaves the command running and the rest of the program reading,
and then the engine's turn completes the command. -/
theorem pollingHostSeesCompletion : Obligations.PollingHostSeesCompletion :=
  fun n _ _ hbusy hpend hcode hsched hreads => run_polls_completes n ⟨hbusy, hpend, hcode, hreads⟩ hsched

end Sys2Proof.Machine
end

section
/-! PROOFS. Registers: what each reads as, and what a host write of each does (10_state.md R22 to R39, 60_exceptions.md
R160). -/

namespace Sys2Proof.Machine

/-- Settles O31: after reset nothing runs, no flag is set, and memory lists nothing. -/
theorem resetMeetsTheInvariant : Obligations.ResetMeetsTheInvariant where
  memWf := ⟨List.Pairwise.nil, fun _ hc => by cases hc⟩
  phase := rfl
  busyClear := fun hb => by cases hb
  codeLegal := Nat.zero_le 9
  errHasCode := fun he => by cases he
  infoOfNone := fun _ => rfl
  spoiledFaulted := fun hs => by cases hs
  abnormalSpoiled := fun hs => by cases hs

/-- Settles O37, register by register. -/
theorem resetValuesAreTheSpecs : Obligations.ResetValuesAreTheSpecs := by
  refine ⟨⟨rfl, rfl, rfl, rfl, rfl, rfl, rfl, rfl, rfl, rfl, rfl⟩, rfl, fun r hr => ?_⟩
  cases r
  case id => exact absurd rfl hr
  all_goals rfl

/-- STATUS from bit 0 up (10_state.md R25). -/
theorem statusWord_toNat (s : State) :
    (statusWord s).toNat =
      s.busy.toNat + 2 * s.done.toNat + 4 * s.err.toNat + 8 * s.accOvf.toNat + 16 * s.wrBusy.toNat := by
  unfold statusWord
  cases s.busy <;> cases s.done <;> cases s.err <;> cases s.accOvf <;> cases s.wrBusy <;> rfl

theorem ctrlWord_toNat (s : State) : (ctrlWord s).toNat = s.ctrlIrqEn.toNat := by
  unfold ctrlWord
  cases s.ctrlIrqEn <;> rfl

/-- Settles O46: a load goes on with the register's value, and each register's value is its field. -/
theorem registerReadReturnsItsValue : Obligations.RegisterReadReturnsItsValue := by
  intro s ops hcode
  have hext : ∀ {n : Nat}, n ≤ 32 → ∀ x : BitVec n, (x.setWidth 32).toNat = x.toNat :=
    fun hn _ => BitVec.toNat_setWidth_of_le hn
  exact ⟨fun r => hostAccess_rd hcode r ops, rfl, rfl, ctrlWord_toNat s, statusWord_toNat s, hext (by decide) _, rfl,
    hext (by decide) _, hext (by decide) _, hext (by decide) _, hext (by decide) _, hext (by decide) _,
    hext (by decide) _, hext (by decide) _, rfl, rfl, rfl, rfl, rfl, rfl⟩

/-- Settles O47: a code above 9 is a reserved one, and its load is stuck. -/
theorem reservedErrorCodeIsStuck : Obligations.ReservedErrorCodeIsStuck := by
  intro s ops hcode
  have hlt : 9#4 < s.errCode := BitVec.lt_def.mpr hcode
  rw [hostAccess, regLoad_offset, if_pos ⟨rfl, hlt⟩]

/-- Settles O48: one iteration is a load, after which the program moves on exactly on the value. -/
theorem pollLoopsUntilTheValue : Obligations.PollLoopsUntilTheValue :=
  fun _ r mask v ops hcode => hostAccess_poll_next hcode r mask v ops

/-! ### Writes -/

theorem regWrite_config_idle {s : State} {r : Reg} (hr : r.isConfig = true) (hidle : s.busy = false) (v : Word) :
    s.regWrite r v = { s with cfg := s.cfg.set r v } := by
  have hnot : ¬ s.busy = true := by simp [hidle]
  cases r
  case id | ctrl | status | cmd | errCode | errInfo => cases hr
  all_goals exact if_neg hnot

/-- A configuration or CMD write while BUSY is dropped (10_state.md R39). -/
theorem regWrite_busy {s : State} {r : Reg} (hr : r.isConfig = true ∨ r = .cmd) (hbusy : s.busy = true) (v : Word) :
    s.regWrite r v = s.noteWriteBusy := by
  cases r
  case id | ctrl | status | errCode | errInfo => simp [Reg.isConfig] at hr
  all_goals exact if_pos hbusy

/-- Settles O39: the register write only notes that it was dropped. -/
theorem writeWhileBusyIsDropped : Obligations.WriteWhileBusyIsDropped := by
  intro s r v ops hr hbusy
  rw [hostAccess_wr, regWrite_busy (s := { s with program := ops }) hr hbusy]
  rfl

/-- A written field reads back its own bits of the word (10_state.md R22). -/
theorem regRead_set_same {r : Reg} (hr : r.isConfig = true) (v : Word) (s : State) :
    (State.regRead r { s with cfg := s.cfg.set r v }).toNat = v.toNat % 2 ^ r.bitsUsed := by
  have hword : v.toNat = v.toNat % 2 ^ 32 := (Nat.mod_eq_of_lt v.isLt).symm
  have hfield : ∀ n : Nat, n ≤ 32 → ((v.setWidth n).setWidth 32).toNat = v.toNat % 2 ^ n := fun n hn => by
    rw [BitVec.toNat_setWidth_of_le hn, BitVec.toNat_setWidth]
  cases r
  case id | ctrl | status | cmd | errCode | errInfo => cases hr
  case dim | cin | cout | ksize | pad => exact hfield 16 (by decide)
  case biasShift | outShift => exact hfield 8 (by decide)
  case inAddr | wAddr | biasAddr | outAddr | scraAddr | scrbAddr => exact hword

/-- A configuration write leaves every other register's value. -/
theorem regRead_set_ne {r q : Reg} (hne : q ≠ r) (v : Word) (s : State) :
    State.regRead q { s with cfg := s.cfg.set r v } = s.regRead q := by
  cases r <;> cases q <;> first
    | rfl
    | exact absurd rfl hne

/-- Settles O38: the write stores into its own field, whose bits alone it keeps. -/
theorem configWriteStoresTheField : Obligations.ConfigWriteStoresTheField := by
  intro s r v ops hr hidle
  refine ⟨s.cfg.set r v, ?_, regRead_set_same hr v s, fun q hne => regRead_set_ne hne v s⟩
  rw [hostAccess_wr, regWrite_config_idle (s := { s with program := ops }) hr hidle]
  rfl

/-- Settles O40: the write is a launch, and a launch keeps a set fault mark. -/
theorem commandWriteLaunches : Obligations.CommandWriteLaunches := by
  intro s w ops hidle
  refine ⟨_, hostAccess_cmd_idle hidle w ops, rfl, rfl, rfl, rfl, rfl, rfl, rfl, rfl, rfl, rfl, rfl, rfl, rfl, rfl, rfl,
    fun hf => ?_⟩
  rw [State.answered_faulted, State.launch_faulted, hf, Bool.true_or]

/-- A bit written 0 keeps its flag (10_state.md R25). -/
theorem not_getLsbD_eq_decide (v : Word) (k : Nat) : (!v.getLsbD k) = decide (v.toNat / 2 ^ k % 2 = 0) := by
  rw [BitVec.getLsbD, Nat.testBit_eq_decide_div_mod_eq, ← decide_not]
  exact decide_eq_decide.mpr (by omega)

/-- Settles O43: each flag is kept exactly when its own bit of the word is 0. -/
theorem statusWriteOneClears : Obligations.StatusWriteOneClears := by
  intro s v ops
  rw [hostAccess_wr, State.regWrite, State.clearStatus]
  simp only [not_getLsbD_eq_decide]
  rfl

/-! ### Reset -/

/-- Settles O42: without SRST only IRQ_EN is written; with SRST the write is the block's reset. -/
theorem ctrlWriteEnablesOrResets : Obligations.CtrlWriteEnablesOrResets := by
  intro s v ops
  refine ⟨fun hsrst => ?_, fun hsrst => ?_⟩
  · have hbit : ¬ v.getLsbD 1 = true := by
      rw [getLsbD_one_eq_decide, hsrst]
      decide
    rw [hostAccess_wr, State.regWrite, if_neg hbit, getLsbD_zero_eq_decide]
    rfl
  · have hbit : v.getLsbD 1 = true := by
      rw [getLsbD_one_eq_decide, decide_eq_true hsrst]
    refine ⟨(State.blockReset { s with program := ops }).answered, ?_, blockAtReset_blockReset { s with program := ops },
      State.blockReset_faulted _, State.blockReset_program _, State.blockReset_schedule _, State.blockReset_params _,
      State.blockReset_hostT _, rfl, abortedMemory_blockReset { s with program := ops }⟩
    rw [hostAccess_wr, State.regWrite, if_pos hbit]

/-- Settles O50: the reset input's turn is the block's reset. -/
theorem hardwareResetAbortsAndClears : Obligations.HardwareResetAbortsAndClears := by
  intro s rest hsched
  have hstep : step s = .next (State.blockReset { s with schedule := rest }) := by
    simp only [step, machineStep, hsched, takeTurn]
  exact ⟨_, hstep, blockAtReset_blockReset _, State.blockReset_faulted _, State.blockReset_program _,
    State.blockReset_schedule _, State.blockReset_params _, State.blockReset_hostT _,
    abortedMemory_blockReset { s with schedule := rest }⟩

/-! ### Launches outside normal memory -/

/-- A region touches a range where the two share an address. -/
theorem touches_iff (r : Region) (q : AddrRange) :
    r.touches q = true ↔ ∃ a, (r.base ≤ a ∧ a < r.base + r.len) ∧ q.base ≤ a ∧ a < q.base + q.len := by
  simp only [Region.touches, Bool.and_eq_true, decide_eq_true_eq]
  constructor
  · rintro ⟨⟨⟨hr, hq⟩, h1⟩, h2⟩
    exact ⟨max r.base q.base, by omega, by omega⟩
  · rintro ⟨a, hr, hq⟩
    omega

theorem registerBlock_base (p : Params) : (registerBlock p).base = p.enginePage.toNat * 256 := by
  rw [registerBlock, BitVec.toNat_append, Nat.shiftLeft_eq, BitVec.toNat_zero, Nat.or_zero]

/-- The regions outside normal memory, by their addresses (20_memory.md R51, R57). -/
theorem regionsNotNormal_iff (p : Params) (rs : List Region) :
    regionsNotNormal p rs = true ↔ ∃ r ∈ rs, ∃ a, r.base ≤ a ∧ a < r.base + r.len ∧
      ((p.enginePage.toNat * 256 ≤ a ∧ a < p.enginePage.toNat * 256 + 256) ∨
        ∃ q ∈ p.devices, q.base ≤ a ∧ a < q.base + q.len) := by
  simp only [regionsNotNormal, List.any_eq_true, Bool.or_eq_true, touches_iff, registerBlock_base]
  refine exists_congr fun r => and_congr_right fun _ => ⟨?_, ?_⟩
  · rintro (⟨a, ⟨h1, h2⟩, hb⟩ | ⟨q, hq, a, ⟨h1, h2⟩, hd⟩)
    · exact ⟨a, h1, h2, .inl hb⟩
    · exact ⟨a, h1, h2, .inr ⟨q, hq, hd⟩⟩
  · rintro ⟨a, h1, h2, hb | ⟨q, hq, hd⟩⟩
    · exact .inl ⟨a, ⟨h1, h2⟩, hb⟩
    · exact .inr ⟨q, hq, a, ⟨h1, h2⟩, hd⟩

/-- Settles O41: a launch adds exactly the mark of its regions. -/
theorem launchOutsideNormalMemoryIsFaulted : Obligations.LaunchOutsideNormalMemoryIsFaulted := by
  intro s w i hdec hclear
  rw [State.launch_faulted, hclear, Bool.false_or, wordRegions, hdec]
  exact regionsNotNormal_iff _ _

end Sys2Proof.Machine
end

section
/-! PROOFS. The order of the checks: the first failing register of the other commands, and the lowest failing region or
pair of regions (60_exceptions.md R162 to R166). -/

namespace Sys2Proof.Machine

/-! ### Registers -/

/-- Illegal registers end a command with its table's first failing row. -/
theorem exec_of_illegal_params {i : Instr} {s : State} (hbad : ¬ ParamsLegal i s.cfg) :
    ∃ e, paramError (rowsOf i s.cfg) = some e ∧ exec i s = .next (ErrorCompletion e.1.bits e.2 s) := by
  obtain ⟨e, he⟩ := Option.ne_none_iff_exists'.mp (mt (paramError_rowsOf_none_iff i s.cfg).mp hbad)
  exact ⟨e, he, exec_of_paramError he⟩

/-- DWCONV's checks in the order of its registers' offsets (42_depthwise.md R130). -/
theorem paramError_rowsOf_dwconv (c : CfgRegs) :
    paramError (rowsOf .dwconv c) =
      if c.d = 0 then some (.badDim, 0x18#32)
      else if c.ci = 0 then some (.badChannel, 0x1C#32)
      else if ¬ (1 ≤ c.k ∧ c.k % 2 = 1) then some (.badKernel, 0x24#32)
      else if c.p ≠ (c.k - 1) / 2 then some (.badKernel, 0x28#32)
      else if 31 < c.os then some (.badShift, 0x30#32)
      else none := by
  simp only [rowsOf, dwconvRows, paramError_cons, paramError_nil, Bool.and_eq_true, decide_eq_true_eq, ite_not, ne_eq,
    ← Nat.not_le, ← Nat.lt_one_iff]
  rfl

/-- PWCONV's checks in the order of its registers' offsets (43_pointwise.md R140). -/
theorem paramError_rowsOf_pwconv (c : CfgRegs) :
    paramError (rowsOf .pwconv c) =
      if c.d = 0 then some (.badDim, 0x18#32)
      else if c.ci = 0 then some (.badChannel, 0x1C#32)
      else if c.co = 0 then some (.badChannel, 0x20#32)
      else if 31 < c.bs then some (.badShift, 0x2C#32)
      else if 31 < c.os then some (.badShift, 0x30#32)
      else none := by
  simp only [rowsOf, pwconvRows, paramError_cons, paramError_nil, decide_eq_true_eq, ite_not, ← Nat.not_le,
    ← Nat.lt_one_iff]
  rfl

/-- AVGPOOL2X2's checks in the order of its registers' offsets (44_avgpool.md R150). -/
theorem paramError_rowsOf_avgpool (c : CfgRegs) :
    paramError (rowsOf .avgpool2x2 c) =
      if ¬ (2 ≤ c.d ∧ c.d % 2 = 0) then some (.badDim, 0x18#32)
      else if ¬ (4 ≤ c.ci ∧ c.ci % 4 = 0) then some (.badChannel, 0x1C#32)
      else none := by
  simp only [rowsOf, avgpoolRows, paramError_cons, paramError_nil, Bool.and_eq_true, decide_eq_true_eq, ite_not]
  rfl

/-- Settles O18: a failing row exists, and each branch of the chain is the completion of DWCONV's first one. -/
theorem dwconvReportsTheFirstBadRegister : Obligations.DwconvReportsTheFirstBadRegister := by
  intro s hbad
  obtain ⟨e, he, hexec⟩ := exec_of_illegal_params hbad
  rw [paramError_rowsOf_dwconv] at he
  split_ifs at he ⊢ <;> cases he <;> exact hexec

/-- Settles O19: a failing row exists, and each branch of the chain is the completion of PWCONV's first one. -/
theorem pwconvReportsTheFirstBadRegister : Obligations.PwconvReportsTheFirstBadRegister := by
  intro s hbad
  obtain ⟨e, he, hexec⟩ := exec_of_illegal_params hbad
  rw [paramError_rowsOf_pwconv] at he
  split_ifs at he ⊢ <;> cases he <;> exact hexec

/-- Settles O21: a failing row exists, and each branch of the chain is the completion of AVGPOOL2X2's first one. -/
theorem avgpoolReportsTheFirstBadRegister : Obligations.AvgpoolReportsTheFirstBadRegister := by
  intro s hbad
  obtain ⟨e, he, hexec⟩ := exec_of_illegal_params hbad
  rw [paramError_rowsOf_avgpool] at he
  split_ifs at he ⊢ <;> cases he <;> exact hexec

/-! ### Regions -/

/-- With legal registers, a failing region check decides a command's completion (60_exceptions.md R162, R168). -/
theorem exec_of_regionError {i : Instr} {s : State} {code : ErrCode} {info : Word} (hparams : ParamsLegal i s.cfg)
    (h : regionError i (usedRegions i s.cfg) = some (code, info)) :
    exec i s = .next (ErrorCompletion code.bits info s) := by
  have hcode : code ≠ .none := (checkCode_range (.inr (regionError_code h))).1
  rw [exec_eq_runCommand, runCommand, (paramError_rowsOf_none_iff i s.cfg).mpr hparams, h,
    ← raiseError_eq_errorCompletion hcode]

/-- In a list whose keys rise, a search finds the element of lowest key that passes the test. -/
theorem find?_eq_some_of_lowest {α : Type} {key : α → Nat} {p : α → Bool} {l : List α} {x : α}
    (hl : l.Pairwise fun y z => key y < key z) (hx : x ∈ l) (hpx : p x = true)
    (hlow : ∀ y ∈ l, p y = true → key x ≤ key y) : l.find? p = some x := by
  induction l with
  | nil => cases hx
  | cons y l ih =>
    obtain ⟨hy, hl⟩ := List.pairwise_cons.mp hl
    rcases List.mem_cons.mp hx with rfl | hx
    · exact List.find?_cons_of_pos hpx
    · have hpy : ¬ p y = true := fun hpy => absurd (hlow y (by simp) hpy) (Nat.not_le.mpr (hy x hx))
      rw [List.find?_cons_of_neg hpy]
      exact ih hl hx fun z hz => hlow z (by simp [hz])

/-- Settles O22: the region checks begin with BAD_ADDR, which searches the used regions by ascending id. -/
theorem wrappingRegionFails : Obligations.WrappingRegionFails := by
  intro i s r hparams hr hwrap hlow
  have hfind : (usedRegions i s.cfg).find? (fun q => decide (2 ^ 32 < q.base + q.len)) = some r := by
    refine find?_eq_some_of_lowest (key := fun q => q.id.number) (usedRegions_ascending i s.cfg) hr
      (decide_eq_true hwrap) fun q hq hqwrap => ?_
    by_contra hlt
    exact absurd (hlow q hq (Nat.not_le.mp hlt)) (Nat.not_le.mpr (of_decide_eq_true hqwrap))
  refine exec_of_regionError hparams (code := .badAddr) ?_
  rw [regionError, addrError, hfind]
  rfl

/-- Settles O23: with every region fitting, the next check is ALIGN, which searches the used regions by ascending id. -/
theorem oddHalfwordRegionFails : Obligations.OddHalfwordRegionFails := by
  intro i s r hparams hfit hr hhalf hodd hlow
  have hfind : (usedRegions i s.cfg).find? (fun q => halfwordRegion i q.id && q.base % 2 != 0) = some r := by
    refine find?_eq_some_of_lowest (key := fun q => q.id.number) (usedRegions_ascending i s.cfg) hr
      (by simp [hhalf, hodd]) fun q hq hqodd => ?_
    by_contra hlt
    rw [Bool.and_eq_true, bne_iff_ne] at hqodd
    exact hqodd.2 (hlow q hq (Nat.not_le.mp hlt) hqodd.1)
  refine exec_of_regionError hparams (code := .align) ?_
  rw [regionError, (addrError_none_iff i s.cfg).mpr hfit, alignError, hfind]
  rfl

theorem RegionId.number_le (r : RegionId) : r.number ≤ 6 := by
  cases r <;> decide

/-- A pair of regions by its two ids, the first one weighing more. -/
def pairKey (q : Region × Region) : Nat := q.1.id.number * 256 + q.2.id.number

/-- The pairs of an ascending list stand in lexicographic order of their ids (60_exceptions.md R164). -/
theorem pairsOf_ascending {l : List Region} (h : l.Pairwise fun r q => r.id.number < q.id.number) :
    (pairsOf l).Pairwise fun x y => pairKey x < pairKey y := by
  induction l with
  | nil => exact List.Pairwise.nil
  | cons r l ih =>
    obtain ⟨hr, hl⟩ := List.pairwise_cons.mp h
    refine List.pairwise_append.mpr ⟨?_, ih hl, ?_⟩
    · exact List.pairwise_map.mpr (hl.imp fun hlt => Nat.add_lt_add_left hlt _)
    · rintro x hx ⟨y, z⟩ hyz
      obtain ⟨q, -, rfl⟩ := List.mem_map.mp hx
      have hy : y ∈ l := ((mem_pairsOf l y z).mp hyz).subset (by simp)
      have hlt := hr y hy
      have hle := q.id.number_le
      simp only [pairKey]
      omega

/-- The two ids in ERR_INFO as one number (60_exceptions.md R166). -/
theorem pairInfo_eq (r q : RegionId) :
    (BitVec.ofNat 32 r.number <<< 8) ||| BitVec.ofNat 32 q.number = BitVec.ofNat 32 (r.number * 256 + q.number) := by
  cases r <;> cases q <;> rfl

/-- The test of OVERLAP on a pair, as a proposition (60_exceptions.md R164). -/
theorem overlapTest_iff (r q : Region) :
    ((r.id.isWritten || q.id.isWritten) && r.meets q) = true ↔
      (r.id.isWritten = true ∨ q.id.isWritten = true) ∧ r.base < q.base + q.len ∧ q.base < r.base + r.len := by
  simp only [Region.meets, Bool.and_eq_true, Bool.or_eq_true, decide_eq_true_eq]

/-- Settles O24: with the regions fitting and aligned, the last check is OVERLAP, which searches the pairs in
lexicographic order. -/
theorem overlappingRegionsFail : Obligations.OverlappingRegionsFail := by
  intro i s r q hparams hfit haligned hr hq ⟨hlt, hclash⟩ hfirst
  have hfind : (pairsOf (usedRegions i s.cfg)).find?
      (fun x => (x.1.id.isWritten || x.2.id.isWritten) && x.1.meets x.2) = some (r, q) := by
    refine find?_eq_some_of_lowest (key := pairKey) (pairsOf_ascending (usedRegions_ascending i s.cfg))
      ((mem_pairsOf_usedRegions i s.cfg r q).mpr ⟨hr, hq, hlt⟩) ((overlapTest_iff r q).mpr hclash) ?_
    rintro ⟨r', q'⟩ hmem htest
    obtain ⟨hr', hq', hlt'⟩ := (mem_pairsOf_usedRegions i s.cfg r' q').mp hmem
    have hle := hfirst r' hr' q' hq' ⟨hlt', (overlapTest_iff r' q').mp htest⟩
    have hbound := q.id.number_le
    simp only [pairKey]
    omega
  refine exec_of_regionError hparams (code := .overlap) ?_
  rw [regionError, (addrError_none_iff i s.cfg).mpr hfit, (alignError_none_iff i s.cfg).mpr haligned, overlapError, hfind,
    ← pairInfo_eq]
  rfl

end Sys2Proof.Machine
end

section
/-! PROOFS. Byte accesses of the host and of other bus masters: the register block, devices, normal memory, and races
(10_state.md R38, 20_memory.md R50 to R52, R57, R72). -/

namespace Sys2Proof.Machine

/-- Settles O51: a halfword is its two bytes, low byte first. -/
theorem memoryIsLittleEndian : Obligations.MemoryIsLittleEndian := by
  refine ⟨Memory.read_write, fun m a v => ⟨?_, ?_, Memory.readHalf_writeHalf m a v, fun b hb hb' => ?_⟩⟩
  · rw [Memory.read_writeHalf, if_neg (Nat.ne_of_lt (Nat.lt_succ_self a)), if_pos rfl,
      BitVec.setWidth_eq_extractLsb' (by decide)]
  · rw [Memory.read_writeHalf, if_pos rfl, BitVec.setWidth_ushiftRight_eq_extractLsb]
  · rw [Memory.read_writeHalf, if_neg hb', if_neg hb]

/-! ### The register block -/

theorem goodAccess_eq_false {off : BitVec 8} {width : AccessWidth} (h : width ≠ .word ∨ off.toNat % 4 ≠ 0) :
    goodAccess off width = false := by
  rcases h with h | h <;> simp [goodAccess, h]

theorem regLoad_bad {off : BitVec 8} {width : AccessWidth} (h : goodAccess off width = false) (s : State) :
    s.regLoad off width = .next (s.busErrored.loadedFree (Config.freeWord s.freeCount)) := by
  simp [State.regLoad, h]

theorem storeByte_block {a : Word} {s : State} (h : BlockAddress s.params a) (b : Byte) :
    s.storeByte a b = .next s.busErrored := by
  rcases storeByte_cases a b s with ⟨-, e⟩ | ⟨hn, -⟩ | ⟨hn, -⟩ | ⟨hn, -⟩
  · exact e
  all_goals exact absurd h hn

theorem loadByte_block {a : Word} {s : State} (h : BlockAddress s.params a) :
    s.loadByte a = .next (s.busErrored.loadedFree (Config.freeWord s.freeCount)) := by
  rcases loadByte_cases a s with ⟨-, e⟩ | ⟨hn, -⟩ | ⟨hn, -⟩ | ⟨hn, -⟩
  · exact e
  all_goals exact absurd h hn

/-- Settles O45: a bad access and a byte access to the block are the same bus error. -/
theorem badRegisterAccessIsAHostFault : Obligations.BadRegisterAccessIsAHostFault := by
  refine ⟨fun s off width v ops hbad => ⟨?_, Config.freeWord s.freeCount, ?_⟩,
    fun s a b ops hblock => ⟨?_, Config.freeWord s.freeCount, ?_⟩⟩
  · rw [hostAccess, regStore_bad (goodAccess_eq_false hbad)]
    rfl
  · exact regLoad_bad (goodAccess_eq_false hbad) { s with program := ops }
  · exact storeByte_block (s := { s with program := ops }) hblock b
  · exact loadByte_block (s := { s with program := ops }) hblock

/-! ### Outside the live regions -/

theorem storesByte_write (m : Memory) (a : Word) (b : Byte) : StoresByte m a b (m.write a.toNat b) :=
  ⟨m.read_write_same a.toNat b, fun _ hn => m.read_write_ne b hn⟩

theorem storeByte_memory {a : Word} {s : State} (hblock : ¬ BlockAddress s.params a) (hdev : ¬ DeviceAddress s.params a)
    (b : Byte) : s.storeByte a b = .next (s.raceStore a b).answered := by
  rcases storeByte_cases a b s with ⟨h, -⟩ | ⟨-, -, e⟩ | ⟨-, h, -⟩ | ⟨-, h, -⟩
  · exact absurd h hblock
  · exact e
  all_goals exact absurd h hdev

theorem loadByte_memory {a : Word} {s : State} (hblock : ¬ BlockAddress s.params a) (hdev : ¬ DeviceAddress s.params a)
    (hlive : inRegions s.liveRegions a.toNat = false) :
    s.loadByte a = .next (s.loaded ((s.mem.read a.toNat).setWidth 32)) := by
  rcases loadByte_cases a s with ⟨h, -⟩ | ⟨-, h, -⟩ | ⟨-, h, -⟩ | ⟨-, -, -, e⟩
  · exact absurd h hblock
  · rw [hlive] at h
    cases h
  · exact absurd h hdev
  · exact e

theorem busMasterStore_memory {a : Word} {s : State} (hblock : ¬ BlockAddress s.params a)
    (hdev : ¬ DeviceAddress s.params a) (b : Byte) : s.busMasterStore a b = s.raceStore a b := by
  rcases busMasterStore_cases a b s with ⟨h, -⟩ | ⟨-, -, e⟩
  · exact absurd h (not_or.mpr ⟨hblock, hdev⟩)
  · exact e

theorem busMasterStore_abnormal {a : Word} {s : State} (h : BlockAddress s.params a ∨ DeviceAddress s.params a)
    (b : Byte) : s.busMasterStore a b = s.raceMark a := by
  rcases busMasterStore_cases a b s with ⟨-, e⟩ | ⟨hblock, hdev, -⟩
  · exact e
  · exact absurd h (not_or.mpr ⟨hblock, hdev⟩)

theorem storeByte_device {a : Word} {s : State} (hblock : ¬ BlockAddress s.params a) (hdev : DeviceAddress s.params a)
    (hlive : inRegions s.liveRegions a.toNat = false) (b : Byte) : s.storeByte a b = .refused .deviceAccess := by
  rcases storeByte_cases a b s with ⟨h, -⟩ | ⟨-, h, -⟩ | ⟨-, -, h, -⟩ | ⟨-, -, -, e⟩
  · exact absurd h hblock
  · exact absurd hdev h
  · rw [hlive] at h
    cases h
  · exact e

theorem loadByte_device {a : Word} {s : State} (hblock : ¬ BlockAddress s.params a) (hdev : DeviceAddress s.params a)
    (hlive : inRegions s.liveRegions a.toNat = false) : s.loadByte a = .refused .deviceAccess := by
  rcases loadByte_cases a s with ⟨h, -⟩ | ⟨-, h, -⟩ | ⟨-, -, -, e⟩ | ⟨-, h, -⟩
  · exact absurd h hblock
  · rw [hlive] at h
    cases h
  · exact e
  · exact absurd hdev h

theorem step_busMaster {s : State} {a : Word} {b : Byte} {rest : List Turn} (hsched : s.schedule = .busMaster a b :: rest) :
    step s = .next (State.busMasterStore a b { s with schedule := rest }) := by
  simp only [step, machineStep, hsched, takeTurn]

/-- A store outside the live regions changes memory alone. -/
theorem raceStore_outside {a : Word} {s : State} (hlive : inRegions s.liveRegions a.toNat = false) (b : Byte) :
    s.raceStore a b = { s with mem := s.mem.write a.toNat b } := by
  rw [State.raceStore, raceMark_outside hlive]

/-- Settles O52: outside the live regions nothing is marked, so a store is a write of its byte, and a load its read. -/
theorem hostAccessesMemoryBytes : Obligations.HostAccessesMemoryBytes := by
  refine ⟨fun s a b ops hblock hdev hlive => ⟨?_, ?_, fun rest hsched => ?_⟩, fun s a b ops hblock hdev hlive => ⟨?_, ?_⟩,
    fun s a b rest habnormal hlive hsched => ?_⟩
  · refine ⟨_, ?_, storesByte_write s.mem a b⟩
    rw [hostAccess, storeByte_memory (s := { s with program := ops }) hblock hdev,
      raceStore_outside (s := { s with program := ops }) hlive]
    rfl
  · exact loadByte_memory (s := { s with program := ops }) hblock hdev hlive
  · refine ⟨_, ?_, storesByte_write s.mem a b⟩
    rw [step_busMaster hsched, busMasterStore_memory (s := { s with schedule := rest }) hblock hdev,
      raceStore_outside (s := { s with schedule := rest }) hlive]
  · exact storeByte_device (s := { s with program := ops }) hblock hdev hlive b
  · exact loadByte_device (s := { s with program := ops }) hblock hdev hlive
  · rw [step_busMaster hsched, busMasterStore_abnormal (s := { s with schedule := rest }) habnormal,
      raceMark_outside (s := { s with schedule := rest }) hlive]

/-! ### Races -/

theorem loadByte_race {a : Word} {s : State} (hblock : ¬ BlockAddress s.params a)
    (hlive : inRegions s.liveRegions a.toNat = true) :
    s.loadByte a = .next (s.answered.loadedFree ((Config.freeByte s.freeCount a.toNat).setWidth 32)) := by
  rcases loadByte_cases a s with ⟨h, -⟩ | ⟨-, -, e⟩ | ⟨-, -, h, -⟩ | ⟨-, -, h, -⟩
  · exact absurd h hblock
  · exact e
  all_goals
    rw [hlive] at h
    cases h

theorem storeByte_deviceRace {a : Word} {s : State} (hblock : ¬ BlockAddress s.params a)
    (hdev : DeviceAddress s.params a) (hlive : inRegions s.liveRegions a.toNat = true) (b : Byte) :
    s.storeByte a b = .next (s.raceMark a).answered := by
  rcases storeByte_cases a b s with ⟨h, -⟩ | ⟨-, h, -⟩ | ⟨-, -, -, e⟩ | ⟨-, -, h, -⟩
  · exact absurd h hblock
  · exact absurd hdev h
  · exact e
  · rw [hlive] at h
    cases h

/-- A store in a race lands and marks the launch (20_memory.md R72). -/
theorem raceStore_inside {a : Word} {s : State} (hlive : inRegions s.liveRegions a.toNat = true) (b : Byte) :
    s.raceStore a b = { s with mem := s.mem.write a.toNat b, faulted := true, spoiled := true } := by
  rw [State.raceStore, raceMark_inside hlive]

/-- Settles O53: inside the live regions a load draws and a store marks; at the register block the invariant gives the
mark of the launch. -/
theorem racesAreMarked : Obligations.RacesAreMarked := by
  intro s a b ops rest hlive
  refine ⟨fun hblock => ?_, fun hblock hdev => ⟨?_, fun hsched => ?_⟩, fun hblock hdev => ?_, fun habnormal hsched => ?_,
    fun hblock hinv => ?_⟩
  · exact ⟨_, loadByte_race (s := { s with program := ops }) hblock hlive⟩
  · refine ⟨_, ?_, storesByte_write s.mem a b⟩
    rw [hostAccess, storeByte_memory (s := { s with program := ops }) hblock hdev,
      raceStore_inside (s := { s with program := ops }) hlive]
    rfl
  · refine ⟨_, ?_, storesByte_write s.mem a b⟩
    rw [step_busMaster hsched, busMasterStore_memory (s := { s with schedule := rest }) hblock hdev,
      raceStore_inside (s := { s with schedule := rest }) hlive]
  · rw [hostAccess, storeByte_deviceRace (s := { s with program := ops }) hblock hdev hlive,
      raceMark_inside (s := { s with program := ops }) hlive]
    rfl
  · rw [step_busMaster hsched, busMasterStore_abnormal (s := { s with schedule := rest }) habnormal,
      raceMark_inside (s := { s with schedule := rest }) hlive]
  · have hspoiled := hinv.abnormalSpoiled (regionsNotNormal_of_access hlive (.inl hblock))
    exact ⟨(hinv.spoiledFaulted hspoiled).2, hspoiled, _, storeByte_block (s := { s with program := ops }) hblock b, rfl,
      hspoiled⟩

end Sys2Proof.Machine
end

section
/-! PROOFS. The commands' results: OUT, scratch B and ACC_OVF of a completion that passes its checks, element by element
(41_conv2d.md R121, 42_depthwise.md R131, 43_pointwise.md R141, R145, 44_avgpool.md R151). -/

namespace Sys2Proof.Machine

/-! ### Flat offsets -/

/-- The flat offset of a pixel's channel and its two coordinates. -/
theorem flat_pair_coordinates {n p c : Nat} (hc : c < n) : (p * n + c) / n = p ∧ (p * n + c) % n = c := by
  obtain ⟨hdiv, -, hmod⟩ := flat_coordinates (d := 1) (y := p) Nat.zero_lt_one hc
  rw [Nat.mul_one, Nat.add_zero, Nat.div_one] at hdiv
  rw [Nat.mul_one, Nat.add_zero] at hmod
  exact ⟨hdiv, hmod⟩

theorem flat_pair_lt {e n p c : Nat} (hp : p < e) (hc : c < n) : p * n + c < e * n := by
  simpa using flat_lt (d := 1) hp Nat.zero_lt_one hc

/-- Some element of a tensor has the property exactly when some flat offset has it. -/
theorem anyBelow_flat_iff {e d n : Nat} {f : Nat → Bool} :
    anyBelow (e * d * n) f = true ↔ ∃ y x c, y < e ∧ x < d ∧ c < n ∧ f ((y * d + x) * n + c) = true := by
  rw [anyBelow_iff]
  constructor
  · rintro ⟨k, hk, hf⟩
    obtain ⟨y, x, c, hy, hx, hc, rfl⟩ := flat_surjective hk
    exact ⟨y, x, c, hy, hx, hc, hf⟩
  · rintro ⟨y, x, c, hy, hx, hc, hf⟩
    exact ⟨_, flat_lt hy hx hc, hf⟩

theorem anyBelow_flat_pair_iff {e n : Nat} {f : Nat → Bool} :
    anyBelow (e * n) f = true ↔ ∃ p c, p < e ∧ c < n ∧ f (p * n + c) = true := by
  have h := anyBelow_flat_iff (e := e) (d := 1) (n := n) (f := f)
  rw [Nat.mul_one] at h
  rw [h]
  constructor
  · rintro ⟨p, x, c, hp, hx, hc, hf⟩
    obtain rfl : x = 0 := Nat.lt_one_iff.mp hx
    exact ⟨p, c, hp, hc, by simpa using hf⟩
  · rintro ⟨p, c, hp, hc, hf⟩
    exact ⟨p, 0, c, hp, Nat.zero_lt_one, hc, by simpa using hf⟩

/-! ### A normal completion -/

theorem succeed_accOvf {s : State} (hs : s.spoiled = false) (rs : List Region) (result : CommandResult) :
    (s.succeed rs result).accOvf = result.ovf := by
  rw [State.succeed, if_neg (by simp [hs]), State.complete_accOvf]

/-- What a normal completion of a command leaves: its result in every used region but scratch A, and every byte that it
does not write (20_memory.md R60, R62, 60_exceptions.md R167). -/
def CompletesWithResult (i : Instr) (s t : State) : Prop :=
  exec i s = .next t ∧ SameBesidesCompletion s t ∧ Completed 0#4 0#32 t.accOvf t ∧ t.accOvf = (resultOf i s).ovf ∧
    (∀ q ∈ usedRegions i s.cfg, q.id ≠ .scra → ∀ a, q.base ≤ a → a < q.base + q.len →
      t.mem.read a = (resultOf i s).mem.read a) ∧
    ∀ a, ¬ WrittenByte i s.cfg a → t.mem.read a = s.mem.read a

theorem completesWithResult {i : Instr} {s : State} (h : RunsNormally i s) : ∃ t, CompletesWithResult i s t := by
  have hexec := exec_of_runsNormally h
  obtain ⟨-, -, -, hdisjoint, -, hs⟩ := h
  exact ⟨_, hexec, exec_same hexec, succeed_completed _ _ _, succeed_accOvf hs _ _,
    fun q hq hne a hlow hhigh => succeed_read hs (not_scra_of_written hdisjoint hq hne ⟨hlow, hhigh⟩),
    fun a ha => exec_read_out hexec ha⟩

/-- A used region but scratch A holds the result's bytes after a normal completion. -/
theorem read_of_completes {i : Instr} {s t : State} (h : CompletesWithResult i s t) {id : RegionId} {n a : Nat}
    (hn : regionLen i s.cfg id = some n) (hid : id ≠ .scra)
    (ha : (regionBase s.cfg id).toNat ≤ a ∧ a < (regionBase s.cfg id).toNat + n) :
    t.mem.read a = (resultOf i s).mem.read a := by
  obtain ⟨-, -, -, -, hread, -⟩ := h
  exact hread ⟨id, _, n⟩ ((mem_usedRegions _ _ _).mpr ⟨hn, rfl⟩) hid a ha.1 ha.2

theorem read_out_of_completes {i : Instr} {s t : State} (h : CompletesWithResult i s t) {n k : Nat}
    (hn : regionLen i s.cfg .out = some n) (hk : k < n) :
    t.mem.read (s.cfg.outAddr.toNat + k) = (resultOf i s).mem.read (s.cfg.outAddr.toNat + k) :=
  read_of_completes h hn (by decide) ⟨Nat.le_add_right _ _, Nat.add_lt_add_left hk _⟩

/-- Two used regions with different ids, one of them written, share no byte (20_memory.md R59). -/
theorem regions_apart {i : Instr} {c : CfgRegs} (hdisjoint : RegionsDisjoint i c) {id id' : RegionId} {n n' a : Nat}
    (hn : regionLen i c id = some n) (hn' : regionLen i c id' = some n') (hne : id.number ≠ id'.number)
    (hw : id.isWritten = true ∨ id'.isWritten = true)
    (ha : (regionBase c id).toNat ≤ a ∧ a < (regionBase c id).toNat + n) :
    ¬ ((regionBase c id').toNat ≤ a ∧ a < (regionBase c id').toNat + n') :=
  regionsDisjoint_apart hdisjoint (r := ⟨id, _, n⟩) (q := ⟨id', _, n'⟩) ((mem_usedRegions _ _ _).mpr ⟨hn, rfl⟩)
    ((mem_usedRegions _ _ _).mpr ⟨hn', rfl⟩) hne hw ha

/-! ### CONV2D -/

theorem conv2dAccAt_flat {s : State} {y x co : Nat} (hx : x < s.cfg.d) (hco : co < s.cfg.co) :
    conv2dAccAt s ((y * s.cfg.d + x) * s.cfg.co + co) = exactConv2d s.mem s.cfg y x co := by
  obtain ⟨h1, h2, h3⟩ := flat_coordinates (y := y) hx hco
  rw [conv2dAccAt, h1, h2, h3, conv2dAcc_eq_exact]

theorem conv2dResult_ovf_iff (s : State) :
    (conv2dResult s).ovf = true ↔ ∃ y x co, y < s.cfg.d ∧ x < s.cfg.d ∧ co < s.cfg.co ∧
      OutsideInt32 (exactConv2d s.mem s.cfg y x co + rnd s.params.accRound s.cfg.os) := by
  refine anyBelow_flat_iff.trans (exists₃_congr fun y x co => and_congr_right fun _ => and_congr_right fun hx =>
    and_congr_right fun hco => ?_)
  rw [conv2dAccAt_flat hx hco]
  exact overflows_iff _ _ _

theorem conv2dResult_out {s : State} {y x co : Nat} (hy : y < s.cfg.d) (hx : x < s.cfg.d) (hco : co < s.cfg.co) :
    (conv2dResult s).mem.read (s.cfg.outAddr.toNat + ((y * s.cfg.d + x) * s.cfg.co + co)) =
      BitVec.ofInt 8 (requant s.params.accRound (exactConv2d s.mem s.cfg y x co) s.cfg.os) := by
  rw [conv2dResult, Memory.read_fill_in _ _ (flat_lt hy hx hco), conv2dAccAt_flat hx hco]
  rfl

theorem readHalf_congr {m m' : Memory} {a : Nat} (h0 : m.read a = m'.read a) (h1 : m.read (a + 1) = m'.read (a + 1)) :
    m.readHalf a = m'.readHalf a := by
  rw [Memory.readHalf, Memory.readHalf, h0, h1]

/-- Scratch B after CONV2D holds the widened weights: OUT is filled later, but shares no byte with it (20_memory.md R59,
R62). -/
theorem conv2d_scrb {s t : State} (hdisjoint : RegionsDisjoint .conv2d s.cfg) (h : CompletesWithResult .conv2d s t)
    {n : Nat} (hn : n < s.cfg.k * s.cfg.k * s.cfg.ci * s.cfg.co) :
    t.mem.readHalf (s.cfg.scrbAddr.toNat + 2 * n) = (s.mem.read (s.cfg.wAddr.toNat + n)).signExtend 16 := by
  have hlen : 2 * s.cfg.k * s.cfg.k * s.cfg.ci * s.cfg.co = 2 * (s.cfg.k * s.cfg.k * s.cfg.ci * s.cfg.co) := by ring
  have hbyte : ∀ a, s.cfg.scrbAddr.toNat + 2 * n ≤ a → a ≤ s.cfg.scrbAddr.toNat + 2 * n + 1 →
      t.mem.read a = (s.mem.fillHalf s.cfg.scrbAddr.toNat (s.cfg.k * s.cfg.k * s.cfg.ci * s.cfg.co)
        fun n => widen (s.mem.read (s.cfg.wAddr.toNat + n))).read a := fun a hlow hhigh => by
    have hin : s.cfg.scrbAddr.toNat ≤ a ∧
        a < s.cfg.scrbAddr.toNat + 2 * s.cfg.k * s.cfg.k * s.cfg.ci * s.cfg.co := by
      rw [hlen]
      omega
    rw [read_of_completes h (id := .scrb) rfl (by decide) hin]
    exact Memory.read_fill_out _ _
      (regions_apart hdisjoint (id := .scrb) (id' := .out) rfl rfl (by decide) (.inl rfl) hin)
  rw [readHalf_congr (hbyte _ le_rfl (by omega)) (hbyte _ (by omega) le_rfl), Memory.readHalf_fillHalf _ _ hn]
  rfl

/-- Settles O8: OUT, scratch B and ACC_OVF are those of the result, which is the rule's element by element. -/
theorem conv2dCompletesWithItsResult : Obligations.Conv2dCompletesWithItsResult := by
  intro s hrun
  obtain ⟨t, h⟩ := completesWithResult hrun
  obtain ⟨-, -, -, hdisjoint, -, -⟩ := hrun
  have hout := fun {k} => read_out_of_completes h (k := k) rfl
  have hscrb := fun {n} => conv2d_scrb hdisjoint h (n := n)
  obtain ⟨hexec, hsame, hcompleted, hovf, -, hframe⟩ := h
  exact ⟨t, hexec, hsame, hcompleted, hovf ▸ conv2dResult_ovf_iff s,
    fun y x co hy hx hco => (hout (flat_lt hy hx hco)).trans (conv2dResult_out hy hx hco), fun n hn => hscrb hn, hframe⟩

/-! ### DWCONV -/

theorem dwconvAccAt_flat {s : State} {y x ch : Nat} (hx : x < s.cfg.d) (hch : ch < s.cfg.ci) :
    dwconvAccAt s ((y * s.cfg.d + x) * s.cfg.ci + ch) = exactDwconv s.mem s.cfg y x ch := by
  obtain ⟨h1, h2, h3⟩ := flat_coordinates (y := y) hx hch
  rw [dwconvAccAt, h1, h2, h3, dwconvAcc_eq_exact]

theorem dwconvResult_ovf_iff (s : State) :
    (dwconvResult s).ovf = true ↔ ∃ y x ch, y < s.cfg.d ∧ x < s.cfg.d ∧ ch < s.cfg.ci ∧
      OutsideInt32 (exactDwconv s.mem s.cfg y x ch + rnd s.params.accRound s.cfg.os) := by
  refine anyBelow_flat_iff.trans (exists₃_congr fun y x ch => and_congr_right fun _ => and_congr_right fun hx =>
    and_congr_right fun hch => ?_)
  rw [dwconvAccAt_flat hx hch]
  exact overflows_iff _ _ _

theorem dwconvResult_out {s : State} {y x ch : Nat} (hy : y < s.cfg.d) (hx : x < s.cfg.d) (hch : ch < s.cfg.ci) :
    (dwconvResult s).mem.read (s.cfg.outAddr.toNat + ((y * s.cfg.d + x) * s.cfg.ci + ch)) =
      BitVec.ofInt 8 (requant s.params.accRound (exactDwconv s.mem s.cfg y x ch) s.cfg.os) := by
  rw [dwconvResult, Memory.read_fill_in _ _ (flat_lt hy hx hch), dwconvAccAt_flat hx hch]
  rfl

/-- Settles O9: OUT and ACC_OVF are those of the result, which is the rule's element by element. -/
theorem dwconvCompletesWithItsResult : Obligations.DwconvCompletesWithItsResult := by
  intro s hrun
  obtain ⟨t, h⟩ := completesWithResult hrun
  have hout := fun {k} => read_out_of_completes h (k := k) rfl
  obtain ⟨hexec, hsame, hcompleted, hovf, -, hframe⟩ := h
  exact ⟨t, hexec, hsame, hcompleted, hovf ▸ dwconvResult_ovf_iff s,
    fun y x ch hy hx hch => (hout (flat_lt hy hx hch)).trans (dwconvResult_out hy hx hch), hframe⟩

/-! ### PWCONV and PWCONV_FAST -/

/-- The two pointwise commands' accumulators, flat offset by flat offset, for any order of the weights. -/
theorem pointwiseAcc_flat {s : State} (order : Nat → Nat → Nat) {p co : Nat} (hco : co < s.cfg.co) :
    pointwiseAcc s order ((p * s.cfg.co + co) / s.cfg.co) ((p * s.cfg.co + co) % s.cfg.co) =
      exactPointwise s.mem s.cfg order p co := by
  obtain ⟨hdiv, hmod⟩ := flat_pair_coordinates (p := p) hco
  rw [hdiv, hmod, pointwiseAcc_eq_exact]

theorem pointwise_ovf_iff (s : State) (order : Nat → Nat → Nat) :
    (anyBelow (s.cfg.d * s.cfg.d * s.cfg.co) fun n =>
        accOverflows s (pointwiseAcc s order (n / s.cfg.co) (n % s.cfg.co))) = true ↔
      ∃ p co, p < s.cfg.d * s.cfg.d ∧ co < s.cfg.co ∧
        OutsideInt32 (exactPointwise s.mem s.cfg order p co + rnd s.params.accRound s.cfg.os) := by
  refine anyBelow_flat_pair_iff.trans (exists₂_congr fun p co => and_congr_right fun _ => and_congr_right fun hco => ?_)
  rw [pointwiseAcc_flat order hco]
  exact overflows_iff _ _ _

theorem pointwise_out {s : State} (order : Nat → Nat → Nat) {p co : Nat} (hp : p < s.cfg.d * s.cfg.d)
    (hco : co < s.cfg.co) :
    (s.mem.fill s.cfg.outAddr.toNat (s.cfg.d * s.cfg.d * s.cfg.co) fun n =>
        outputByte s (pointwiseAcc s order (n / s.cfg.co) (n % s.cfg.co))).read
          (s.cfg.outAddr.toNat + (p * s.cfg.co + co)) =
      BitVec.ofInt 8 (requant s.params.accRound (exactPointwise s.mem s.cfg order p co) s.cfg.os) := by
  rw [Memory.read_fill_in _ _ (flat_pair_lt hp hco), pointwiseAcc_flat order hco]
  rfl

/-- Settles O10: OUT and ACC_OVF are those of the result, with the weights in the basic order. -/
theorem pwconvCompletesWithItsResult : Obligations.PwconvCompletesWithItsResult := by
  intro s hrun
  obtain ⟨t, h⟩ := completesWithResult hrun
  have hout := fun {k} => read_out_of_completes h (k := k) rfl
  obtain ⟨hexec, hsame, hcompleted, hovf, -, hframe⟩ := h
  exact ⟨t, hexec, hsame, hcompleted, hovf ▸ pointwise_ovf_iff s (pwconvOrder s),
    fun p co hp hco => (hout (flat_pair_lt hp hco)).trans (pointwise_out (pwconvOrder s) hp hco), hframe⟩

/-- Settles O11: OUT and ACC_OVF are those of the result, with the weights in the order of FAST_W_ORDER. -/
theorem pwconvFastCompletesWithItsResult : Obligations.PwconvFastCompletesWithItsResult := by
  intro s hrun
  obtain ⟨t, h⟩ := completesWithResult hrun
  have hout := fun {k} => read_out_of_completes h (k := k) rfl
  obtain ⟨hexec, hsame, hcompleted, hovf, -, hframe⟩ := h
  exact ⟨t, hexec, hsame, hcompleted, hovf ▸ pointwise_ovf_iff s (pwconvFastOrder s),
    fun p co hp hco => (hout (flat_pair_lt hp hco)).trans (pointwise_out (pwconvFastOrder s) hp hco), hframe⟩

/-! ### AVGPOOL2X2 -/

theorem avgpoolResult_out {s : State} {oy ox ch : Nat} (hy : oy < s.cfg.d / 2) (hx : ox < s.cfg.d / 2)
    (hch : ch < s.cfg.ci) :
    (avgpoolResult s).mem.read (s.cfg.outAddr.toNat + ((oy * (s.cfg.d / 2) + ox) * s.cfg.ci + ch)) =
      BitVec.ofInt 8 (exactPool s.mem s.cfg s.params.poolRound oy ox ch) := by
  obtain ⟨h1, h2, h3⟩ := flat_coordinates (y := oy) hx hch
  rw [avgpoolResult, Memory.read_fill_in _ _ (flat_lt hy hx hch), poolByteAt, h1, h2, h3, poolValue_eq_exact]
  rfl

/-- Settles O12: OUT is that of the result, and ACC_OVF stays 0. -/
theorem avgpoolCompletesWithItsResult : Obligations.AvgpoolCompletesWithItsResult := by
  intro s hrun
  obtain ⟨t, h⟩ := completesWithResult hrun
  have hout := fun {k} => read_out_of_completes h (k := k) rfl
  obtain ⟨hexec, hsame, hcompleted, hovf, -, hframe⟩ := h
  have hzero : t.accOvf = false := hovf
  rw [hzero] at hcompleted
  exact ⟨t, hexec, hsame, hcompleted,
    fun oy ox ch hy hx hch => (hout (flat_lt hy hx hch)).trans (avgpoolResult_out hy hx hch), hframe⟩

end Sys2Proof.Machine
end

section
/-! PROOFS. Which bytes and registers a result depends on: two orders of the same weights, other channels' weights, and
registers that a command does not read (43_pointwise.md R145, 42_depthwise.md R132, 10_state.md R45). -/

namespace Sys2Proof.Machine

/-! ### PWCONV_FAST and PWCONV -/

/-- The exact accumulator of a pointwise element reads its bias byte, its pixel's inputs and its channel's weights. -/
theorem exactPointwise_congr {m m' : Memory} {c : CfgRegs} {order order' : Nat → Nat → Nat} {p co : Nat}
    (hbias : m.read (c.biasAddr.toNat + co) = m'.read (c.biasAddr.toNat + co))
    (hin : ∀ ci, ci < c.ci → m.read (c.inAddr.toNat + (p * c.ci + ci)) = m'.read (c.inAddr.toNat + (p * c.ci + ci)))
    (hw : ∀ ci, ci < c.ci → m.read (c.wAddr.toNat + order ci co) = m'.read (c.wAddr.toNat + order' ci co)) :
    exactPointwise m c order p co = exactPointwise m' c order' p co := by
  rw [exactPointwise, exactPointwise, exactBias, exactBias, hbias]
  refine congrArg _ (Finset.sum_congr rfl fun ci hci => ?_)
  rw [hin ci (Finset.mem_range.mp hci), hw ci (Finset.mem_range.mp hci)]

theorem halfwordRegion_pwconvFast (r : RegionId) : halfwordRegion .pwconvFast r = halfwordRegion .pwconv r := by
  cases r <;> rfl

/-- The two pointwise commands use the same regions, and PWCONV's table is the weaker one (43_pointwise.md R140, R143). -/
theorem runsNormally_pwconv_of_fast {s : State} (h : RunsNormally .pwconvFast s) (m : Memory) :
    RunsNormally .pwconv { s with mem := m } := by
  obtain ⟨⟨hd, ⟨hci, -⟩, ⟨hco, -⟩, hbs, hos⟩, hfit, haligned, hdisjoint, hbus, hspoiled⟩ := h
  exact ⟨⟨hd, le_trans (by decide) hci, le_trans (by decide) hco, hbs, hos⟩, hfit,
    fun r hr hhalf => haligned r hr ((halfwordRegion_pwconvFast r.id).trans hhalf), hdisjoint, hbus, hspoiled⟩

/-- Settles O13: each element's exact accumulator is the same over both memories, and the completions of the two commands
are functions of it. -/
theorem fastPointwiseEqualsBasic : Obligations.FastPointwiseEqualsBasic := by
  intro s m hrun hweights hother happart
  obtain ⟨t, hfast, -, ⟨-, -, -, -, htcode, -⟩, htovf, htout, -⟩ := pwconvFastCompletesWithItsResult s hrun
  obtain ⟨u, hbasic, -, ⟨-, -, -, -, hucode, -⟩, huovf, huout, -⟩ :=
    pwconvCompletesWithItsResult { s with mem := m } (runsNormally_pwconv_of_fast hrun m)
  have hacc : ∀ p co, p < s.cfg.d * s.cfg.d → co < s.cfg.co →
      exactPointwise m s.cfg (fun ci co => ci * s.cfg.co + co) p co =
        exactPointwise s.mem s.cfg (fastOffset s.params s.cfg.ci s.cfg.co) p co := fun p co hp hco => by
    refine exactPointwise_congr (hother _ fun ha => ?_) (fun ci hci => hother _ fun ha => ?_)
      fun ci hci => hweights ci co hci hco
    · exact (happart _ ha.1 ha.2).2 ⟨Nat.le_add_right _ _, Nat.add_lt_add_left hco _⟩
    · exact (happart _ ha.1 ha.2).1 ⟨Nat.le_add_right _ _, Nat.add_lt_add_left (flat_pair_lt hp hci) _⟩
  refine ⟨t, u, hfast, hbasic, ?_, hucode.trans htcode.symm, fun p co hp hco => ?_⟩
  · rw [Bool.eq_iff_iff, huovf, htovf]
    refine exists₂_congr fun p co => and_congr_right fun hp => and_congr_right fun hco => ?_
    rw [hacc p co hp hco]
  · rw [huout p co hp hco, htout p co hp hco, hacc p co hp hco]

/-! ### DWCONV's channels -/

/-- The padded input reads bytes of IN alone (40_fixed_point.md R105). -/
theorem exactInput_congr {m m' : Memory} {c : CfgRegs} {ch : Nat} (hch : ch < c.ci)
    (hin : ∀ k, k < c.d * c.d * c.ci → m.read (c.inAddr.toNat + k) = m'.read (c.inAddr.toNat + k)) (row col : Int) :
    exactInput m c c.ci row col ch = exactInput m' c c.ci row col ch := by
  unfold exactInput
  split
  · rename_i h
    obtain ⟨hr, hrow, hc, hcol⟩ := h
    obtain ⟨r, rfl⟩ := Int.eq_ofNat_of_zero_le hr
    obtain ⟨q, rfl⟩ := Int.eq_ofNat_of_zero_le hc
    have hflat : (((r : Int) * c.d + q) * c.ci + ch).toNat = (r * c.d + q) * c.ci + ch := by
      exact_mod_cast Int.toNat_natCast _
    rw [hflat, hin _ (flat_lt (Int.ofNat_lt.mp hrow) (Int.ofNat_lt.mp hcol) hch)]
  · rfl

/-- A depthwise accumulator reads bytes of IN and the weights of its own channel (42_depthwise.md R131). -/
theorem exactDwconv_congr {m m' : Memory} {c : CfgRegs} {ch : Nat} (hch : ch < c.ci)
    (hin : ∀ k, k < c.d * c.d * c.ci → m.read (c.inAddr.toNat + k) = m'.read (c.inAddr.toNat + k))
    (hw : ∀ tap, tap < c.k * c.k →
      m.read (c.wAddr.toNat + (tap * c.ci + ch)) = m'.read (c.wAddr.toNat + (tap * c.ci + ch))) (y x : Nat) :
    exactDwconv m c y x ch = exactDwconv m' c y x ch := by
  refine Finset.sum_congr rfl fun ky hky => Finset.sum_congr rfl fun kx hkx => ?_
  rw [exactInput_congr hch hin, hw _ (flat_pair_lt (Finset.mem_range.mp hky) (Finset.mem_range.mp hkx))]

/-- Settles O14: a changed byte is no byte of IN and stands in another channel, so it is no weight of this one; the checks
do not look at memory. -/
theorem depthwiseChannelsAreIndependent : Obligations.DepthwiseChannelsAreIndependent := by
  intro s m ch hrun hch hchanged
  obtain ⟨t, ht, -, -, -, htout, -⟩ := dwconvCompletesWithItsResult s hrun
  obtain ⟨u, hu, -, -, -, huout, -⟩ := dwconvCompletesWithItsResult { s with mem := m } hrun
  refine ⟨t, u, ht, hu, fun y x hy hx => ?_⟩
  have hacc : exactDwconv m s.cfg y x ch = exactDwconv s.mem s.cfg y x ch := by
    refine exactDwconv_congr hch (fun k hk => ?_) (fun tap _ => ?_) y x
    · by_contra hne
      exact (hchanged _ hne).1 ⟨Nat.le_add_right _ _, Nat.add_lt_add_left hk _⟩
    · by_contra hne
      obtain ⟨-, tap', other, -, hother, hdiff, haddr⟩ := hchanged _ hne
      have hmod := congrArg (· % s.cfg.ci) (Nat.add_left_cancel haddr)
      simp only [(flat_pair_coordinates hch).2, (flat_pair_coordinates hother).2] at hmod
      exact hdiff hmod.symm
  rw [htout y x ch hy hx hch, ← hacc]
  exact huout y x ch hy hx hch

/-! ### Registers not read -/

/-- The registers a command reads decide its table of checks, its regions and its result (10_state.md R45). -/
theorem sameOperands_same {i : Instr} {s : State} {c : CfgRegs} (h : SameOperands i s.cfg c) :
    rowsOf i c = rowsOf i s.cfg ∧ usedRegions i c = usedRegions i s.cfg ∧
      resultOf i { s with cfg := c } = resultOf i s := by
  obtain ⟨⟨⟩⟩ := s
  cases c
  cases i with
  | conv2d =>
    cases h
    exact ⟨rfl, rfl, rfl⟩
  | dwconv =>
    obtain ⟨rfl, rfl, rfl, rfl, rfl, rfl, rfl, rfl, rfl⟩ := h
    exact ⟨rfl, rfl, rfl⟩
  | pwconv | pwconvFast =>
    obtain ⟨rfl, rfl, rfl, rfl, rfl, rfl, rfl, rfl, rfl, rfl⟩ := h
    exact ⟨rfl, rfl, rfl⟩
  | avgpool2x2 =>
    obtain ⟨rfl, rfl, rfl, rfl⟩ := h
    exact ⟨rfl, rfl, rfl⟩

/-- Settles O29: the same check fails with the same detail, or some byte fails in both, or the same result is left. -/
theorem unreadRegistersHaveNoEffect : Obligations.UnreadRegistersHaveNoEffect := by
  intro i s c t hsame hspoiled hexec
  obtain ⟨hrows, hregions, hresult⟩ := sameOperands_same hsame
  rw [exec_eq_runCommand, runCommand] at hexec ⊢
  simp only [hrows, hregions, hresult]
  cases hparam : paramError (rowsOf i s.cfg) with
  | some e =>
    rw [hparam] at hexec
    cases hexec
    exact ⟨_, rfl, rfl, fun _ => ⟨rfl, rfl, fun _ _ => rfl⟩⟩
  | none =>
    cases hregion : regionError i (usedRegions i s.cfg) with
    | some e =>
      rw [hparam, hregion] at hexec
      cases hexec
      exact ⟨_, rfl, rfl, fun _ => ⟨rfl, rfl, fun _ _ => rfl⟩⟩
    | none =>
      cases hfailing : failingBytes s.params (usedRegions i s.cfg) with
      | cons b bs =>
        rw [hparam, hregion, hfailing] at hexec
        cases hexec
        exact ⟨_, rfl, rfl, fun hne => absurd rfl hne⟩
      | nil =>
        rw [hparam, hregion, hfailing] at hexec
        cases hexec
        refine ⟨_, rfl, by simp, fun _ => ⟨by simp, ?_, fun a ha => ?_⟩⟩
        · rw [succeed_accOvf (s := { s with cfg := c }) hspoiled, succeed_accOvf hspoiled]
        · have hread := succeed_read (i := i) (s := { s with cfg := c }) hspoiled (a := a) (by rwa [hregions])
          rw [hregions, hresult] at hread
          rw [hread, succeed_read hspoiled ha]

end Sys2Proof.Machine
end

section
/-! PROOFS. The reordered weight layout: `rho_spec` and FAST_W_ORDER (43_pointwise.md R144, 00_scope.md R5). -/

namespace Sys2Proof.Machine

theorem fastSlot_lt {k : Nat} (hk : k < 4) : fastSlot k < 4 := by
  interval_cases k <;> decide

/-- `sigma` exchanges the members 1 and 2 of a group, so it is its own inverse (43_pointwise.md R144). -/
theorem fastSlot_fastSlot {k : Nat} (hk : k < 4) : fastSlot (fastSlot k) = k := by
  interval_cases k <;> rfl

/-- The three parts of a reordered offset: the block of eight, the column inside it, and the slot. -/
theorem rhoSpec_parts (cin ci co : Nat) :
    rhoSpec cin ci co / 8 = co / 2 * (cin / 4) + ci / 4 ∧ rhoSpec cin ci co / 4 % 2 = co % 2 ∧
      rhoSpec cin ci co % 4 = fastSlot (ci % 4) := by
  have hslot : fastSlot (ci % 4) < 4 := fastSlot_lt (Nat.mod_lt _ (by decide))
  unfold rhoSpec
  omega

/-- A reordered offset is put together of its three parts. -/
theorem rhoSpec_of_parts {cin ci co o : Nat} (hblock : co / 2 * (cin / 4) + ci / 4 = o / 8) (hcol : co % 2 = o / 4 % 2)
    (hslot : fastSlot (ci % 4) = o % 4) : rhoSpec cin ci co = o := by
  rw [rhoSpec, hblock, hcol, hslot]
  omega

/-- The weights are two columns and four rows to a block. -/
theorem weights_eq_blocks {cin cout : Nat} (hcin : cin % 4 = 0) (hcout : cout % 2 = 0) :
    cin * cout = 8 * (cout / 2 * (cin / 4)) := by
  obtain ⟨q, rfl⟩ := Nat.dvd_of_mod_eq_zero hcin
  obtain ⟨r, rfl⟩ := Nat.dvd_of_mod_eq_zero hcout
  rw [Nat.mul_div_cancel_left q (by decide), Nat.mul_div_cancel_left r (by decide)]
  ring

/-- Every weight has its offset inside the W region, from which its two channels can be read back. -/
theorem rhoSpec_inverse {cin cout ci co : Nat} (hcin : cin % 4 = 0) (hcout : cout % 2 = 0) (hci : ci < cin)
    (hco : co < cout) :
    rhoSpec cin ci co < cin * cout ∧
      4 * (rhoSpec cin ci co / 8 % (cin / 4)) + fastSlot (rhoSpec cin ci co % 4) = ci ∧
      2 * (rhoSpec cin ci co / 8 / (cin / 4)) + rhoSpec cin ci co / 4 % 2 = co := by
  obtain ⟨hblock, hcol, hslot⟩ := rhoSpec_parts cin ci co
  have hrow : ci / 4 < cin / 4 := by omega
  have hlt : co / 2 * (cin / 4) + ci / 4 < cout / 2 * (cin / 4) := flat_pair_lt (by omega) hrow
  obtain ⟨hdiv, hmod⟩ := flat_pair_coordinates (p := co / 2) hrow
  refine ⟨?_, ?_, ?_⟩
  · rw [weights_eq_blocks hcin hcout]
    omega
  · rw [hblock, hmod, hslot, fastSlot_fastSlot (Nat.mod_lt _ (by decide))]
    omega
  · rw [hblock, hdiv, hcol]
    omega

/-- Every offset of the W region is that of the weight read back from it. -/
theorem rhoSpec_surjective {cin cout o : Nat} (hcin : cin % 4 = 0) (hcout : cout % 2 = 0) (ho : o < cin * cout) :
    4 * (o / 8 % (cin / 4)) + fastSlot (o % 4) < cin ∧ 2 * (o / 8 / (cin / 4)) + o / 4 % 2 < cout ∧
      rhoSpec cin (4 * (o / 8 % (cin / 4)) + fastSlot (o % 4)) (2 * (o / 8 / (cin / 4)) + o / 4 % 2) = o := by
  rw [weights_eq_blocks hcin hcout] at ho
  have hrows : 0 < cin / 4 := Nat.pos_of_ne_zero fun h0 => by simp [h0] at ho
  have hrow : o / 8 % (cin / 4) < cin / 4 := Nat.mod_lt _ hrows
  have hcolumn : o / 8 / (cin / 4) < cout / 2 := (Nat.div_lt_iff_lt_mul hrows).mpr (by omega)
  have hslot : fastSlot (o % 4) < 4 := fastSlot_lt (Nat.mod_lt _ (by decide))
  refine ⟨by omega, by omega, rhoSpec_of_parts ?_ (by omega) ?_⟩
  · rw [show (2 * (o / 8 / (cin / 4)) + o / 4 % 2) / 2 = o / 8 / (cin / 4) by omega,
      show (4 * (o / 8 % (cin / 4)) + fastSlot (o % 4)) / 4 = o / 8 % (cin / 4) by omega, Nat.div_add_mod']
  · rw [show (4 * (o / 8 % (cin / 4)) + fastSlot (o % 4)) % 4 = fastSlot (o % 4) by omega,
      fastSlot_fastSlot (Nat.mod_lt _ (by decide))]

/-- Settles O15: an offset's block, column and slot determine the weight, and the weight determines them. -/
theorem fastWeightOrderHasItsInverse : Obligations.FastWeightOrderHasItsInverse :=
  ⟨⟨rfl, rfl, rfl, rfl⟩, fun _ _ hcin hcout =>
    ⟨fun _ _ hci hco => rhoSpec_inverse hcin hcout hci hco, fun _ ho => rhoSpec_surjective hcin hcout ho⟩⟩

theorem rhoSpec_injective {cin cout ci co ci' co' : Nat} (hcin : cin % 4 = 0) (hcout : cout % 2 = 0) (hci : ci < cin)
    (hco : co < cout) (hci' : ci' < cin) (hco' : co' < cout) (h : rhoSpec cin ci co = rhoSpec cin ci' co') :
    ci = ci' ∧ co = co' := by
  obtain ⟨-, hrow, hcol⟩ := rhoSpec_inverse hcin hcout hci hco
  obtain ⟨-, hrow', hcol'⟩ := rhoSpec_inverse hcin hcout hci' hco'
  rw [h] at hrow hcol
  exact ⟨hrow.symm.trans hrow', hcol.symm.trans hcol'⟩

/-! ### The platform's rows -/

/-- A row stands for these channel counts, and is a bijection (notes/assumptions/4.md). -/
def rowApplies (cin cout : Nat) (r : FastRow) : Bool := r.cin == cin && r.cout == cout && r.wellFormed

theorem rowApplies_iff (cin cout : Nat) (r : FastRow) :
    rowApplies cin cout r = true ↔ r.cin = cin ∧ r.cout = cout ∧ r.wellFormed = true := by
  simp only [rowApplies, Bool.and_eq_true, beq_iff_eq, and_assoc]

theorem fastOffset_of_row {p : Params} {cin cout : Nat} {r : FastRow}
    (h : p.fastOrder.find? (rowApplies cin cout) = some r) (ci co : Nat) :
    fastOffset p cin cout ci co = r.offsets.getD (ci * cout + co) 0 := by
  have h' : p.fastOrder.find? (fun r => r.cin == cin && r.cout == cout && r.wellFormed) = some r := h
  rw [fastOffset, h']

theorem fastOffset_of_no_row {p : Params} {cin cout : Nat} (h : p.fastOrder.find? (rowApplies cin cout) = none)
    (ci co : Nat) : fastOffset p cin cout ci co = rhoSpec cin ci co := by
  have h' : p.fastOrder.find? (fun r => r.cin == cin && r.cout == cout && r.wellFormed) = none := h
  rw [fastOffset, h']

/-- A row that applies lists one offset for each weight, inside the W region and each once (00_scope.md R5). -/
theorem row_of_applies {cin cout : Nat} {r : FastRow} (h : rowApplies cin cout r = true) :
    r.offsets.length = cin * cout ∧ (∀ o ∈ r.offsets, o < cin * cout) ∧ r.offsets.Nodup := by
  obtain ⟨rfl, rfl, hwf⟩ := (rowApplies_iff cin cout r).mp h
  simpa only [FastRow.wellFormed, Bool.and_eq_true, beq_iff_eq, List.all_eq_true, decide_eq_true_eq, and_assoc] using hwf

theorem fastOffset_eq_getElem {p : Params} {cin cout ci co : Nat} {r : FastRow}
    (h : p.fastOrder.find? (rowApplies cin cout) = some r) (hlt : ci * cout + co < r.offsets.length) :
    fastOffset p cin cout ci co = r.offsets[ci * cout + co] := by
  rw [fastOffset_of_row h, List.getD_eq_getElem r.offsets 0 hlt]

theorem fastRow_index_lt {cin cout ci co : Nat} {r : FastRow} (h : rowApplies cin cout r = true) (hci : ci < cin)
    (hco : co < cout) : ci * cout + co < r.offsets.length :=
  (flat_pair_lt hci hco).trans_eq (row_of_applies h).1.symm

theorem fastOffset_lt (p : Params) {cin cout ci co : Nat} (hcin : cin % 4 = 0) (hcout : cout % 2 = 0) (hci : ci < cin)
    (hco : co < cout) : fastOffset p cin cout ci co < cin * cout := by
  cases h : p.fastOrder.find? (rowApplies cin cout) with
  | none =>
    rw [fastOffset_of_no_row h]
    exact (rhoSpec_inverse hcin hcout hci hco).1
  | some r =>
    have happ := List.find?_some h
    obtain ⟨-, hrange, -⟩ := row_of_applies happ
    rw [fastOffset_eq_getElem h (fastRow_index_lt happ hci hco)]
    exact hrange _ (List.getElem_mem _)

theorem fastOffset_injective (p : Params) {cin cout ci co ci' co' : Nat} (hcin : cin % 4 = 0) (hcout : cout % 2 = 0)
    (hci : ci < cin) (hco : co < cout) (hci' : ci' < cin) (hco' : co' < cout)
    (heq : fastOffset p cin cout ci co = fastOffset p cin cout ci' co') : ci = ci' ∧ co = co' := by
  cases h : p.fastOrder.find? (rowApplies cin cout) with
  | none =>
    rw [fastOffset_of_no_row h, fastOffset_of_no_row h] at heq
    exact rhoSpec_injective hcin hcout hci hco hci' hco' heq
  | some r =>
    have happ := List.find?_some h
    obtain ⟨-, -, hnodup⟩ := row_of_applies happ
    rw [fastOffset_eq_getElem h (fastRow_index_lt happ hci hco),
      fastOffset_eq_getElem h (fastRow_index_lt happ hci' hco')] at heq
    have hindex := hnodup.getElem_inj_iff.mp heq
    obtain ⟨hdiv, hmod⟩ := flat_pair_coordinates (p := ci) hco
    obtain ⟨hdiv', hmod'⟩ := flat_pair_coordinates (p := ci') hco'
    rw [hindex] at hdiv hmod
    exact ⟨hdiv.symm.trans hdiv', hmod.symm.trans hmod'⟩

/-- Rows for other channel counts do not apply. -/
theorem find?_fastRow_none {rows : List FastRow} {cin cout : Nat} (h : ∀ r ∈ rows, r.cin ≠ cin ∨ r.cout ≠ cout) :
    rows.find? (rowApplies cin cout) = none := by
  refine List.find?_eq_none.mpr fun r hr happ => ?_
  obtain ⟨hcin, hcout, -⟩ := (rowApplies_iff cin cout r).mp happ
  rcases h r hr with hne | hne
  · exact hne hcin
  · exact hne hcout

/-- Settles O16: the search takes the first row for the channel counts, if it is a bijection, and else `rho_spec`; both
are injective into the W region. -/
theorem fastWeightOrderIsInjective : Obligations.FastWeightOrderIsInjective := by
  intro p cin cout hcin hcout
  refine ⟨fun ci co hci hco => fastOffset_lt p hcin hcout hci hco,
    fun ci co ci' co' hci hco hci' hco' heq => fastOffset_injective p hcin hcout hci hco hci' hco' heq,
    fun hrows ci co => fastOffset_of_no_row (find?_fastRow_none hrows) ci co,
    fun r before after hrows hbefore hrcin hrcout hwf ci co hci hco => ?_⟩
  have happ : rowApplies cin cout r = true := (rowApplies_iff cin cout r).mpr ⟨hrcin, hrcout, hwf⟩
  have hfind : p.fastOrder.find? (rowApplies cin cout) = some r := by
    rw [hrows, List.find?_append, find?_fastRow_none hbefore, List.find?_cons_of_pos happ]
    rfl
  have hlt := fastRow_index_lt happ hci hco
  rw [fastOffset_eq_getElem hfind hlt, List.getElem?_eq_getElem hlt]

end Sys2Proof.Machine
end

section
/-! PROOFS. Requantisation, the wrapping accumulator and the packed lanes (40_fixed_point.md R100 to R104, R108, R109). -/

namespace Sys2Proof.Machine

/-! ### Requantisation -/

/-- The rounding constant is half a step of the output shift, and 0 without one (40_fixed_point.md R103). -/
theorem rnd_eq (ar : Bool) (os : Nat) : rnd ar os = if ar then 2 ^ os / 2 else 0 := by
  cases ar
  · rfl
  · rw [rnd, if_pos rfl, if_pos rfl, Nat.one_shiftLeft, Nat.shiftRight_eq_div_pow]
    push_cast
    rfl

theorem sat8_mono {v w : Int} (h : v ≤ w) : sat8 v ≤ sat8 w :=
  min_le_min_left _ (max_le_max_left _ h)

theorem asr_mono {v w : Int} (h : v ≤ w) (os : Nat) : asr v os ≤ asr w os :=
  Int.ediv_le_ediv (by positivity) h

theorem asr_zero (v : Int) : asr v 0 = v := Int.ediv_one v

theorem requant_eq_floor (ar : Bool) (e : Int) (os : Nat) :
    requant ar e os = min 127 (max (-128) ⌊(wrap32 (e + if ar then 2 ^ os / 2 else 0) : ℚ) / 2 ^ os⌋) := by
  rw [requant, sat8, asr_eq_floor, rnd_eq]
  push_cast
  rfl

/-- Without a shift or a rounding constant an int32 value is only clamped. -/
theorem requant_zero {e : Int} (h : -(2 ^ 31) ≤ e ∧ e ≤ 2 ^ 31 - 1) : requant false e 0 = sat8 e := by
  rw [requant, asr_zero, rnd, if_neg (by decide), add_zero, wrap32_of_int32 h]

/-- Settles O54: requantisation is the clamp of the floor of the wrapped sum, each of which is monotone. -/
theorem requantisationLaws : Obligations.RequantisationLaws := by
  refine ⟨requant_eq_floor, fun ar e e' os hle he he' => ?_, fun e hlow hhigh => ?_, fun e hlow hhigh => ?_,
    fun e hlow hhigh => ?_, fun e os => ?_⟩
  · rw [requant, requant, wrap32_of_int32 (not_not.mp he), wrap32_of_int32 (not_not.mp he')]
    exact sat8_mono (asr_mono (add_le_add_left hle _) os)
  · rw [requant_zero (by omega), sat8]
    omega
  · rw [requant_zero (by omega), sat8]
    omega
  · rw [requant_zero (by omega), sat8]
    omega
  · rw [requant, requant, wrap32_add_wrap32]

/-! ### The accumulator -/

theorem wrap32_range (v : Int) : -(2 ^ 31) ≤ wrap32 v ∧ wrap32 v ≤ 2 ^ 31 - 1 := by
  have hlow := (BitVec.ofInt 32 v).le_toInt
  have hhigh := (BitVec.ofInt 32 v).toInt_lt
  exact ⟨hlow, Int.le_sub_one_of_lt hhigh⟩

theorem wrap32_emod (v : Int) : wrap32 v % 2 ^ 32 = v % 2 ^ 32 := by
  rw [wrap32, BitVec.toInt_ofInt]
  exact Int.bmod_emod

/-- A finite sum over a range is the sum of its list. -/
theorem sum_map_range (n : Nat) (f : Nat → Int) : ((List.range n).map f).sum = ∑ k ∈ Finset.range n, f k := rfl

theorem sum_flatMap_range (n : Nat) (f : Nat → List Int) :
    ((List.range n).flatMap f).sum = ∑ k ∈ Finset.range n, (f k).sum := by
  rw [List.flatMap_def, List.sum_flatten, List.map_map]
  exact sum_map_range n _

theorem conv2dProducts_sum (m : Memory) (c : CfgRegs) (y x co : Nat) :
    exactBias m c co + (conv2dProducts m c y x co).sum = exactConv2d m c y x co := by
  simp only [conv2dProducts, exactConv2d, sum_flatMap_range, sum_map_range]

theorem dwconvProducts_sum (m : Memory) (c : CfgRegs) (y x ch : Nat) :
    (dwconvProducts m c y x ch).sum = exactDwconv m c y x ch := by
  simp only [dwconvProducts, exactDwconv, sum_flatMap_range, sum_map_range]

theorem pointwiseProducts_sum (m : Memory) (c : CfgRegs) (order : Nat → Nat → Nat) (p co : Nat) :
    exactBias m c co + (pointwiseProducts m c order p co).sum = exactPointwise m c order p co := by
  simp only [pointwiseProducts, exactPointwise, sum_map_range]

/-- Settles O56: a wrapping accumulator ends with the wrap of the exact sum, which no permutation changes. -/
theorem accumulationOrderIsNotObservable : Obligations.AccumulationOrderIsNotObservable := by
  refine ⟨fun v => ⟨(wrap32_range v).1, (wrap32_range v).2, wrap32_emod v⟩, fun s y x co terms hperm => ?_,
    fun s y x ch terms hperm => ?_, fun s order p co terms hperm => ?_, fun ar e os => wrap32_add_wrap32 e _⟩
  · rw [accumulate_eq, hperm.sum_eq, conv2dProducts_sum, conv2dAcc_eq_exact]
  · rw [accumulate_eq, hperm.sum_eq, zero_add, dwconvProducts_sum, dwconvAcc_eq_exact]
  · rw [accumulate_eq, hperm.sum_eq, pointwiseProducts_sum, pointwiseAcc_eq_exact]

/-! ### Packed lanes -/

theorem byteLane_toNat (u : Word) (n : Nat) : (byteLane u n).toNat = u.toNat / 2 ^ (8 * n) % 2 ^ 8 := by
  rw [byteLane, BitVec.extractLsb'_toNat, Nat.shiftRight_eq_div_pow]

theorem halfLane_toNat (u : Word) (n : Nat) : (halfLane u n).toNat = u.toNat / 2 ^ (16 * n) % 2 ^ 16 := by
  rw [halfLane, BitVec.extractLsb'_toNat, Nat.shiftRight_eq_div_pow]

/-- A clamped value fits its lane. -/
theorem toInt_ofInt_satTo {l : Nat} (hl : 0 < l) (v : Int) : (BitVec.ofInt l (satTo l v)).toInt = satTo l v := by
  have hpos : (0 : Int) < 2 ^ (l - 1) := by positivity
  refine BitVec.toInt_ofInt_eq_self hl ?_ ?_ <;> unfold satTo <;> omega

theorem halvingAddRound_lane (pr : Bool) (u v : Word) {n : Nat} (hn : n < 4) :
    (byteLane (halvingAddRound pr u v) n).toInt = hadd pr (byteLane u n).toInt (byteLane v n).toInt := by
  rw [halvingAddRound, byteLane_packBytes _ hn]
  exact sext8_trunc8 (hadd_range (sext8_range _) (sext8_range _))

theorem widen_lanes (u : Word) {n : Nat} (hn : n < 2) :
    (halfLane (widenBytesToHalfwords u).1 n).toInt = (byteLane u n).toInt ∧
      (halfLane (widenBytesToHalfwords u).2 n).toInt = (byteLane u (n + 2)).toInt := by
  rw [widenBytesToHalfwords, halfLane_packHalves _ hn, halfLane_packHalves _ hn]
  exact ⟨widen_toInt _, widen_toInt _⟩

/-- Settles O57: a lane of a packed word is what was packed there, and each packed value fits its lane. -/
theorem packedLanesMatchScalars : Obligations.PackedLanesMatchScalars := by
  refine ⟨fun u n _ => byteLane_toNat u n, fun u n _ => halfLane_toNat u n, fun pr u v n => halvingAddRound_lane pr u v,
    fun u v n hn => ?_, fun u v n hn => ?_, fun u n => widen_lanes u, fun acc x y => ?_⟩
  · rw [packedAddSaturating8, byteLane_packBytes _ hn]
    exact toInt_ofInt_satTo (by decide) _
  · rw [packedAddSaturating16, halfLane_packHalves _ hn]
    exact toInt_ofInt_satTo (by decide) _
  · rw [packedMultiplyAccumulate4, Finset.sum_range_succ, Finset.sum_range_one, Finset.sum_range_succ,
      Finset.sum_range_one, ← add_assoc, ← add_assoc]

end Sys2Proof.Machine
end

section
/-! PROOFS. The assembler's refusals, and the run of an expanded mnemonic (30_encoding.md R86, R88, 60_exceptions.md
R160). -/

namespace Sys2Proof.Machine

theorem operandWrites_error_of_missing {ops : List (Operand × Nat)} {os : List Operand} {o : Operand} (ho : o ∈ os)
    (hmissing : ∀ q ∈ ops, q.1 ≠ o) : ∃ e, operandWrites ops os = .error e := by
  induction os with
  | nil => cases ho
  | cons o' rest ih =>
    rw [operandWrites]
    cases hfind : ops.find? (fun q => q.1 == o') with
    | none => exact ⟨_, rfl⟩
    | some q =>
      have hname : q.1 = o' := by simpa using List.find?_some hfind
      have hne : o ≠ o' := fun h => hmissing q (List.mem_of_find?_eq_some hfind) (hname.trans h.symm)
      obtain ⟨e, he⟩ := ih ((List.mem_cons.mp ho).resolve_left hne)
      rw [he]
      exact ⟨e, rfl⟩

/-- Settles O59: a list without a bad operand takes each only from the mnemonic and within its field, and a missing one
fails its lookup. -/
theorem assemblerRefusesBadOperands : Obligations.AssemblerRefusesBadOperands := by
  intro i ops hbad
  rw [assembleCommand]
  cases herr : operandError i ops with
  | some e => exact ⟨e, rfl⟩
  | none =>
    obtain ⟨hgood, -⟩ := (operandError_none_iff i ops).mp herr
    rcases hbad with ⟨o, ho, hmissing⟩ | ⟨q, hq, hunknown⟩ | ⟨q, hq, hwide⟩
    · obtain ⟨e, he⟩ := operandWrites_error_of_missing ho hmissing
      rw [he]
      exact ⟨e, rfl⟩
    · exact absurd (hgood q hq).1 hunknown
    · exact absurd (hgood q hq).2 (Nat.not_lt.mpr hwide)

/-! ### Running the expansion -/

theorem Operand.reg_isConfig (o : Operand) : o.reg.isConfig = true := by
  cases o <;> rfl

theorem Operand.reg_bitsUsed (o : Operand) : o.reg.bitsUsed = o.bits := by
  cases o <;> rfl

theorem Operand.bits_le (o : Operand) : o.bits ≤ 32 := by
  cases o <;> decide

/-- A mnemonic's operands set different registers, since their offsets rise. -/
theorem operandsOf_regs_nodup (i : Instr) : ((operandsOf i).map Operand.reg).Nodup := by
  refine List.Nodup.of_map (fun r => r.offset.toNat) ?_
  rw [List.map_map]
  exact (operandsOf_ascending i).imp ne_of_lt

/-- The configuration registers after one write per operand (30_encoding.md R88). -/
def setOperands (f : Operand → Nat) (os : List Operand) (c : CfgRegs) : CfgRegs :=
  os.foldl (fun c o => c.set o.reg (BitVec.ofNat 32 (f o))) c

/-- A configuration register reads from the configuration alone. -/
theorem regRead_of_cfg_eq {r : Reg} (hr : r.isConfig = true) {s t : State} (h : t.cfg = s.cfg) :
    t.regRead r = s.regRead r := by
  cases r
  case id | ctrl | status | cmd | errCode | errInfo => cases hr
  all_goals simp only [State.regRead, h]

/-- A register that no operand sets keeps its value. -/
theorem regRead_setOperands_other {f : Operand → Nat} {os : List Operand} {r : Reg} (hr : ∀ o ∈ os, o.reg ≠ r)
    (s : State) : State.regRead r { s with cfg := setOperands f os s.cfg } = s.regRead r := by
  induction os generalizing s with
  | nil => rfl
  | cons o os ih =>
    obtain ⟨ho, hos⟩ := List.forall_mem_cons.mp hr
    exact (ih hos { s with cfg := s.cfg.set o.reg (BitVec.ofNat 32 (f o)) }).trans (regRead_set_ne (Ne.symm ho) _ s)

/-- A value that fits its operand's field is stored whole (30_encoding.md R86). -/
theorem regRead_set_operand {f : Operand → Nat} {o : Operand} (hfit : f o < 2 ^ o.bits) (s : State) :
    (State.regRead o.reg { s with cfg := s.cfg.set o.reg (BitVec.ofNat 32 (f o)) }).toNat = f o := by
  have hword : f o < 2 ^ 32 := hfit.trans_le (Nat.pow_le_pow_right (by decide) o.bits_le)
  rw [regRead_set_same o.reg_isConfig, BitVec.toNat_ofNat, Nat.mod_eq_of_lt hword, o.reg_bitsUsed,
    Nat.mod_eq_of_lt hfit]

/-- Every operand's register holds its value, since no later write reaches it. -/
theorem regRead_setOperands {f : Operand → Nat} {os : List Operand} (hregs : (os.map Operand.reg).Nodup)
    (hfit : ∀ o ∈ os, f o < 2 ^ o.bits) {o : Operand} (ho : o ∈ os) (s : State) :
    (State.regRead o.reg { s with cfg := setOperands f os s.cfg }).toNat = f o := by
  induction os generalizing s with
  | nil => cases ho
  | cons o' os ih =>
    obtain ⟨hfit', hfits⟩ := List.forall_mem_cons.mp hfit
    obtain ⟨hnew, hregs⟩ := List.nodup_cons.mp hregs
    rcases List.mem_cons.mp ho with rfl | ho
    · have hother : ∀ q ∈ os, q.reg ≠ o.reg := fun q hq h => hnew (h ▸ List.mem_map_of_mem hq)
      have hlast := regRead_setOperands_other (f := f) hother { s with cfg := s.cfg.set o.reg (BitVec.ofNat 32 (f o)) }
      exact (congrArg BitVec.toNat hlast).trans (regRead_set_operand hfit' s)
    · exact ih hregs hfits ho { s with cfg := s.cfg.set o'.reg (BitVec.ofNat 32 (f o')) }

/-- What the run of an expansion leaves: the word launched, and of the rest only the configuration written. -/
def LaunchedWith (w : Word) (ops : List HostOp) (c : CfgRegs) (s t : State) : Prop :=
  t.busy = true ∧ t.pending = some w ∧ t.program = ops ∧ t.mem = s.mem ∧ t.wrBusy = s.wrBusy ∧ t.cfg = c

/-- With no turn listed and while IDLE, a configuration write at the head of the program is the next step. -/
theorem step_writes_config {s : State} {r : Reg} {v : Word} {rest : List HostOp} (hidle : s.busy = false)
    (hsched : s.schedule = []) (hr : r.isConfig = true) (hprog : s.program = .wr r v :: rest) :
    step s = .next { s with cfg := s.cfg.set r v, program := rest, hostBusErr := false } := by
  rw [step_default_idle hsched hidle hprog, hostAccess_wr,
    regWrite_config_idle (s := { s with program := rest }) hr hidle]
  rfl

/-- The host's writes follow one another while IDLE, and the launch ends them. -/
theorem run_expansion (f : Operand → Nat) (w : Word) (ops : List HostOp) (os : List Operand) {s : State}
    (hidle : s.busy = false) (hsched : s.schedule = [])
    (hprog : s.program = os.map (fun o => HostOp.wr o.reg (BitVec.ofNat 32 (f o))) ++ .wr .cmd w :: ops) :
    ∃ t, Host.Core.run Sys2Proof.core (os.length + 1) s = .next t ∧
      LaunchedWith w ops (setOperands f os s.cfg) s t := by
  induction os generalizing s with
  | nil =>
    have hstep := (step_default_idle hsched hidle hprog).trans (hostAccess_cmd_idle hidle w ops)
    exact ⟨_, run_succ hstep 0, rfl, rfl, rfl, rfl, rfl, rfl⟩
  | cons o os ih =>
    have hstep := step_writes_config hidle hsched o.reg_isConfig hprog
    obtain ⟨t, hrun, hlaunched⟩ := ih (s := { s with
      cfg := s.cfg.set o.reg (BitVec.ofNat 32 (f o))
      program := os.map (fun o => HostOp.wr o.reg (BitVec.ofNat 32 (f o))) ++ .wr .cmd w :: ops
      hostBusErr := false }) hidle hsched rfl
    exact ⟨t, (run_succ hstep _).trans hrun, hlaunched⟩

/-- Settles O60: the run writes each operand's register and launches; the registers differ, so each keeps its value. -/
theorem expandedMnemonicLaunchesItsCommand : Obligations.ExpandedMnemonicLaunchesItsCommand := by
  intro s i f ops hidle hsched hfit hprog
  obtain ⟨t, hrun, hbusy, hpend, hops, hmem, hwr, hcfg⟩ := run_expansion f (encode i) ops (operandsOf i) hidle hsched hprog
  have hread : ∀ r : Reg, r.isConfig = true →
      t.regRead r = State.regRead r { s with cfg := setOperands f (operandsOf i) s.cfg } := fun r hr =>
    regRead_of_cfg_eq hr hcfg
  refine ⟨t, hrun, hbusy, hpend, hops, hmem, hwr, fun o ho => ?_, fun r hr hother => ?_⟩
  · rw [hread o.reg o.reg_isConfig, regRead_setOperands (operandsOf_regs_nodup i) hfit ho]
  · rw [hread r hr, regRead_setOperands_other hother]

end Sys2Proof.Machine
end
